-- ==== Sys2Proof/Word.lean ====
section
/-! DEFINITION. The words of the block and their plainest arithmetic (spec 00_scope.md rules R10 to R12). -/

namespace Sys2Proof

/-- A word is 32 bits (R11). -/
abbrev Word := BitVec 32

/-- A byte of memory (R60). -/
abbrev Byte := BitVec 8

/-- A 4-bit color index or pixel (R29, R63). -/
abbrev Nibble := BitVec 4

/-- `s32(w)`: the word read as a two's-complement integer (R11). -/
abbrev s32 (w : Word) : Int := w.toInt

/-- `u32(w)`: the word read as an unsigned integer (R11). -/
abbrev u32 (w : Word) : Nat := w.toNat

/-- `wrap32(n)`: the word whose `u32` is `n mod 2^32` (R11). -/
abbrev wrap32 (n : Int) : Word := BitVec.ofInt 32 n

/-- `Fix(n) = wrap32(n * 65536)` (R12). -/
def fixOf (n : Int) : Word := wrap32 (n * 65536)

/-- `clamp(v, lo, hi) = min(max(v, lo), hi)` on integers (R11). -/
def clamp (v lo hi : Int) : Int := min (max v lo) hi

end Sys2Proof
end

