-- ==== Sys2Proof/Config.lean ====
section
/-! DEFINITION. The parameters of the block (spec 00_scope.md rules R7 and R8). The parameters the spec fixes are plain
constants; every OPEN parameter is an `opaque` constant with no body, so no proof can see its value and a claim holds
whatever it is. -/

namespace Sys2Proof.Config

/-- `MEM_SIZE = 0x8000` bytes (R7). -/
abbrev memSize : Nat := 0x8000

/-- `TBUF_SIZE = 256` bytes (R8). -/
abbrev tbufSize : Nat := 256

/-- `PEN_RESET`, the reset value of PEN: an OPEN 32-bit word (R8, R50). -/
opaque penReset : Word

/-- `CODE_START`, OPEN in `0..0x8000` (R8, R167): the first ROM byte address of the cart's code section. -/
opaque codeStart : Fin 0x8001

/-- `ROM`: the image the host presents on the ROM port when the machine starts (R8, R37); the byte at each address. -/
opaque rom : Nat → Byte

/-- `FONT` (R8, R272): whether the pixel offset `(gx, gy)` is in the glyph bitmap of a byte; OPEN. -/
opaque font : Byte → Fin 8 → Fin 6 → Bool

/-- `ADV_CTRL` in units of 4 pixels: OPEN in `{0, 4, 8}` pixels (R8, R271). -/
opaque advCtrlUnits : Fin 3

/-- `ADV_9A` less 4, in units of 4 pixels: OPEN in `{4, 8}` pixels (R8, R271, conflict C2). -/
opaque adv9AExtraUnits : Fin 2

/-- The waveforms whose formula the source gives only by shape (R290): ids 0, 1, 4, 5, 6 and 7. -/
inductive OpenWave where
  | triangle   -- WAVE_0
  | tiltedSaw  -- WAVE_1
  | pulse      -- WAVE_4
  | organ      -- WAVE_5
  | noise      -- WAVE_6
  | phaser     -- WAVE_7
  deriving DecidableEq, Repr

/-- The OPEN waveform functions (R8, R290), as the amplitude plus 65536, so that the amplitude lies in
`[-65536, 65536]`, the fix32 words of `[-1.0, 1.0]`. -/
opaque openWaveLevel : OpenWave → BitVec 16 → Fin 131073

/-- `SQUARE_HIGH_FIRST`: whether waveform 3 is `+1` on the first half of the phase; OPEN (R8, R290). -/
opaque squareHighFirst : Bool

/-- Whether an assembler literal whose value lies exactly halfway between two words rounds up; R99 says
"round-to-nearest" and gives no tie rule, so it is left free for each halfway value (named by the lower word). -/
opaque literalTieUp : Int → Bool

end Sys2Proof.Config
end

