-- ==== Sys2Proof/Syntax.lean ====
section
/-! DEFINITION. The commands of the block: one constructor for each row of spec/opcode_table.json (30_encoding.md rule R95),
carrying the flags that row allows (R92), and the raw fields of a command word (R91). -/

namespace Sys2Proof

/-- The fields of a command word (R91), before any check. -/
structure CommandFields where
  /-- `OP`, bits `[7:0]`. -/
  op : BitVec 8
  /-- `C`, bit 8: the pen operand is present. -/
  c : Bool
  /-- `FX`, bit 9: flip horizontally. -/
  fx : Bool
  /-- `FY`, bit 10: flip vertically. -/
  fy : Bool
  /-- `RSV`, bits `[31:11]`. -/
  rsv : BitVec 21
  deriving DecidableEq, Repr

/-- The commands. There are no register-number fields and no immediates (R91): an operand is in the ARG register its row
of R95 names, so a command carries only the flags its row allows. -/
inductive Instr where
  /-- FADD, OP 0x01; ARG0 a, ARG1 b (R124). -/
  | fadd
  /-- FSUB, OP 0x02; ARG0 a, ARG1 b (R125). -/
  | fsub
  /-- FMUL, OP 0x03; ARG0 a, ARG1 b (R126). -/
  | fmul
  /-- FDIV, OP 0x04; ARG0 a, ARG1 b (R127). -/
  | fdiv
  /-- FNEG, OP 0x05; ARG0 a (R128). -/
  | fneg
  /-- FABS, OP 0x06; ARG0 a (R129). -/
  | fabs
  /-- FFLR, OP 0x07; ARG0 a (R130). -/
  | fflr
  /-- FCEIL, OP 0x08; ARG0 a (R131). -/
  | fceil
  /-- FMIN, OP 0x09; ARG0 a, ARG1 b (R132). -/
  | fmin
  /-- FMAX, OP 0x0a; ARG0 a, ARG1 b (R133). -/
  | fmax
  /-- FMID, OP 0x0b; ARG0 a, ARG1 b, ARG2 c (R134). -/
  | fmid
  /-- FEQ, OP 0x0c; ARG0 a, ARG1 b (R135). -/
  | feq
  /-- FLT, OP 0x0d; ARG0 a, ARG1 b (R136). -/
  | flt
  /-- FLE, OP 0x0e; ARG0 a, ARG1 b (R137). -/
  | fle
  /-- FTOI, OP 0x0f; ARG0 a (R138). -/
  | ftoi
  /-- BAND, OP 0x10; ARG0 a, ARG1 b (R139). -/
  | band
  /-- BOR, OP 0x11; ARG0 a, ARG1 b (R140). -/
  | bor
  /-- BXOR, OP 0x12; ARG0 a, ARG1 b (R141). -/
  | bxor
  /-- BNOT, OP 0x13; ARG0 a (R142). -/
  | bnot
  /-- SHL, OP 0x14; ARG0 a, ARG1 n (R143). -/
  | shl
  /-- SHR, OP 0x15; ARG0 a, ARG1 n (R144). -/
  | shr
  /-- LSHR, OP 0x16; ARG0 a, ARG1 n (R145). -/
  | lshr
  /-- ROTL, OP 0x17; ARG0 a, ARG1 n (R146). -/
  | rotl
  /-- ROTR, OP 0x18; ARG0 a, ARG1 n (R147). -/
  | rotr
  /-- FSGN, OP 0x19; ARG0 a (R148). -/
  | fsgn
  /-- PEEK, OP 0x20; ARG0 addr (R161). -/
  | peek
  /-- PEEK4, OP 0x21; ARG0 addr (R162). -/
  | peek4
  /-- POKE, OP 0x22; ARG0 addr, ARG1 v (R163). -/
  | poke
  /-- POKE4, OP 0x23; ARG0 addr, ARG1 v (R164). -/
  | poke4
  /-- MEMCPY, OP 0x24; ARG0 dst, ARG1 src, ARG2 n (R165). -/
  | memcpy
  /-- MEMSET, OP 0x25; ARG0 dst, ARG1 v, ARG2 n (R166). -/
  | memset
  /-- RELOAD, OP 0x26; ARG0 dst, ARG1 src, ARG2 n (R167). -/
  | reload
  /-- CAMERA, OP 0x30; ARG0 x, ARG1 y (R180). -/
  | camera
  /-- CLIP, OP 0x31; ARG0 x, ARG1 y, ARG2 w, ARG3 h (R181). -/
  | clip
  /-- CLIPRST, OP 0x32; no operands (R182). -/
  | cliprst
  /-- PAL, OP 0x33; ARG0 c0, ARG1 c1, ARG2 p (R183). -/
  | pal
  /-- PALT, OP 0x34; ARG0 c, ARG1 v (R184). -/
  | palt
  /-- PALRST, OP 0x35; no operands (R185). -/
  | palrst
  /-- COLOR, OP 0x36; ARG0 pen (R186). -/
  | color
  /-- FILLP, OP 0x37; ARG0 pat (R187). -/
  | fillp
  /-- CURSOR, OP 0x38; ARG0 x, ARG1 y (R188). -/
  | cursor
  /-- PSET, OP 0x40; ARG0 x, ARG1 y, ARG2 pen (read only when C = 1) (R203). -/
  | pset (c : Bool)
  /-- PGET, OP 0x41; ARG0 x, ARG1 y (R204). -/
  | pget
  /-- HLINE, OP 0x42; ARG0 x0, ARG1 x1, ARG2 y, ARG3 pen (read only when C = 1) (R206). -/
  | hline (c : Bool)
  /-- VLINE, OP 0x43; ARG0 x, ARG1 y0, ARG2 y1, ARG3 pen (read only when C = 1) (R208). -/
  | vline (c : Bool)
  /-- LINE, OP 0x44; ARG0 x0, ARG1 y0, ARG2 x1, ARG3 y1, ARG4 pen (read only when C = 1) (R209). -/
  | line (c : Bool)
  /-- RECT, OP 0x45; ARG0 x0, ARG1 y0, ARG2 x1, ARG3 y1, ARG4 pen (read only when C = 1) (R210). -/
  | rect (c : Bool)
  /-- RECTFILL, OP 0x46; ARG0 x0, ARG1 y0, ARG2 x1, ARG3 y1, ARG4 pen (read only when C = 1) (R211). -/
  | rectfill (c : Bool)
  /-- CIRC, OP 0x47; ARG0 x, ARG1 y, ARG2 r, ARG3 pen (read only when C = 1) (R213). -/
  | circ (c : Bool)
  /-- CIRCFILL, OP 0x48; ARG0 x, ARG1 y, ARG2 r, ARG3 pen (read only when C = 1) (R214). -/
  | circfill (c : Bool)
  /-- CLS, OP 0x49; ARG0 c (R215). -/
  | cls
  /-- SPR, OP 0x50; ARG0 n, ARG1 x, ARG2 y, ARG3 w, ARG4 h (R241). -/
  | spr (fx fy : Bool)
  /-- SSPR, OP 0x51; ARG0 sx, ARG1 sy, ARG2 sw, ARG3 sh, ARG4 dx, ARG5 dy, ARG6 dw, ARG7 dh (R242). -/
  | sspr (fx fy : Bool)
  /-- MAP, OP 0x52; ARG0 cx, ARG1 cy, ARG2 sx, ARG3 sy, ARG4 cw, ARG5 ch, ARG6 layer (R243). -/
  | map
  /-- SGET, OP 0x53; ARG0 x, ARG1 y (R244). -/
  | sget
  /-- SSET, OP 0x54; ARG0 x, ARG1 y, ARG2 c (R245). -/
  | sset
  /-- MGET, OP 0x55; ARG0 x, ARG1 y (R246). -/
  | mget
  /-- MSET, OP 0x56; ARG0 x, ARG1 y, ARG2 v (R247). -/
  | mset
  /-- FGET, OP 0x57; ARG0 n (R248). -/
  | fget
  /-- FGETB, OP 0x58; ARG0 n, ARG1 f (R249). -/
  | fgetb
  /-- FSET, OP 0x59; ARG0 n, ARG1 v (R250). -/
  | fset
  /-- FSETB, OP 0x5a; ARG0 n, ARG1 f, ARG2 v (R251). -/
  | fsetb
  /-- PRINT, OP 0x60; ARG0 len, ARG1 x, ARG2 y, ARG3 pen (read only when C = 1) (R275). -/
  | print (c : Bool)
  /-- PRINTC, OP 0x61; ARG0 len, ARG1 pen (read only when C = 1) (R276). -/
  | printc (c : Bool)
  /-- WAVE, OP 0x70; ARG0 id, ARG1 phase (R291). -/
  | wave
  /-- CHSET, OP 0x71; ARG0 ch, ARG1 sfx, ARG2 row (R292). -/
  | chset
  deriving DecidableEq, Repr

end Sys2Proof
end

