-- ==== Sys2Proof/WellFormed.lean ====
section
/-! DEFINITION. When the raw fields of a command word are well formed (30_encoding.md rules R92, R94 and R96). A value of
`Instr` carries only the flags its row allows, so every `Instr` is well formed by construction; the checks stand on the raw
fields. -/

namespace Sys2Proof

/-- The opcode is one of R95 (the gaps are the ranges R96 lists). -/
def CommandFields.knownOpcode (f : CommandFields) : Bool :=
  let n := f.op.toNat
  (0x01 ≤ n && n ≤ 0x19) || (0x20 ≤ n && n ≤ 0x26) || (0x30 ≤ n && n ≤ 0x38) || (0x40 ≤ n && n ≤ 0x49) ||
    (0x50 ≤ n && n ≤ 0x5a) || (0x60 ≤ n && n ≤ 0x61) || (0x70 ≤ n && n ≤ 0x71)

/-- The opcodes that allow `C` (R92): PSET, HLINE, VLINE, LINE, RECT, RECTFILL, CIRC, CIRCFILL, PRINT and PRINTC. -/
def CommandFields.allowsC (f : CommandFields) : Bool :=
  let n := f.op.toNat
  n == 0x40 || (0x42 ≤ n && n ≤ 0x48) || n == 0x60 || n == 0x61

/-- The opcodes that allow `FX` and `FY` (R92): SPR and SSPR. -/
def CommandFields.allowsFlip (f : CommandFields) : Bool :=
  let n := f.op.toNat
  n == 0x50 || n == 0x51

/-- Every set flag is a flag the opcode allows (R94). -/
def CommandFields.flagsAllowed (f : CommandFields) : Bool :=
  (!f.c || f.allowsC) && (!f.fx || f.allowsFlip) && (!f.fy || f.allowsFlip)

/-- The reserved field is 0 (R91, R94). -/
def CommandFields.reservedZero (f : CommandFields) : Bool := f.rsv == 0

/-- A command word is legal iff its opcode is known, its reserved field is 0 and its flags are allowed (R94). -/
def CommandFields.wf (f : CommandFields) : Bool := f.knownOpcode && f.reservedZero && f.flagsAllowed

end Sys2Proof
end

