-- ==== Sys2Proof/Decode.lean ====
section
/-! DEFINITION. Decoding a command word (30_encoding.md rules R91 to R97), total and rejecting by name, and after it the
encoder, written from the same opcode map (R95). There is one command length, one 32-bit word (R97), so a decoder finds no
length. -/

namespace Sys2Proof

/-- Why a command word is illegal (R94); every reason raises ILLEGAL_COMMAND. -/
inductive DecodeError where
  /-- `w[7:0]` is no opcode of R95 (R96). -/
  | unknownOpcode
  /-- `w[31:11]` is not 0 (R96). -/
  | reservedBits
  /-- A flag is set that the opcode does not allow (R92). -/
  | flagNotAllowed
  deriving DecidableEq, Repr

/-- The fields of a command word (R91). -/
def CommandFields.ofWord (w : Word) : CommandFields :=
  { op := w.extractLsb' 0 8, c := w.getLsbD 8, fx := w.getLsbD 9, fy := w.getLsbD 10, rsv := w.extractLsb' 11 21 }

/-- The command word with the given fields (R91). -/
def CommandFields.toWord (f : CommandFields) : Word :=
  f.rsv ++ (BitVec.ofBool f.fy ++ (BitVec.ofBool f.fx ++ (BitVec.ofBool f.c ++ f.op)))

/-- A row of the opcode map without flags: any set flag is refused (R92). -/
def plainRow (i : Instr) (f : CommandFields) : Except DecodeError Instr :=
  if f.c || f.fx || f.fy then .error .flagNotAllowed else .ok i

/-- A row that allows `C` only (R92). -/
def penRow (i : Bool → Instr) (f : CommandFields) : Except DecodeError Instr :=
  if f.fx || f.fy then .error .flagNotAllowed else .ok (i f.c)

/-- A row that allows `FX` and `FY` only (R92). -/
def flipRow (i : Bool → Bool → Instr) (f : CommandFields) : Except DecodeError Instr :=
  if f.c then .error .flagNotAllowed else .ok (i f.fx f.fy)

/-- The opcode map (R95), on fields whose reserved bits are 0. -/
def decodeFields (f : CommandFields) : Except DecodeError Instr :=
  match f.op.toNat with
  | 0x01 => plainRow .fadd f
  | 0x02 => plainRow .fsub f
  | 0x03 => plainRow .fmul f
  | 0x04 => plainRow .fdiv f
  | 0x05 => plainRow .fneg f
  | 0x06 => plainRow .fabs f
  | 0x07 => plainRow .fflr f
  | 0x08 => plainRow .fceil f
  | 0x09 => plainRow .fmin f
  | 0x0a => plainRow .fmax f
  | 0x0b => plainRow .fmid f
  | 0x0c => plainRow .feq f
  | 0x0d => plainRow .flt f
  | 0x0e => plainRow .fle f
  | 0x0f => plainRow .ftoi f
  | 0x10 => plainRow .band f
  | 0x11 => plainRow .bor f
  | 0x12 => plainRow .bxor f
  | 0x13 => plainRow .bnot f
  | 0x14 => plainRow .shl f
  | 0x15 => plainRow .shr f
  | 0x16 => plainRow .lshr f
  | 0x17 => plainRow .rotl f
  | 0x18 => plainRow .rotr f
  | 0x19 => plainRow .fsgn f
  | 0x20 => plainRow .peek f
  | 0x21 => plainRow .peek4 f
  | 0x22 => plainRow .poke f
  | 0x23 => plainRow .poke4 f
  | 0x24 => plainRow .memcpy f
  | 0x25 => plainRow .memset f
  | 0x26 => plainRow .reload f
  | 0x30 => plainRow .camera f
  | 0x31 => plainRow .clip f
  | 0x32 => plainRow .cliprst f
  | 0x33 => plainRow .pal f
  | 0x34 => plainRow .palt f
  | 0x35 => plainRow .palrst f
  | 0x36 => plainRow .color f
  | 0x37 => plainRow .fillp f
  | 0x38 => plainRow .cursor f
  | 0x40 => penRow .pset f
  | 0x41 => plainRow .pget f
  | 0x42 => penRow .hline f
  | 0x43 => penRow .vline f
  | 0x44 => penRow .line f
  | 0x45 => penRow .rect f
  | 0x46 => penRow .rectfill f
  | 0x47 => penRow .circ f
  | 0x48 => penRow .circfill f
  | 0x49 => plainRow .cls f
  | 0x50 => flipRow .spr f
  | 0x51 => flipRow .sspr f
  | 0x52 => plainRow .map f
  | 0x53 => plainRow .sget f
  | 0x54 => plainRow .sset f
  | 0x55 => plainRow .mget f
  | 0x56 => plainRow .mset f
  | 0x57 => plainRow .fget f
  | 0x58 => plainRow .fgetb f
  | 0x59 => plainRow .fset f
  | 0x5a => plainRow .fsetb f
  | 0x60 => penRow .print f
  | 0x61 => penRow .printc f
  | 0x70 => plainRow .wave f
  | 0x71 => plainRow .chset f
  | _ => .error .unknownOpcode

/-- Decode a command word (R94). -/
def decode (w : Word) : Except DecodeError Instr :=
  let f := CommandFields.ofWord w
  if f.rsv = 0 then decodeFields f else .error .reservedBits

/-- The opcode of each command (R95). -/
def Instr.opcode : Instr → BitVec 8
  | .fadd => 0x01
  | .fsub => 0x02
  | .fmul => 0x03
  | .fdiv => 0x04
  | .fneg => 0x05
  | .fabs => 0x06
  | .fflr => 0x07
  | .fceil => 0x08
  | .fmin => 0x09
  | .fmax => 0x0a
  | .fmid => 0x0b
  | .feq => 0x0c
  | .flt => 0x0d
  | .fle => 0x0e
  | .ftoi => 0x0f
  | .band => 0x10
  | .bor => 0x11
  | .bxor => 0x12
  | .bnot => 0x13
  | .shl => 0x14
  | .shr => 0x15
  | .lshr => 0x16
  | .rotl => 0x17
  | .rotr => 0x18
  | .fsgn => 0x19
  | .peek => 0x20
  | .peek4 => 0x21
  | .poke => 0x22
  | .poke4 => 0x23
  | .memcpy => 0x24
  | .memset => 0x25
  | .reload => 0x26
  | .camera => 0x30
  | .clip => 0x31
  | .cliprst => 0x32
  | .pal => 0x33
  | .palt => 0x34
  | .palrst => 0x35
  | .color => 0x36
  | .fillp => 0x37
  | .cursor => 0x38
  | .pset _ => 0x40
  | .pget => 0x41
  | .hline _ => 0x42
  | .vline _ => 0x43
  | .line _ => 0x44
  | .rect _ => 0x45
  | .rectfill _ => 0x46
  | .circ _ => 0x47
  | .circfill _ => 0x48
  | .cls => 0x49
  | .spr _ _ => 0x50
  | .sspr _ _ => 0x51
  | .map => 0x52
  | .sget => 0x53
  | .sset => 0x54
  | .mget => 0x55
  | .mset => 0x56
  | .fget => 0x57
  | .fgetb => 0x58
  | .fset => 0x59
  | .fsetb => 0x5a
  | .print _ => 0x60
  | .printc _ => 0x61
  | .wave => 0x70
  | .chset => 0x71

/-- The fields of a command's word: its opcode and the flags it carries (R91, R95). -/
def Instr.fields (i : Instr) : CommandFields :=
  match i with
  | .fadd => ⟨i.opcode, false, false, false, 0⟩
  | .fsub => ⟨i.opcode, false, false, false, 0⟩
  | .fmul => ⟨i.opcode, false, false, false, 0⟩
  | .fdiv => ⟨i.opcode, false, false, false, 0⟩
  | .fneg => ⟨i.opcode, false, false, false, 0⟩
  | .fabs => ⟨i.opcode, false, false, false, 0⟩
  | .fflr => ⟨i.opcode, false, false, false, 0⟩
  | .fceil => ⟨i.opcode, false, false, false, 0⟩
  | .fmin => ⟨i.opcode, false, false, false, 0⟩
  | .fmax => ⟨i.opcode, false, false, false, 0⟩
  | .fmid => ⟨i.opcode, false, false, false, 0⟩
  | .feq => ⟨i.opcode, false, false, false, 0⟩
  | .flt => ⟨i.opcode, false, false, false, 0⟩
  | .fle => ⟨i.opcode, false, false, false, 0⟩
  | .ftoi => ⟨i.opcode, false, false, false, 0⟩
  | .band => ⟨i.opcode, false, false, false, 0⟩
  | .bor => ⟨i.opcode, false, false, false, 0⟩
  | .bxor => ⟨i.opcode, false, false, false, 0⟩
  | .bnot => ⟨i.opcode, false, false, false, 0⟩
  | .shl => ⟨i.opcode, false, false, false, 0⟩
  | .shr => ⟨i.opcode, false, false, false, 0⟩
  | .lshr => ⟨i.opcode, false, false, false, 0⟩
  | .rotl => ⟨i.opcode, false, false, false, 0⟩
  | .rotr => ⟨i.opcode, false, false, false, 0⟩
  | .fsgn => ⟨i.opcode, false, false, false, 0⟩
  | .peek => ⟨i.opcode, false, false, false, 0⟩
  | .peek4 => ⟨i.opcode, false, false, false, 0⟩
  | .poke => ⟨i.opcode, false, false, false, 0⟩
  | .poke4 => ⟨i.opcode, false, false, false, 0⟩
  | .memcpy => ⟨i.opcode, false, false, false, 0⟩
  | .memset => ⟨i.opcode, false, false, false, 0⟩
  | .reload => ⟨i.opcode, false, false, false, 0⟩
  | .camera => ⟨i.opcode, false, false, false, 0⟩
  | .clip => ⟨i.opcode, false, false, false, 0⟩
  | .cliprst => ⟨i.opcode, false, false, false, 0⟩
  | .pal => ⟨i.opcode, false, false, false, 0⟩
  | .palt => ⟨i.opcode, false, false, false, 0⟩
  | .palrst => ⟨i.opcode, false, false, false, 0⟩
  | .color => ⟨i.opcode, false, false, false, 0⟩
  | .fillp => ⟨i.opcode, false, false, false, 0⟩
  | .cursor => ⟨i.opcode, false, false, false, 0⟩
  | .pset c => ⟨i.opcode, c, false, false, 0⟩
  | .pget => ⟨i.opcode, false, false, false, 0⟩
  | .hline c => ⟨i.opcode, c, false, false, 0⟩
  | .vline c => ⟨i.opcode, c, false, false, 0⟩
  | .line c => ⟨i.opcode, c, false, false, 0⟩
  | .rect c => ⟨i.opcode, c, false, false, 0⟩
  | .rectfill c => ⟨i.opcode, c, false, false, 0⟩
  | .circ c => ⟨i.opcode, c, false, false, 0⟩
  | .circfill c => ⟨i.opcode, c, false, false, 0⟩
  | .cls => ⟨i.opcode, false, false, false, 0⟩
  | .spr fx fy => ⟨i.opcode, false, fx, fy, 0⟩
  | .sspr fx fy => ⟨i.opcode, false, fx, fy, 0⟩
  | .map => ⟨i.opcode, false, false, false, 0⟩
  | .sget => ⟨i.opcode, false, false, false, 0⟩
  | .sset => ⟨i.opcode, false, false, false, 0⟩
  | .mget => ⟨i.opcode, false, false, false, 0⟩
  | .mset => ⟨i.opcode, false, false, false, 0⟩
  | .fget => ⟨i.opcode, false, false, false, 0⟩
  | .fgetb => ⟨i.opcode, false, false, false, 0⟩
  | .fset => ⟨i.opcode, false, false, false, 0⟩
  | .fsetb => ⟨i.opcode, false, false, false, 0⟩
  | .print c => ⟨i.opcode, c, false, false, 0⟩
  | .printc c => ⟨i.opcode, c, false, false, 0⟩
  | .wave => ⟨i.opcode, false, false, false, 0⟩
  | .chset => ⟨i.opcode, false, false, false, 0⟩

/-- The command word of a command (R91, R95). -/
def encode (i : Instr) : Word := i.fields.toWord

/-- The command a word of the opcode table decodes to, for the host's check: the table's bit 0 is bit 0 of the command
word, which is one 32-bit word (R97); every bit above `nbits` is 0. -/
def decodeTableWord (nbits w : Nat) : Option Instr :=
  match decode (BitVec.ofNat 32 (w % 2 ^ nbits)) with
  | .ok i => some i
  | .error _ => none

end Sys2Proof
end

