-- ==== Sys2Proof/Machine/State.lean ====
section
/-! DEFINITION. The state of the block (10_state.md), as plain data, the reasons a step can stop, and the state after reset
(10_state.md rule R50). -/

namespace Sys2Proof.Machine

/-- The three fault causes of R300, which STATUS.FCODE names. The block RECORDS a fault (R301) and goes on: every cause is
taken as a next state, and no meaning and no step ever answers `Outcome.fault` (there is no trap, R307). -/
inductive Fault where
  /-- Code 0x01. Raised by POKE, POKE4, MEMCPY, MEMSET and RELOAD when a destination byte lies at or above MEM_SIZE. Safe:
  it is the spec's own fault. -/
  | badMemoryAccess
  /-- Code 0x02. Raised by a CMD write whose word fails the decode of R94. Safe: it is the spec's own fault. -/
  | illegalCommand
  /-- Code 0x03. Raised by WAVE, CHSET, PRINT and PRINTC for an operand outside its table. Safe: it is the spec's own
  fault. -/
  | badOperand
  deriving DecidableEq, Repr

/-- The accesses a model refuses (R18, R40, R314). No command is refused, and no read of a register is refused for want of a
value (log 1). -/
inductive Refusal where
  /-- No meaning yet for the named instruction. Raised by no arm of this model. Safe. -/
  | notModelled (mnemonic : String)
  /-- A host access that is narrower or wider than 32 bits (R40). Raised by a host read or write. Safe. -/
  | wrongWidth
  /-- A host access at an offset that is no multiple of 4 (R40). Raised by a host read or write. Safe. -/
  | misaligned
  /-- A host access to an offset R39 does not list (R40). Raised by a host read or write. Safe. -/
  | unlistedOffset
  /-- A host write to a register marked R only (R40). Raised by a host write. Safe. -/
  | readOnlyRegister
  /-- A host read of CMD (R40). Raised by a host read. Safe. -/
  | writeOnlyRegister
  /-- Two host accesses that overlap in time (R314). Raised when the host presents two at once. Safe. -/
  | overlappingAccesses
  /-- A display-port read of a byte outside SCREEN, which the port does not give (R71). Raised by the front-end. Safe. -/
  | outsideScreen
  /-- A ROM image that is no image of the bytes `0..0x7fff` in canonical form (R37). Raised when the host replaces the
  image. Safe. -/
  | malformedRomImage
  deriving DecidableEq, Repr

/-- A byte memory, as the list of its nonzero bytes by rising address; an unlisted address reads 0 (R50: after reset all
bytes are 0). `Memory.wf` (Machine/Ops.lean) is the canonical form. -/
abbrev Memory := List Host.Cell

/-- CLIP: the rectangle `aa..bb`, closed at `aa` and open at `bb` (R26). -/
structure Clip where
  aaX : Nat
  aaY : Nat
  bbX : Nat
  bbY : Nat
  deriving DecidableEq, Repr

/-- An audio channel record (R32): `sfx` signed, `row` unsigned. -/
structure Channel where
  sfx : BitVec 16
  row : BitVec 16
  deriving DecidableEq, Repr

/-- What the ROM port shows (R37): the image the host presented at the start (`Config.rom`), or the image a later cart load
put in its place. -/
inductive RomImage where
  | presented
  | replaced (image : Memory)
  deriving DecidableEq, Repr

/-- One access from outside the block (R17, R40, R71, R37, R330). -/
inductive HostAccess where
  /-- The host writes `data` at a register offset with an access of `width` bits. -/
  | write (width offset : Nat) (data : Word)
  /-- The host reads a register offset with an access of `width` bits. -/
  | read (width offset : Nat)
  /-- The host presents two accesses at the same time (R314). -/
  | overlapping
  /-- The host replaces the ROM image (R37, R345). -/
  | loadRom (image : Memory)
  /-- The host applies reset (R330). -/
  | reset
  /-- The front-end reads a byte through the display port (R71). -/
  | displayByte (addr : Nat)
  /-- The front-end reads an SPAL entry through the display port (R71). -/
  | displayPalette (i : Fin 16)
  deriving DecidableEq, Repr

/-- What the block answers to a read. -/
inductive Reply where
  /-- The word a host read returns. -/
  | word (w : Word)
  /-- The SCREEN byte a display-port read returns. -/
  | screenByte (b : Byte)
  /-- The SPAL entry a display-port read returns. -/
  | paletteEntry (c : Nibble)
  deriving DecidableEq, Repr

/-- The state of the block (R20), the ROM port (R37), and the model's own record of the accesses still to be served and of
the answers given. -/
structure State where
  /-- The 32 KiB memory (R36, R60). -/
  mem : Memory
  /-- ARG0 to ARG7 (R22). -/
  args : Vector Word 8
  /-- Whether each ARG register has been written since reset (R22, R332): what the spec calls holding a value. -/
  argWritten : Vector Bool 8
  /-- RESULT (R23). -/
  result : Word
  /-- Whether RESULT has been written since reset (R23). -/
  resultWritten : Bool
  /-- PEN (R24). -/
  pen : Word
  /-- FILLP (R25). -/
  fillp : Word
  /-- CLIP (R26). -/
  clip : Clip
  /-- CAMERA.x, a signed 16-bit integer (R27). -/
  cameraX : BitVec 16
  /-- CAMERA.y, a signed 16-bit integer (R27). -/
  cameraY : BitVec 16
  /-- CURSOR_X, a fix32 value (R28). -/
  cursorX : Word
  /-- CURSOR_Y, a fix32 value (R28). -/
  cursorY : Word
  /-- DPAL, the draw palette (R29). -/
  dpal : Vector Nibble 16
  /-- SPAL, the screen palette (R30). -/
  spal : Vector Nibble 16
  /-- TRANSP, the transparency mask (R31). -/
  transp : Vector Bool 16
  /-- CH0 to CH3 (R32). -/
  channels : Vector Channel 4
  /-- STATUS (R33): the fault recorded, if any. FAULT is 1 iff there is one, and FCODE is its code. -/
  fault : Option Fault
  /-- FADDR (R34). -/
  faddr : Word
  /-- TBUF, the text buffer (R35). -/
  tbuf : Vector Byte 256
  /-- Whether each TBUF byte has been written since reset (R35). -/
  tbufWritten : Vector Bool 256
  /-- The ROM image on the ROM port (R37). -/
  rom : RomImage
  /-- The MODEL's own: accesses from outside still to be served, oldest first (log 3). -/
  inbox : List HostAccess
  /-- The MODEL's own: the answers given to reads, oldest first (log 3). -/
  replies : List Reply
  deriving DecidableEq, Repr

/-- The identity palette: entry `i` is `i` (R29, R30). -/
def identityPalette : Vector Nibble 16 := Vector.ofFn fun i => BitVec.ofNat 4 i.val

/-- Only `TRANSP[0]` set (R31). -/
def defaultTransp : Vector Bool 16 := Vector.ofFn fun i => i.val == 0

/-- The full screen (R182). -/
def fullClip : Clip := { aaX := 0, aaY := 0, bbX := 128, bbY := 128 }

/-- The state after reset (R50). ARG, RESULT and TBUF, which the spec gives no value, hold 0 (log 1, DESIGN CHOICE) and are
marked not written; PEN holds the OPEN parameter. -/
def State.reset : State :=
  { mem := []
    args := Vector.replicate 8 0
    argWritten := Vector.replicate 8 false
    result := 0
    resultWritten := false
    pen := Config.penReset
    fillp := 0
    clip := fullClip
    cameraX := 0
    cameraY := 0
    cursorX := 0
    cursorY := 0
    dpal := identityPalette
    spal := identityPalette
    transp := defaultTransp
    channels := Vector.replicate 4 { sfx := 0xffff, row := 0 }
    fault := none
    faddr := 0
    tbuf := Vector.replicate 256 0
    tbufWritten := Vector.replicate 256 false
    rom := .presented
    inbox := []
    replies := [] }

end Sys2Proof.Machine
end

