-- ==== Sys2Proof/Machine/Ops.lean ====
section
/-! DEFINITION. The named operations over memory and registers: bytes and runs of bytes (20_memory.md), the typed views that
share their storage (R62 to R69), RESULT, and recording and clearing a fault (60_exceptions.md rules R301 and R308). -/

namespace Sys2Proof.Machine

/-- A step or a command of the block ends in one of these. -/
abbrev Result := Host.Outcome State Fault Refusal

/-! ### Bytes -/

/-- The byte at an address; an unlisted address reads 0 (R50, R60). -/
def Memory.read : Memory → Nat → Byte
  | [], _ => 0
  | (k, b) :: m, a => if k = a then b else Memory.read m a

/-- The nonzero cells of the `n` bytes `f 0, f 1, …` laid out from address `d`. -/
def Memory.cells (d n : Nat) (f : Nat → Byte) : Memory :=
  (List.range n).filterMap fun k => if f k = 0 then none else some (d + k, f k)

/-- The memory after the `n` bytes `f 0, f 1, …` are written at `d, d + 1, …`: `MemWrite(d + k, 1, f k)` for `k` in `0..n-1`
(R13). -/
def Memory.fill (d n : Nat) (f : Nat → Byte) (m : Memory) : Memory :=
  m.filter (fun c => c.1 < d) ++ Memory.cells d n f ++ m.filter (fun c => d + n ≤ c.1)

/-- `MemWrite(a, 1, b)` (R13). -/
def Memory.write (a : Nat) (b : Byte) (m : Memory) : Memory := m.fill a 1 fun _ => b

/-- The canonical form: addresses strictly rising and inside memory (R60), and no listed byte 0. -/
abbrev Memory.wf (m : Memory) : Prop :=
  m.Pairwise (fun c c' => c.1 < c'.1) ∧ ∀ c ∈ m, c.1 < Config.memSize ∧ c.2 ≠ 0

/-- Byte `k` of a word, `w[8k+7:8k]`: the little-endian order of a 32-bit access (R61). -/
def byteOf (w : Word) (k : Nat) : Byte := w.extractLsb' (8 * k) 8

/-- The word of four bytes in little-endian order (R61). -/
def wordOf (b0 b1 b2 b3 : Byte) : Word := b3 ++ (b2 ++ (b1 ++ b0))

/-- A read by a memory command (R160, R72): the address wraps at 0x10000, and an address outside memory reads 0. -/
def Memory.readWrapped (m : Memory) (a : Nat) : Byte :=
  let a' := a % 0x10000
  if a' < Config.memSize then m.read a' else 0

/-- A byte of the ROM image on the ROM port (R37). -/
def RomImage.read (r : RomImage) (a : Nat) : Byte :=
  match r with
  | .presented => Config.rom a
  | .replaced image => image.read a

/-- A byte of the RELOAD source (R167): the address wraps at 0x10000, and at or past CODE_START it reads 0. -/
def RomImage.readSource (r : RomImage) (a : Nat) : Byte :=
  let a' := a % 0x10000
  if a' < Config.codeStart.val then r.read a' else 0

/-! ### Pixels -/

/-- Pixel column `x` of a byte: the low nibble when `x` is even, the high nibble when `x` is odd (R63). -/
def nibbleOf (x : Nat) (b : Byte) : Nibble :=
  if x % 2 = 0 then b.extractLsb' 0 4 else b.extractLsb' 4 4

/-- The byte with the nibble of pixel column `x` replaced and the other nibble kept (R63, R66). -/
def setNibble (x : Nat) (c : Nibble) (b : Byte) : Byte :=
  if x % 2 = 0 then b.extractLsb' 4 4 ++ c else c ++ b.extractLsb' 0 4

/-- `ScreenAddr(x, y)` (R64). -/
def screenAddr (x y : Nat) : Nat := 0x6000 + 64 * y + x / 2

/-- `GfxAddr(x, y)` (R65). -/
def gfxAddr (x y : Nat) : Nat := 64 * y + x / 2

/-- The 128 x 128 square of SCREEN and of the sprite sheet (R64, R65). -/
abbrev inSquare (x y : Int) : Prop := 0 ≤ x ∧ x < 128 ∧ 0 ≤ y ∧ y < 128

/-- `ScreenRead(x, y)` (R64). The spec uses it on the screen only; elsewhere it gives 0 (log 12: no clip of R26 reaches
there). -/
def screenRead (m : Memory) (x y : Int) : Nibble :=
  if inSquare x y then nibbleOf x.toNat (m.read (screenAddr x.toNat y.toNat)) else 0

/-- `GfxRead(x, y)`: 0 outside the sheet (R65). -/
def gfxRead (m : Memory) (x y : Int) : Nibble :=
  if inSquare x y then nibbleOf x.toNat (m.read (gfxAddr x.toNat y.toNat)) else 0

/-- Replace the nibble of pixel column `x` in the byte at address `a` (R66). -/
def Memory.writeNibble (a x : Nat) (c : Nibble) (m : Memory) : Memory := m.write a (setNibble x c (m.read a))

/-- `ScreenWrite(x, y, c)`: nothing outside the screen (R66). -/
def screenWrite (x y : Int) (c : Nibble) (m : Memory) : Memory :=
  if inSquare x y then m.writeNibble (screenAddr x.toNat y.toNat) x.toNat c else m

/-- `GfxWrite(x, y, c)`: nothing outside the sheet (R66). -/
def gfxWrite (x y : Int) (c : Nibble) (m : Memory) : Memory :=
  if inSquare x y then m.writeNibble (gfxAddr x.toNat y.toNat) x.toNat c else m

/-! ### Map cells and sprite flags -/

/-- The 128 x 64 cells of the map (R67). -/
abbrev inMap (cx cy : Int) : Prop := 0 ≤ cx ∧ cx < 128 ∧ 0 ≤ cy ∧ cy < 64

/-- `MapAddr(cx, cy)`: rows 0..31 at 0x2000, rows 32..63 at 0x1000 (R67, conflict C1). -/
def mapAddr (cx cy : Nat) : Nat :=
  if cy < 32 then 0x2000 + 128 * cy + cx else 0x1000 + 128 * (cy - 32) + cx

/-- `MapRead(cx, cy)`: 0 outside the map (R67). -/
def mapRead (m : Memory) (cx cy : Int) : Byte :=
  if inMap cx cy then m.read (mapAddr cx.toNat cy.toNat) else 0

/-- The write of a map cell: dropped outside the map (R247). -/
def mapWrite (cx cy : Int) (b : Byte) (m : Memory) : Memory :=
  if inMap cx cy then m.write (mapAddr cx.toNat cy.toNat) b else m

/-- The address of the flag byte of sprite `n` (R68). -/
def flagAddr (n : Nat) : Nat := 0x3000 + n

/-- The sprite numbers that have a flag byte (R68). -/
abbrev isSprite (n : Int) : Prop := 0 ≤ n ∧ n < 256

/-- The bit indexes of a flag byte (R249). -/
abbrev isFlagBit (f : Int) : Prop := 0 ≤ f ∧ f < 8

/-! ### Registers -/

/-- `ARG[i]` (R13, R22). -/
def readArg (i : Fin 8) (s : State) : Word := s.args[i]

/-- `RESULT <- w` (R13, R23). -/
def State.setResult (w : Word) (s : State) : State := { s with result := w, resultWritten := true }

/-- The end of a command that returns the value `w` (R23). -/
def returnWord (w : Word) (s : State) : Result := .next (s.setResult w)

/-- A memory with its new contents. -/
def State.setMem (m : Memory) (s : State) : State := { s with mem := m }

/-! ### Faults -/

/-- Recording a fault (R301): the block's one exception entry. FAULT and FCODE are set by `cause` and FADDR by `addr`;
nothing else changes, no mode, no mask and no control transfer (R302, R307). -/
def State.raiseFault (cause : Fault) (addr : Word) (s : State) : State := { s with fault := some cause, faddr := addr }

/-- `raise Fault(k, a)` inside a command: the record is made and the command ends (R302). -/
def raiseFault (cause : Fault) (addr : Word) (s : State) : Result := .next (s.raiseFault cause addr)

/-- The return from a fault (R308): FAULT, FCODE and FADDR become 0 and nothing is restored. -/
def State.clearFault (s : State) : State := { s with fault := none, faddr := 0 }

/-- The one way a memory command writes (R160, R163 to R167): the `n` bytes `f 0, f 1, …` go to `d, d + 1, …`, or, if any of
them would lie at or above MEM_SIZE, nothing is written and BAD_MEMORY_ACCESS is recorded with FADDR the lowest such
address. A run of no bytes never faults. -/
def storeRun (d n : Nat) (f : Nat → Byte) (s : State) : Result :=
  if 0 < n ∧ Config.memSize < d + n then raiseFault .badMemoryAccess (BitVec.ofNat 32 (max d Config.memSize)) s
  else .next (s.setMem (s.mem.fill d n f))

end Sys2Proof.Machine
end

