-- ==== Sys2Proof/Machine/Operands.lean ====
section
/-! DEFINITION. Operands: the coercions of 00_scope.md rule R14, the ARG registers each command reads (30_encoding.md rule
R95), and the pen operand (43_primitives.md rule R202). -/

namespace Sys2Proof.Machine

/-- `Int(v)`: the fix32 value truncated toward zero (R12). -/
def intOf (v : Word) : Int := (s32 v).tdiv 65536

/-- `CamX(v)`: the camera is subtracted in fix32 arithmetic and the value truncated (R14). -/
def camX (s : State) (v : Word) : Int := intOf (wrap32 (s32 v - s32 (fixOf s.cameraX.toInt)))

/-- `CamY(v)` (R14). -/
def camY (s : State) (v : Word) : Int := intOf (wrap32 (s32 v - s32 (fixOf s.cameraY.toInt)))

/-- `Addr(v) = Int(v) mod 0x10000` (R14). -/
def addrOf (v : Word) : Nat := (intOf v % 0x10000).toNat

/-- `Byte(v) = Int(v) mod 0x100` (R14). -/
def byteValue (v : Word) : Byte := BitVec.ofInt 8 (intOf v)

/-- `Col(v) = Int(v) mod 0x10` (R14). -/
def colOf (v : Word) : Nibble := BitVec.ofInt 4 (intOf v)

/-- `Bool(v)`: true iff `v != 0` (R14). -/
def boolOf (v : Word) : Bool := v != 0

/-- `Coord(ARG[i])`, the integer value of an operand (R14). -/
def argInt (i : Fin 8) (s : State) : Int := intOf (readArg i s)

/-- `CamX(ARG[i])` (R14). -/
def argX (i : Fin 8) (s : State) : Int := camX s (readArg i s)

/-- `CamY(ARG[i])` (R14). -/
def argY (i : Fin 8) (s : State) : Int := camY s (readArg i s)

/-- The number of operand registers each command reads, from ARG0 on, without the pen operand (R95). -/
def plainOperands (i : Instr) : Nat :=
  match i with
  | .fadd => 2
  | .fsub => 2
  | .fmul => 2
  | .fdiv => 2
  | .fneg => 1
  | .fabs => 1
  | .fflr => 1
  | .fceil => 1
  | .fmin => 2
  | .fmax => 2
  | .fmid => 3
  | .feq => 2
  | .flt => 2
  | .fle => 2
  | .ftoi => 1
  | .band => 2
  | .bor => 2
  | .bxor => 2
  | .bnot => 1
  | .shl => 2
  | .shr => 2
  | .lshr => 2
  | .rotl => 2
  | .rotr => 2
  | .fsgn => 1
  | .peek => 1
  | .peek4 => 1
  | .poke => 2
  | .poke4 => 2
  | .memcpy => 3
  | .memset => 3
  | .reload => 3
  | .camera => 2
  | .clip => 4
  | .cliprst => 0
  | .pal => 3
  | .palt => 2
  | .palrst => 0
  | .color => 1
  | .fillp => 1
  | .cursor => 2
  | .pset _ => 2
  | .pget => 2
  | .hline _ => 3
  | .vline _ => 3
  | .line _ => 4
  | .rect _ => 4
  | .rectfill _ => 4
  | .circ _ => 3
  | .circfill _ => 3
  | .cls => 1
  | .spr _ _ => 5
  | .sspr _ _ => 8
  | .map => 7
  | .sget => 2
  | .sset => 3
  | .mget => 2
  | .mset => 3
  | .fget => 1
  | .fgetb => 2
  | .fset => 2
  | .fsetb => 3
  | .print _ => 3
  | .printc _ => 1
  | .wave => 2
  | .chset => 3

/-- The pen operand register of a command that has `C` set (R95): the register after its other operands. -/
def hasPen (i : Instr) : Bool := i.fields.c

/-- The ARG registers a command reads: those its row of R95 names, and the pen operand only when `C = 1` (R332). -/
def argsRead (i : Instr) : List (Fin 8) :=
  (List.finRange 8).filter fun k => k.val < plainOperands i + (if hasPen i then 1 else 0)

/-- The number of TBUF bytes a command reads, from byte 0 on (R270): `L` for a print whose `len` is in range. -/
def tbufRead (i : Instr) (s : State) : Nat :=
  match i with
  | .fadd => 0
  | .fsub => 0
  | .fmul => 0
  | .fdiv => 0
  | .fneg => 0
  | .fabs => 0
  | .fflr => 0
  | .fceil => 0
  | .fmin => 0
  | .fmax => 0
  | .fmid => 0
  | .feq => 0
  | .flt => 0
  | .fle => 0
  | .ftoi => 0
  | .band => 0
  | .bor => 0
  | .bxor => 0
  | .bnot => 0
  | .shl => 0
  | .shr => 0
  | .lshr => 0
  | .rotl => 0
  | .rotr => 0
  | .fsgn => 0
  | .peek => 0
  | .peek4 => 0
  | .poke => 0
  | .poke4 => 0
  | .memcpy => 0
  | .memset => 0
  | .reload => 0
  | .camera => 0
  | .clip => 0
  | .cliprst => 0
  | .pal => 0
  | .palt => 0
  | .palrst => 0
  | .color => 0
  | .fillp => 0
  | .cursor => 0
  | .pset _ => 0
  | .pget => 0
  | .hline _ => 0
  | .vline _ => 0
  | .line _ => 0
  | .rect _ => 0
  | .rectfill _ => 0
  | .circ _ => 0
  | .circfill _ => 0
  | .cls => 0
  | .spr _ _ => 0
  | .sspr _ _ => 0
  | .map => 0
  | .sget => 0
  | .sset => 0
  | .mget => 0
  | .mset => 0
  | .fget => 0
  | .fgetb => 0
  | .fset => 0
  | .fsetb => 0
  | .print _ => if 0 ≤ argInt 0 s ∧ argInt 0 s ≤ Config.tbufSize then (argInt 0 s).toNat else 0
  | .printc _ => if 0 ≤ argInt 0 s ∧ argInt 0 s ≤ Config.tbufSize then (argInt 0 s).toNat else 0
  | .wave => 0
  | .chset => 0

/-- `PEN <- ARG[p]` if `C = 1` (R202). -/
def takePen (c : Bool) (p : Fin 8) (s : State) : State := if c then { s with pen := readArg p s } else s

end Sys2Proof.Machine
end

