-- ==== Sys2Proof/Machine/Flags.lean ====
section
/-! DEFINITION. The block has no condition codes (10_state.md rule R48). What stands in their place: the Boolean a comparison
returns in RESULT (R23), and the STATUS word with its fault flag and fault code (R33, R46; 60_exceptions.md rule R300). -/

namespace Sys2Proof.Machine

/-- The word of a Boolean: `1` for true, `0` for false (R23). -/
def boolWord (b : Bool) : Word := if b then 1 else 0

/-- The end of a command that returns a Boolean (R23). -/
def returnBool (b : Bool) (s : State) : Result := returnWord (boolWord b) s

/-- The code of a fault cause (R300). -/
def Fault.code : Fault → Byte
  | .badMemoryAccess => 0x01
  | .illegalCommand => 0x02
  | .badOperand => 0x03

/-- STATUS reads as `0x0000 ++ FCODE[7:0] ++ 0b0000000 ++ FAULT` (R46): FAULT is 1 iff a fault is recorded, and FCODE is its
code, else 0 (R33). -/
def statusWord (s : State) : Word :=
  match s.fault with
  | none => 0
  | some f => (0 : BitVec 16) ++ (f.code ++ (0 : BitVec 7) ++ (1 : BitVec 1))

/-- A host write of STATUS (R33): bit 0 set clears FAULT, FCODE and FADDR, bit 0 clear changes nothing. -/
def writeStatus (w : Word) (s : State) : State := if w.getLsbD 0 then s.clearFault else s

end Sys2Proof.Machine
end

