-- ==== Sys2Proof/Machine/Audio.lean ====
section
/-! DEFINITION. The waveform catalog and the audio channel records (46_audio.md). -/

namespace Sys2Proof.Machine

/-- An OPEN waveform: a fix32 amplitude `a` with `-65536 <= s32(a) <= 65536` (R290). -/
def openWave (w : Config.OpenWave) (p : BitVec 16) : Word := wrap32 ((Config.openWaveLevel w p).val - 65536)

/-- The waveform catalog (R290): the function of each id of `0..7` on a 16-bit phase. -/
def wave (id : Fin 8) (p : BitVec 16) : Word :=
  match id with
  | 0 => openWave .triangle p
  | 1 => openWave .tiltedSaw p
  | 2 => wrap32 (2 * (p.toNat : Int) - 65536)
  | 3 => if (decide (p.toNat < 0x8000)) == Config.squareHighFirst then fixOf 1 else fixOf (-1)
  | 4 => openWave .pulse p
  | 5 => openWave .organ p
  | 6 => openWave .noise p
  | 7 => openWave .phaser p

/-- WAVE (R291): the phase is the fraction of the operand. -/
def execWave (s : State) : Result :=
  if h : 0 ≤ argInt 0 s ∧ argInt 0 s ≤ 7 then
    returnWord (wave ⟨(argInt 0 s).toNat, by omega⟩ ((readArg 1 s).extractLsb' 0 16)) s
  else raiseFault .badOperand 0 s

/-- The record CHSET writes (R292): the row is taken mod 0x10000. -/
def channelOf (sfx row : Int) : Channel := { sfx := BitVec.ofInt 16 sfx, row := BitVec.ofInt 16 row }

/-- CHSET (R292). -/
def execChset (s : State) : Result :=
  if h : 0 ≤ argInt 0 s ∧ argInt 0 s ≤ 3 then
    .next { s with channels := s.channels.set (argInt 0 s).toNat (channelOf (argInt 1 s) (argInt 2 s)) (by omega) }
  else raiseFault .badOperand 0 s

end Sys2Proof.Machine
end

