-- ==== Sys2Proof/Machine/DrawState.lean ====
section
/-! DEFINITION. The rendering-state commands (42_draw_state.md). None touches memory or RESULT, and none raises a fault. -/

namespace Sys2Proof.Machine

/-- CAMERA (R180). -/
def execCamera (s : State) : Result :=
  .next { s with cameraX := BitVec.ofInt 16 (argInt 0 s), cameraY := BitVec.ofInt 16 (argInt 1 s) }

/-- The clip rectangle of CLIP (R181): each operand truncated, the width and height added, then clamped to `[0, 128]`. -/
def clipOf (x y w h : Int) : Clip :=
  { aaX := (clamp x 0 128).toNat, aaY := (clamp y 0 128).toNat
    bbX := (clamp (x + w) 0 128).toNat, bbY := (clamp (y + h) 0 128).toNat }

/-- CLIP (R181). -/
def execClip (s : State) : Result := .next { s with clip := clipOf (argInt 0 s) (argInt 1 s) (argInt 2 s) (argInt 3 s) }

/-- CLIPRST (R182). -/
def execCliprst (s : State) : Result := .next { s with clip := fullClip }

/-- An entry of a palette (R29). -/
def lookup (p : Vector Nibble 16) (c : Nibble) : Nibble := p[c.toNat]'c.isLt

/-- A palette with entry `c` set (R183). -/
def setEntry (p : Vector Nibble 16) (c v : Nibble) : Vector Nibble 16 := p.set c.toNat v c.isLt

/-- PAL (R183): `Int(p) = 1` selects the screen palette, any other value the draw palette. -/
def execPal (s : State) : Result :=
  let i := colOf (readArg 0 s)
  let v := colOf (readArg 1 s)
  if argInt 2 s = 1 then .next { s with spal := setEntry s.spal i v } else .next { s with dpal := setEntry s.dpal i v }

/-- Whether a color index is transparent (R31). -/
def isTransparent (s : State) (c : Nibble) : Bool := s.transp[c.toNat]'c.isLt

/-- PALT (R184). -/
def execPalt (s : State) : Result :=
  let c := colOf (readArg 0 s)
  .next { s with transp := s.transp.set c.toNat (boolOf (readArg 1 s)) c.isLt }

/-- PALRST (R185): both palettes, the transparency mask and the fill pattern. -/
def execPalrst (s : State) : Result :=
  .next { s with dpal := identityPalette, spal := identityPalette, transp := defaultTransp, fillp := 0 }

/-- COLOR (R186). -/
def execColor (s : State) : Result := .next { s with pen := readArg 0 s }

/-- FILLP (R187). -/
def execFillp (s : State) : Result := .next { s with fillp := readArg 0 s }

/-- CURSOR (R188). -/
def execCursor (s : State) : Result := .next { s with cursorX := readArg 0 s, cursorY := readArg 1 s }

end Sys2Proof.Machine
end

