-- ==== Sys2Proof/Machine/FixedPoint.lean ====
section
/-! DEFINITION. The fixed-point 16.16 scalar ALU (40_fixed_point.md). Every command reads only its ARG registers, writes only
RESULT, and raises nothing (R122). -/

namespace Sys2Proof.Machine

/-! ### The functions -/

/-- R126: the exact product shifted right arithmetically by 16 and truncated to 32 bits. -/
def fmul (a b : Word) : Word := wrap32 (s32 a * s32 b / 65536)

/-- R127: a zero divisor and an overflowing quotient saturate; other quotients truncate toward zero. -/
def fdiv (a b : Word) : Word :=
  if s32 b = 0 then (if 0 ≤ s32 a then 0x7fffffff else 0x80000000)
  else
    let q := (s32 a * 65536).tdiv (s32 b)
    if 2 ^ 31 - 1 < q then 0x7fffffff else if q < -2 ^ 31 then 0x80000000 else wrap32 q

/-- R132: the lesser under signed order. -/
def fmin (a b : Word) : Word := if s32 a ≤ s32 b then a else b

/-- R133: the greater under signed order. -/
def fmax (a b : Word) : Word := if s32 b ≤ s32 a then a else b

/-- R134: the median of three under signed order. -/
def fmid (a b c : Word) : Word := fmax (fmin a b) (fmin (fmax a b) c)

/-- A left shift by a count that is not negative (R143). -/
def shlCount (a : Word) (k : Nat) : Word := if 32 ≤ k then 0 else BitVec.ofNat 32 (u32 a * 2 ^ k)

/-- An arithmetic right shift by a count that is not negative (R144). -/
def sarCount (a : Word) (k : Nat) : Word :=
  if 32 ≤ k then (if s32 a < 0 then 0xffffffff else 0) else wrap32 (s32 a / 2 ^ k)

/-- `shl(a, k)` (R143): a negative count shifts right arithmetically. -/
def shl (a : Word) (k : Int) : Word := if k < 0 then sarCount a (-k).toNat else shlCount a k.toNat

/-- `sar(a, k)` (R144): a negative count shifts left. -/
def sar (a : Word) (k : Int) : Word := if k < 0 then shlCount a (-k).toNat else sarCount a k.toNat

/-- `lshr(a, k)` (R145): zero-filling; a negative count shifts left. -/
def lshr (a : Word) (k : Int) : Word :=
  if k < 0 then shl a (-k) else if 32 ≤ k then 0 else BitVec.ofNat 32 (u32 a / 2 ^ k.toNat)

/-- `rotl(a, k)` (R146): the count is taken mod 32. -/
def rotl (a : Word) (k : Int) : Word :=
  let r := (k % 32).toNat
  if r = 0 then a else BitVec.ofNat 32 (u32 a * 2 ^ r) ||| BitVec.ofNat 32 (u32 a / 2 ^ (32 - r))

/-! ### The commands -/

/-- FADD (R124). -/
def execFadd (s : State) : Result := returnWord (wrap32 (s32 (readArg 0 s) + s32 (readArg 1 s))) s

/-- FSUB (R125). -/
def execFsub (s : State) : Result := returnWord (wrap32 (s32 (readArg 0 s) - s32 (readArg 1 s))) s

/-- FMUL (R126). -/
def execFmul (s : State) : Result := returnWord (fmul (readArg 0 s) (readArg 1 s)) s

/-- FDIV (R127). -/
def execFdiv (s : State) : Result := returnWord (fdiv (readArg 0 s) (readArg 1 s)) s

/-- FNEG (R128). -/
def execFneg (s : State) : Result := returnWord (wrap32 (-s32 (readArg 0 s))) s

/-- FABS (R129). -/
def execFabs (s : State) : Result :=
  let a := readArg 0 s
  returnWord (if s32 a < 0 then wrap32 (-s32 a) else a) s

/-- FFLR (R130). -/
def execFflr (s : State) : Result := returnWord (readArg 0 s &&& 0xffff0000) s

/-- FCEIL (R131). -/
def execFceil (s : State) : Result := returnWord (wrap32 (u32 (readArg 0 s) + 0xffff) &&& 0xffff0000) s

/-- FMIN (R132). -/
def execFmin (s : State) : Result := returnWord (fmin (readArg 0 s) (readArg 1 s)) s

/-- FMAX (R133). -/
def execFmax (s : State) : Result := returnWord (fmax (readArg 0 s) (readArg 1 s)) s

/-- FMID (R134). -/
def execFmid (s : State) : Result := returnWord (fmid (readArg 0 s) (readArg 1 s) (readArg 2 s)) s

/-- FEQ (R135). -/
def execFeq (s : State) : Result := returnBool (readArg 0 s == readArg 1 s) s

/-- FLT (R136). -/
def execFlt (s : State) : Result := returnBool (s32 (readArg 0 s) < s32 (readArg 1 s)) s

/-- FLE (R137). -/
def execFle (s : State) : Result := returnBool (s32 (readArg 0 s) ≤ s32 (readArg 1 s)) s

/-- FTOI (R138). -/
def execFtoi (s : State) : Result := returnWord (wrap32 (argInt 0 s)) s

/-- BAND (R139). -/
def execBand (s : State) : Result := returnWord (readArg 0 s &&& readArg 1 s) s

/-- BOR (R140). -/
def execBor (s : State) : Result := returnWord (readArg 0 s ||| readArg 1 s) s

/-- BXOR (R141). -/
def execBxor (s : State) : Result := returnWord (readArg 0 s ^^^ readArg 1 s) s

/-- BNOT (R142). -/
def execBnot (s : State) : Result := returnWord (readArg 0 s ^^^ 0xffffffff) s

/-- SHL (R143). -/
def execShl (s : State) : Result := returnWord (shl (readArg 0 s) (argInt 1 s)) s

/-- SHR (R144). -/
def execShr (s : State) : Result := returnWord (sar (readArg 0 s) (argInt 1 s)) s

/-- LSHR (R145). -/
def execLshr (s : State) : Result := returnWord (lshr (readArg 0 s) (argInt 1 s)) s

/-- ROTL (R146). -/
def execRotl (s : State) : Result := returnWord (rotl (readArg 0 s) (argInt 1 s)) s

/-- ROTR (R147). -/
def execRotr (s : State) : Result := returnWord (rotl (readArg 0 s) (-argInt 1 s)) s

/-- FSGN (R148): `sgn(0) = 1.0`. -/
def execFsgn (s : State) : Result := returnWord (if s32 (readArg 0 s) < 0 then 0xffff0000 else 0x00010000) s

end Sys2Proof.Machine
end

