-- ==== Sys2Proof/Machine/MemoryCommands.lean ====
section
/-! DEFINITION. The memory commands (41_memory_commands.md). -/

namespace Sys2Proof.Machine

/-- PEEK (R161). -/
def execPeek (s : State) : Result := returnWord ((s.mem.readWrapped (addrOf (readArg 0 s))).setWidth 32) s

/-- PEEK4 (R162): each of the four addresses wraps past 0xffff. -/
def execPeek4 (s : State) : Result :=
  let a := addrOf (readArg 0 s)
  returnWord (wordOf (s.mem.readWrapped a) (s.mem.readWrapped (a + 1)) (s.mem.readWrapped (a + 2))
    (s.mem.readWrapped (a + 3))) s

/-- POKE (R163). -/
def execPoke (s : State) : Result := storeRun (addrOf (readArg 0 s)) 1 (fun _ => byteValue (readArg 1 s)) s

/-- POKE4 (R164): the word is stored little-endian. -/
def execPoke4 (s : State) : Result := storeRun (addrOf (readArg 0 s)) 4 (byteOf (readArg 1 s)) s

/-- MEMCPY (R165): the source is read as a whole, from the memory before any write. -/
def execMemcpy (s : State) : Result :=
  storeRun (addrOf (readArg 0 s)) (addrOf (readArg 2 s)) (fun k => s.mem.readWrapped (addrOf (readArg 1 s) + k)) s

/-- MEMSET (R166). -/
def execMemset (s : State) : Result :=
  storeRun (addrOf (readArg 0 s)) (addrOf (readArg 2 s)) (fun _ => byteValue (readArg 1 s)) s

/-- RELOAD (R167): as MEMCPY, from the ROM port. -/
def execReload (s : State) : Result :=
  storeRun (addrOf (readArg 0 s)) (addrOf (readArg 2 s)) (fun k => s.rom.readSource (addrOf (readArg 1 s) + k)) s

end Sys2Proof.Machine
end

