-- ==== Sys2Proof/Machine/Raster.lean ====
section
/-! DEFINITION. The pixel write path (43_primitives.md section 1) and the pixels each rasterizer visits, in the order it
visits them. Coordinates are mathematical integers (R11, decision D43). -/

namespace Sys2Proof.Machine

/-- A screen position after the camera. -/
abbrev Point := Int × Int

/-! ### The color-bits word and the pixel write -/

/-- `ColorBits(P)` (R200), from FILLP and DPAL. -/
def colorBits (s : State) (p : Word) : Word :=
  if p.getLsbD 24 then p &&& 0x00ffffff
  else
    (s.fillp &&& 0x0100ffff) ||| ((lookup s.dpal (p.extractLsb' 0 4)).setWidth 32 <<< 16) |||
      ((lookup s.dpal (p.extractLsb' 4 4)).setWidth 32 <<< 20)

/-- A pixel is inside the clip: closed at `aa`, open at `bb` (R26). -/
def Clip.contains (c : Clip) (x y : Int) : Bool := c.aaX ≤ x && x < c.bbX && c.aaY ≤ y && y < c.bbY

/-- The pattern bit of a screen position, `(X mod 4) + 4 * (Y mod 4)` (R201). -/
def patternIndex (x y : Int) : Nat := (x % 4 + 4 * (y % 4)).toNat

/-- The color a color-bits word gives a screen position, if it writes it (R201 steps 2 to 4): a set pattern bit selects the
secondary color, which `cb[24]` makes transparent. -/
def pixelColor (cb : Word) (x y : Int) : Option Nibble :=
  if cb.getLsbD (patternIndex x y) then (if cb.getLsbD 24 then none else some (cb.extractLsb' 20 4))
  else some (cb.extractLsb' 16 4)

/-- `PixelWrite(X, Y, cb)` (R201). -/
def pixelWrite (clip : Clip) (cb : Word) (x y : Int) (m : Memory) : Memory :=
  if clip.contains x y then
    match pixelColor cb x y with
    | some c => screenWrite x y c m
    | none => m
  else m

/-- A pixel write at every position of a list, in order. -/
def drawPoints (clip : Clip) (cb : Word) (ps : List Point) (m : Memory) : Memory :=
  ps.foldl (fun m p => pixelWrite clip cb p.1 p.2 m) m

/-- A draw with the pen operand rule (R202): the pen is taken, the color-bits word is composed once, and every pixel is
written with it. -/
def drawWith (c : Bool) (pen : Fin 8) (ps : List Point) (s : State) : Result :=
  let s1 := takePen c pen s
  .next (s1.setMem (drawPoints s1.clip (colorBits s1 s1.pen) ps s1.mem))

/-! ### Spans, lines and rectangles -/

/-- The integers `lo .. hi`, none if `hi < lo`. -/
def intRange (lo hi : Int) : List Int := (List.range (hi - lo + 1).toNat).map fun (k : Nat) => lo + k

/-- The pixels of `HSpan(X0, X1, Y, cb)` (R205). -/
def hspan (x0 x1 y : Int) : List Point := (intRange (min x0 x1) (max x0 x1)).map fun x => (x, y)

/-- The pixels of `VSpan(X, Y0, Y1, cb)` (R207). -/
def vspan (x y0 y1 : Int) : List Point := (intRange (min y0 y1) (max y0 y1)).map fun y => (x, y)

/-- `RoundHalfAway(p / q)` for `q > 0` (R209): the nearest integer, the one farther from zero when halfway. -/
def roundHalfAway (p q : Int) : Int := if 0 ≤ p then (2 * p + q) / (2 * q) else -((2 * -p + q) / (2 * q))

/-- Point `i` of a line (R209). The rational `Y0 + DY * i / n` is `(Y0 * n + DY * i) / n`. -/
def linePoint (x0 y0 x1 y1 : Int) (i : Nat) : Point :=
  let dx := x1 - x0
  let dy := y1 - y0
  if dy.natAbs ≤ dx.natAbs then
    let n : Int := dx.natAbs
    (x0 + dx.sign * i, if n = 0 then y0 else roundHalfAway (y0 * n + dy * i) n)
  else
    let n : Int := dy.natAbs
    (roundHalfAway (x0 * n + dx * i) n, y0 + dy.sign * i)

/-- The pixels of a line (R209): `n + 1` points, `n` the length of the major axis. -/
def linePoints (x0 y0 x1 y1 : Int) : List Point :=
  (List.range (max (x1 - x0).natAbs (y1 - y0).natAbs + 1)).map (linePoint x0 y0 x1 y1)

/-- The pixels of a rectangle's border (R210): two spans, then the sides shortened by one on each end. -/
def rectPoints (x0 y0 x1 y1 : Int) : List Point :=
  let lx := min x0 x1
  let hx := max x0 x1
  let ly := min y0 y1
  let hy := max y0 y1
  hspan lx hx ly ++ hspan lx hx hy ++ (intRange (ly + 1) (hy - 1)).flatMap fun y => [(lx, y), (hx, y)]

/-- The pixels of a filled rectangle (R211), a span a row. -/
def rectFillPoints (x0 y0 x1 y1 : Int) : List Point :=
  (intRange (min y0 y1) (max y0 y1)).flatMap fun y => hspan (min x0 x1) (max x0 x1) y

/-! ### Circles -/

/-- The circle steps from `(dx, dy, err)` on (R212), at most `fuel` of them. -/
def circleLoop (r : Int) : Nat → Int → Int → Int → List Point
  | 0, _, _, _ => []
  | fuel + 1, dx, dy, err =>
    if dy ≤ dx then
      let dy' := dy + 1
      let err' := err + 1 + 2 * dy'
      (dx, dy) ::
        if r + 1 < 2 * (err' - dx) then circleLoop r fuel (dx - 1) dy' (err' + 1 - 2 * (dx - 1))
        else circleLoop r fuel dx dy' err'
    else []

/-- The circle step sequence of radius `R` (R212). `dy` grows by one a step and `dx` never grows, so the loop makes at most
`R + 1` steps and the fuel is never what ends it. -/
def circleSteps (r : Int) : List Point := circleLoop r (r + 1).toNat r 0 0

/-- The eight points of a circle step about a centre (R213). -/
def octants (xc yc : Int) (p : Point) : List Point :=
  let dx := p.1
  let dy := p.2
  [(xc + dx, yc + dy), (xc - dx, yc + dy), (xc + dx, yc - dy), (xc - dx, yc - dy),
    (xc + dy, yc + dx), (xc - dy, yc + dx), (xc + dy, yc - dx), (xc - dy, yc - dx)]

/-- The pixels of a circle (R213). -/
def circPoints (xc yc r : Int) : List Point := (circleSteps r).flatMap (octants xc yc)

/-- The four spans of a circle step (R214). -/
def stepSpans (xc yc : Int) (p : Point) : List Point :=
  let dx := p.1
  let dy := p.2
  hspan (xc - dx) (xc + dx) (yc - dy) ++ hspan (xc - dx) (xc + dx) (yc + dy) ++
    vspan (xc - dy) (yc - dx) (yc + dx) ++ vspan (xc + dy) (yc - dx) (yc + dx)

/-- The pixels of a filled circle (R214). -/
def circFillPoints (xc yc r : Int) : List Point := (circleSteps r).flatMap (stepSpans xc yc)

end Sys2Proof.Machine
end

