-- ==== Sys2Proof/Machine/Primitives.lean ====
section
/-! DEFINITION. The pixel and rasterizer commands (43_primitives.md sections 2 to 6). Pixels outside the clip are dropped;
none of these commands raises a fault. -/

namespace Sys2Proof.Machine

/-- PSET (R203). -/
def execPset (c : Bool) (s : State) : Result := drawWith c 2 [(argX 0 s, argY 1 s)] s

/-- PGET (R204): 0 outside the clip; no palette. -/
def execPget (s : State) : Result :=
  let x := argX 0 s
  let y := argY 1 s
  returnWord (if s.clip.contains x y then (screenRead s.mem x y).setWidth 32 else 0) s

/-- HLINE (R206). -/
def execHline (c : Bool) (s : State) : Result := drawWith c 3 (hspan (argX 0 s) (argX 1 s) (argY 2 s)) s

/-- VLINE (R208). -/
def execVline (c : Bool) (s : State) : Result := drawWith c 3 (vspan (argX 0 s) (argY 1 s) (argY 2 s)) s

/-- LINE (R209). -/
def execLine (c : Bool) (s : State) : Result := drawWith c 4 (linePoints (argX 0 s) (argY 1 s) (argX 2 s) (argY 3 s)) s

/-- RECT (R210). -/
def execRect (c : Bool) (s : State) : Result := drawWith c 4 (rectPoints (argX 0 s) (argY 1 s) (argX 2 s) (argY 3 s)) s

/-- RECTFILL (R211). -/
def execRectfill (c : Bool) (s : State) : Result :=
  drawWith c 4 (rectFillPoints (argX 0 s) (argY 1 s) (argX 2 s) (argY 3 s)) s

/-- CIRC (R213): the radius is not camera-adjusted. -/
def execCirc (c : Bool) (s : State) : Result := drawWith c 3 (circPoints (argX 0 s) (argY 1 s) (argInt 2 s)) s

/-- CIRCFILL (R214). -/
def execCircfill (c : Bool) (s : State) : Result := drawWith c 3 (circFillPoints (argX 0 s) (argY 1 s) (argInt 2 s)) s

/-- CLS (R215): every SCREEN byte, whatever the clip, the camera, the palette and the pattern. -/
def execCls (s : State) : Result :=
  let k := colOf (readArg 0 s)
  .next (s.setMem (s.mem.fill 0x6000 0x2000 fun _ => k ++ k))

end Sys2Proof.Machine
end

