-- ==== Sys2Proof/Machine/Sprites.lean ====
section
/-! DEFINITION. The sprite and map blitters and the sheet, map and flag accessors (44_sprites_map.md). None of these commands
raises a fault. -/

namespace Sys2Proof.Machine

/-- `SprWrite(X, Y, c)` (R240): a transparent index is skipped; the draw palette applies, the fill pattern and PEN do not. -/
def sprWrite (s : State) (x y : Int) (c : Nibble) (m : Memory) : Memory :=
  if isTransparent s c then m else pixelWrite s.clip ((lookup s.dpal c).setWidth 32 <<< 16) x y m

/-- A sprite pixel copied from sheet position `(u, v)` to screen position `(x, y)`. -/
structure Copy where
  x : Int
  y : Int
  u : Int
  v : Int
  deriving DecidableEq, Repr

/-- The sprite pixel writes of a list of copies, in order, each reading the sheet as it stands. -/
def blit (s : State) (cs : List Copy) (m : Memory) : Memory :=
  cs.foldl (fun m c => sprWrite s c.x c.y (gfxRead m c.u c.v) m) m

/-- The copies of a `W x H` span at `(x0, y0)` whose pixel `(i, j)` is taken from sheet position `(su i, sv j)`. -/
def spanCopies (x0 y0 w h : Int) (su sv : Int → Int) : List Copy :=
  (intRange 0 (h - 1)).flatMap fun j => (intRange 0 (w - 1)).map fun i => ⟨x0 + i, y0 + j, su i, sv j⟩

/-- `flip ? (n - 1 - i) : i` (R241, R242). -/
def flipped (flip : Bool) (n i : Int) : Int := if flip then n - 1 - i else i

/-- The sheet column of sprite `n`, `(n mod 16) * 8` (R241). -/
def spriteX (n : Int) : Int := n % 16 * 8

/-- The sheet row of sprite `n`, `(n div 16) * 8` (R241). -/
def spriteY (n : Int) : Int := n / 16 * 8

/-- The width or height in pixels of a span operand in 8-pixel units, `Int(wrap32(8 * s32(v)))` (R241). -/
def spanPixels (v : Word) : Int := intOf (wrap32 (8 * s32 v))

/-- The copies of SPR (R241). -/
def sprCopies (fx fy : Bool) (s : State) : List Copy :=
  let n := argInt 0 s
  let w := spanPixels (readArg 3 s)
  let h := spanPixels (readArg 4 s)
  spanCopies (argX 1 s) (argY 2 s) w h (fun i => spriteX n + flipped fx w i) (fun j => spriteY n + flipped fy h j)

/-- SPR (R241). -/
def execSpr (fx fy : Bool) (s : State) : Result := .next (s.setMem (blit s (sprCopies fx fy s) s.mem))

/-- The copies of SSPR (R242): the flip comes before the scaling, and the division is a floor division by `DW` or `DH`. -/
def ssprCopies (fx fy : Bool) (s : State) : List Copy :=
  let dw := argInt 6 s
  let dh := argInt 7 s
  if dw ≤ 0 ∨ dh ≤ 0 then []
  else
    spanCopies (argX 4 s) (argY 5 s) dw dh (fun i => argInt 0 s + argInt 2 s * flipped fx dw i / dw)
      (fun j => argInt 1 s + argInt 3 s * flipped fy dh j / dh)

/-- SSPR (R242). -/
def execSspr (fx fy : Bool) (s : State) : Result := .next (s.setMem (blit s (ssprCopies fx fy s) s.mem))

/-- Whether MAP draws tile `t` under layer mask `l` (R243): with a mask, iff its flag byte shares a bit with it. -/
def tileDrawn (m : Memory) (l t : Byte) : Bool := l == 0 || (m.read (flagAddr t.toNat) &&& l) != 0

/-- One cell of MAP (R243): the tile at map cell `(cx, cy)` drawn at screen position `(x, y)`. -/
def drawTile (s : State) (l : Byte) (cx cy x y : Int) (m : Memory) : Memory :=
  let t := mapRead m cx cy
  if tileDrawn m l t then
    blit s (spanCopies x y 8 8 (fun u => spriteX t.toNat + u) (fun v => spriteY t.toNat + v)) m
  else m

/-- The cells of MAP, row by row (R243): the column and row offsets. -/
def mapCells (cw ch : Int) : List (Int × Int) :=
  (intRange 0 (ch - 1)).flatMap fun tj => (intRange 0 (cw - 1)).map fun ti => (ti, tj)

/-- MAP (R243). -/
def execMap (s : State) : Result :=
  let l := byteValue (readArg 6 s)
  .next (s.setMem ((mapCells (argInt 4 s) (argInt 5 s)).foldl
    (fun m t => drawTile s l (argInt 0 s + t.1) (argInt 1 s + t.2) (argX 2 s + 8 * t.1) (argY 3 s + 8 * t.2) m) s.mem))

/-- SGET (R244): no camera, clip or palette. -/
def execSget (s : State) : Result := returnWord ((gfxRead s.mem (argInt 0 s) (argInt 1 s)).setWidth 32) s

/-- SSET (R245). -/
def execSset (s : State) : Result :=
  .next (s.setMem (gfxWrite (argInt 0 s) (argInt 1 s) (colOf (readArg 2 s)) s.mem))

/-- MGET (R246). -/
def execMget (s : State) : Result := returnWord ((mapRead s.mem (argInt 0 s) (argInt 1 s)).setWidth 32) s

/-- MSET (R247). -/
def execMset (s : State) : Result :=
  .next (s.setMem (mapWrite (argInt 0 s) (argInt 1 s) (byteValue (readArg 2 s)) s.mem))

/-- FGET (R248). -/
def execFget (s : State) : Result :=
  let n := argInt 0 s
  returnWord (if isSprite n then (s.mem.read (flagAddr n.toNat)).setWidth 32 else 0) s

/-- FGETB (R249). -/
def execFgetb (s : State) : Result :=
  let n := argInt 0 s
  let f := argInt 1 s
  returnBool (isSprite n ∧ isFlagBit f ∧ (s.mem.read (flagAddr n.toNat)).getLsbD f.toNat) s

/-- FSET (R250). -/
def execFset (s : State) : Result :=
  let n := argInt 0 s
  .next (if isSprite n then s.setMem (s.mem.write (flagAddr n.toNat) (byteValue (readArg 1 s))) else s)

/-- A byte with bit `f` set or cleared (R251). -/
def setBit (b : Byte) (f : Nat) (v : Bool) : Byte := if v then b ||| ((1 : Byte) <<< f) else b &&& ~~~((1 : Byte) <<< f)

/-- FSETB (R251). -/
def execFsetb (s : State) : Result :=
  let n := argInt 0 s
  let f := argInt 1 s
  .next (if isSprite n ∧ isFlagBit f then
      s.setMem (s.mem.write (flagAddr n.toNat)
        (setBit (s.mem.read (flagAddr n.toNat)) f.toNat (boolOf (readArg 2 s))))
    else s)

end Sys2Proof.Machine
end

