-- ==== Sys2Proof/Machine/Text.lean ====
section
/-! DEFINITION. The glyph bitmap renderer (45_text.md). The glyph bitmaps and two advances are OPEN parameters; the layout is
written over them, so that it can be read and tested for any font. -/

namespace Sys2Proof.Machine

/-- The advance `Adv(b)` in pixels (R271), from the two OPEN advances. The newline byte is never asked for (R273). -/
def advance (advCtrl adv9A : Nat) (b : Byte) : Nat :=
  if b.toNat < 0x20 then advCtrl else if b.toNat < 0x9a then 4 else if b.toNat < 0xa0 then adv9A else 8

/-- `Adv(b)` of the block: `ADV_CTRL` is one of 0, 4, 8 and `ADV_9A` one of 4, 8 (R8, R271). -/
def adv (b : Byte) : Nat := advance (4 * Config.advCtrlUnits.val) (4 + 4 * Config.adv9AExtraUnits.val) b

/-- One `GlyphDraw(b, px, py)` (R272). -/
structure Glyph where
  b : Byte
  px : Int
  py : Int
  deriving DecidableEq, Repr

/-- The glyphs the layout draws from pen position `(px, py)` on, in order (R273). `x0` is the column a newline returns to;
a comma is drawn one pixel to the left and advances as any byte. -/
def layout (advOf : Byte → Nat) (x0 : Int) : Int → Int → List Byte → List Glyph
  | _, _, [] => []
  | px, py, b :: bs =>
    if b = 0x0a then layout advOf x0 x0 (py + 6) bs
    else if b = 0x2c then ⟨b, px - 1, py⟩ :: layout advOf x0 (px + advOf b) py bs
    else ⟨b, px, py⟩ :: layout advOf x0 (px + advOf b) py bs

/-- The number of lines `TextLayout` returns: one more than the newlines (R273). -/
def lineCount (bs : List Byte) : Nat := 1 + bs.count 0x0a

/-- The pixels of a glyph (R272): its position plus every offset in its bitmap. -/
def glyphPoints (font : Byte → Fin 8 → Fin 6 → Bool) (g : Glyph) : List Point :=
  (List.finRange 6).flatMap fun gy =>
    ((List.finRange 8).filter fun gx => font g.b gx gy).map fun gx => (g.px + gx.val, g.py + gy.val)

/-- The pixels of `TextLayout(s, X, Y, cb)` (R273). -/
def textPoints (font : Byte → Fin 8 → Fin 6 → Bool) (advOf : Byte → Nat) (bs : List Byte) (x y : Int) : List Point :=
  (layout advOf x x y bs).flatMap (glyphPoints font)

/-- The string `TBUF[0 .. L-1]` (R270). -/
def textBytes (n : Nat) (s : State) : List Byte := s.tbuf.toList.take n

/-- `L` is in `0..TBUF_SIZE` (R270). -/
abbrev isTextLength (l : Int) : Prop := 0 ≤ l ∧ l ≤ Config.tbufSize

/-- PRINT (R275): the cursor is neither read nor written. -/
def execPrint (c : Bool) (s : State) : Result :=
  if isTextLength (argInt 0 s) then
    drawWith c 3 (textPoints Config.font adv (textBytes (argInt 0 s).toNat s) (argX 1 s) (argY 2 s)) s
  else raiseFault .badOperand 0 s

/-- `Scroll6()` (R277): the SCREEN moves up by 0x180 bytes and its last 0x180 bytes become 0. -/
def scroll6 (m : Memory) : Memory :=
  m.fill 0x6000 0x2000 fun k => if k < 0x1e80 then m.read (0x6000 + k + 0x180) else 0

/-- The scroll of PRINTC (R276): when `CURSOR_Y > 116.0`, the screen and the cursor move up six rows. -/
def scrollIfLow (s : State) : State :=
  if s32 (fixOf 116) < s32 s.cursorY then
    { s with mem := scroll6 s.mem, cursorY := wrap32 (s32 s.cursorY - s32 (fixOf 6)) }
  else s

/-- PRINTC (R276). The color-bits word is composed before the scroll, which changes neither the pen, FILLP nor DPAL. -/
def execPrintc (c : Bool) (s : State) : Result :=
  if isTextLength (argInt 0 s) then
    let s1 := takePen c 1 s
    let cb := colorBits s1 s1.pen
    let s2 := scrollIfLow s1
    let bs := textBytes (argInt 0 s).toNat s
    let ps := textPoints Config.font adv bs (camX s2 s2.cursorX) (camY s2 s2.cursorY)
    .next { s2 with
      mem := drawPoints s2.clip cb ps s2.mem
      cursorY := wrap32 (s32 s2.cursorY + lineCount bs * s32 (fixOf 6)) }
  else raiseFault .badOperand 0 s

end Sys2Proof.Machine
end

