-- ==== Sys2Proof/Machine/Dispatch.lean ====
section
/-! DEFINITION. The meaning of every command, one arm each (30_encoding.md rule R95). -/

namespace Sys2Proof.Machine

def exec (i : Instr) (s : State) : Host.Outcome State Fault Refusal :=
  match i with
  | .fadd => Sys2Proof.Machine.execFadd s
  | .fsub => Sys2Proof.Machine.execFsub s
  | .fmul => Sys2Proof.Machine.execFmul s
  | .fdiv => Sys2Proof.Machine.execFdiv s
  | .fneg => Sys2Proof.Machine.execFneg s
  | .fabs => Sys2Proof.Machine.execFabs s
  | .fflr => Sys2Proof.Machine.execFflr s
  | .fceil => Sys2Proof.Machine.execFceil s
  | .fmin => Sys2Proof.Machine.execFmin s
  | .fmax => Sys2Proof.Machine.execFmax s
  | .fmid => Sys2Proof.Machine.execFmid s
  | .feq => Sys2Proof.Machine.execFeq s
  | .flt => Sys2Proof.Machine.execFlt s
  | .fle => Sys2Proof.Machine.execFle s
  | .ftoi => Sys2Proof.Machine.execFtoi s
  | .band => Sys2Proof.Machine.execBand s
  | .bor => Sys2Proof.Machine.execBor s
  | .bxor => Sys2Proof.Machine.execBxor s
  | .bnot => Sys2Proof.Machine.execBnot s
  | .shl => Sys2Proof.Machine.execShl s
  | .shr => Sys2Proof.Machine.execShr s
  | .lshr => Sys2Proof.Machine.execLshr s
  | .rotl => Sys2Proof.Machine.execRotl s
  | .rotr => Sys2Proof.Machine.execRotr s
  | .fsgn => Sys2Proof.Machine.execFsgn s
  | .peek => Sys2Proof.Machine.execPeek s
  | .peek4 => Sys2Proof.Machine.execPeek4 s
  | .poke => Sys2Proof.Machine.execPoke s
  | .poke4 => Sys2Proof.Machine.execPoke4 s
  | .memcpy => Sys2Proof.Machine.execMemcpy s
  | .memset => Sys2Proof.Machine.execMemset s
  | .reload => Sys2Proof.Machine.execReload s
  | .camera => Sys2Proof.Machine.execCamera s
  | .clip => Sys2Proof.Machine.execClip s
  | .cliprst => Sys2Proof.Machine.execCliprst s
  | .pal => Sys2Proof.Machine.execPal s
  | .palt => Sys2Proof.Machine.execPalt s
  | .palrst => Sys2Proof.Machine.execPalrst s
  | .color => Sys2Proof.Machine.execColor s
  | .fillp => Sys2Proof.Machine.execFillp s
  | .cursor => Sys2Proof.Machine.execCursor s
  | .pset c => Sys2Proof.Machine.execPset c s
  | .pget => Sys2Proof.Machine.execPget s
  | .hline c => Sys2Proof.Machine.execHline c s
  | .vline c => Sys2Proof.Machine.execVline c s
  | .line c => Sys2Proof.Machine.execLine c s
  | .rect c => Sys2Proof.Machine.execRect c s
  | .rectfill c => Sys2Proof.Machine.execRectfill c s
  | .circ c => Sys2Proof.Machine.execCirc c s
  | .circfill c => Sys2Proof.Machine.execCircfill c s
  | .cls => Sys2Proof.Machine.execCls s
  | .spr fx fy => Sys2Proof.Machine.execSpr fx fy s
  | .sspr fx fy => Sys2Proof.Machine.execSspr fx fy s
  | .map => Sys2Proof.Machine.execMap s
  | .sget => Sys2Proof.Machine.execSget s
  | .sset => Sys2Proof.Machine.execSset s
  | .mget => Sys2Proof.Machine.execMget s
  | .mset => Sys2Proof.Machine.execMset s
  | .fget => Sys2Proof.Machine.execFget s
  | .fgetb => Sys2Proof.Machine.execFgetb s
  | .fset => Sys2Proof.Machine.execFset s
  | .fsetb => Sys2Proof.Machine.execFsetb s
  | .print c => Sys2Proof.Machine.execPrint c s
  | .printc c => Sys2Proof.Machine.execPrintc c s
  | .wave => Sys2Proof.Machine.execWave s
  | .chset => Sys2Proof.Machine.execChset s

end Sys2Proof.Machine
end

