-- ==== Sys2Proof/Machine/HostPort.lean ====
section
/-! DEFINITION. The host's side of the block: the register map (10_state.md rules R39 to R47), command issue (30_encoding.md
rule R90, 60_exceptions.md rule R303), the display port (R71), the ROM port (R37) and reset (R330). -/

namespace Sys2Proof.Machine

/-- The registers of the register map (R39). -/
inductive Register where
  | arg (i : Fin 8)
  | cmd
  | result
  | status
  | faddr
  | pen
  | fillp
  | clip
  | camera
  | cursorX
  | cursorY
  | transp
  | dpalLo
  | dpalHi
  | spalLo
  | spalHi
  | channel (k : Fin 4)
  | tbuf (j : Fin 64)
  deriving DecidableEq, Repr

/-- The register at a byte offset that is a multiple of 4, if R39 lists it. -/
def registerAt (offset : Nat) : Option Register :=
  if h : offset / 4 < 8 then some (.arg ⟨offset / 4, h⟩)
  else if h : 0x80 ≤ offset ∧ offset < 0x90 then some (.channel ⟨(offset - 0x80) / 4, by omega⟩)
  else if h : 0x100 ≤ offset ∧ offset < 0x200 then some (.tbuf ⟨(offset - 0x100) / 4, by omega⟩)
  else match offset with
    | 0x020 => some .cmd
    | 0x024 => some .result
    | 0x028 => some .status
    | 0x02c => some .faddr
    | 0x040 => some .pen
    | 0x044 => some .fillp
    | 0x048 => some .clip
    | 0x04c => some .camera
    | 0x050 => some .cursorX
    | 0x054 => some .cursorY
    | 0x058 => some .transp
    | 0x060 => some .dpalLo
    | 0x064 => some .dpalHi
    | 0x068 => some .spalLo
    | 0x06c => some .spalHi
    | _ => none

/-- Eight palette entries in a word, entry `lo + k` in bits `[4k+3:4k]` (R43). -/
def packPalette (p : Vector Nibble 16) (lo : Nat) : Word :=
  (List.range 8).foldl (fun w k => w ||| ((p[lo + k]?.getD 0).setWidth 32 <<< (4 * k))) 0

/-- TRANSP as a word: flag `c` in bit `c` (R44). -/
def packTransp (t : Vector Bool 16) : Word :=
  (List.range 16).foldl (fun w k => if t[k]?.getD false then w ||| ((1 : Word) <<< k) else w) 0

/-- CLIP as a word (R41). -/
def packClip (c : Clip) : Word :=
  BitVec.ofNat 8 c.bbY ++ (BitVec.ofNat 8 c.bbX ++ (BitVec.ofNat 8 c.aaY ++ BitVec.ofNat 8 c.aaX))

/-- A channel record as a word (R45). -/
def packChannel (c : Channel) : Word := c.row ++ c.sfx

/-- TBUF word `j` (R47): bytes `4j .. 4j+3`, little-endian. -/
def tbufWord (t : Vector Byte 256) (j : Fin 64) : Word :=
  wordOf (t[4 * j.val]'(by omega)) (t[4 * j.val + 1]'(by omega)) (t[4 * j.val + 2]'(by omega))
    (t[4 * j.val + 3]'(by omega))

/-- A TBUF write sets all four bytes of word `j`, and marks them written (R47). -/
def writeTbuf (j : Fin 64) (w : Word) (s : State) : State :=
  { s with
    tbuf := (((s.tbuf.set (4 * j.val) (byteOf w 0) (by omega)).set (4 * j.val + 1) (byteOf w 1) (by omega)).set
      (4 * j.val + 2) (byteOf w 2) (by omega)).set (4 * j.val + 3) (byteOf w 3) (by omega)
    tbufWritten := (((s.tbufWritten.set (4 * j.val) true (by omega)).set (4 * j.val + 1) true (by omega)).set
      (4 * j.val + 2) true (by omega)).set (4 * j.val + 3) true (by omega) }

/-- An ARG write, which marks the register written (R22). -/
def writeArg (i : Fin 8) (w : Word) (s : State) : State :=
  { s with args := s.args.set i.val w, argWritten := s.argWritten.set i.val true }

/-- The word a register reads as (R39, R41 to R47). CMD is not read (R40). -/
def Register.word (r : Register) (s : State) : Word :=
  match r with
  | .arg i => readArg i s
  | .cmd => 0
  | .result => s.result
  | .status => statusWord s
  | .faddr => s.faddr
  | .pen => s.pen
  | .fillp => s.fillp
  | .clip => packClip s.clip
  | .camera => s.cameraY ++ s.cameraX
  | .cursorX => s.cursorX
  | .cursorY => s.cursorY
  | .transp => packTransp s.transp
  | .dpalLo => packPalette s.dpal 0
  | .dpalHi => packPalette s.dpal 8
  | .spalLo => packPalette s.spal 0
  | .spalHi => packPalette s.spal 8
  | .channel k => packChannel s.channels[k]
  | .tbuf j => tbufWord s.tbuf j

/-- The answer to a read is recorded (log 3); nothing else changes (R40: a read has no side effect). -/
def State.reply (r : Reply) (s : State) : State := { s with replies := s.replies ++ [r] }

/-- The register a host access reaches, or why the access is refused (R40). -/
def addressed (width offset : Nat) : Except Refusal Register :=
  if width ≠ 32 then .error .wrongWidth
  else if offset % 4 ≠ 0 then .error .misaligned
  else match registerAt offset with
    | some r => .ok r
    | none => .error .unlistedOffset

/-- A host read of a register (R39, R40). A register nothing has written since reset reads as the value State holds
(log 1). -/
def hostRead (width offset : Nat) (s : State) : Result :=
  match addressed width offset with
  | .error e => .refused e
  | .ok .cmd => .refused .writeOnlyRegister
  | .ok r => .next (s.reply (.word (r.word s)))

/-- A host write of a command word to CMD (R90). While a fault is recorded it is dropped, undecoded (R303); an illegal word
raises ILLEGAL_COMMAND with no other effect (R94); a legal one is performed, on the operands State holds (log 1). -/
def issue (w : Word) (s : State) : Result :=
  if s.fault.isSome then .next s
  else match decode w with
    | .error _ => raiseFault .illegalCommand 0 s
    | .ok i => exec i s

/-- A host write of a register (R39, R40). -/
def hostWrite (width offset : Nat) (w : Word) (s : State) : Result :=
  match addressed width offset with
  | .error e => .refused e
  | .ok (.arg i) => .next (writeArg i w s)
  | .ok .cmd => issue w s
  | .ok .status => .next (writeStatus w s)
  | .ok (.tbuf j) => .next (writeTbuf j w s)
  | .ok _ => .refused .readOnlyRegister

/-- The replacement of the ROM image (R37, R345). -/
def loadRom (image : Memory) (s : State) : Result :=
  if image.wf then .next { s with rom := .replaced image } else .refused .malformedRomImage

/-- Reset (R330): every piece of the block's state takes its reset value (R50). The ROM port, the accesses still to come and
the answers given are not the block's state and stay. -/
def State.afterReset (s : State) : State := { State.reset with rom := s.rom, inbox := s.inbox, replies := s.replies }

/-- A display-port read of a SCREEN byte (R71). -/
def displayByte (a : Nat) (s : State) : Result :=
  if 0x6000 ≤ a ∧ a < 0x8000 then .next (s.reply (.screenByte (s.mem.read a))) else .refused .outsideScreen

/-- One access from outside, served completely (R17, R76, R340). -/
def serve (a : HostAccess) (s : State) : Result :=
  match a with
  | .write width offset w => hostWrite width offset w s
  | .read width offset => hostRead width offset s
  | .overlapping => .refused .overlappingAccesses
  | .loadRom image => loadRom image s
  | .reset => .next s.afterReset
  | .displayByte addr => displayByte addr s
  | .displayPalette i => .next (s.reply (.paletteEntry s.spal[i]))

/-- The block serves the oldest access that waits; with none it is idle and keeps all its state (R316, R331). -/
def serveNext (s : State) : Result :=
  match s.inbox with
  | [] => .next s
  | a :: rest => serve a { s with inbox := rest }

/-- The host's write of a command word is the next access the block serves (R90). -/
def presentCommand (w : Word) (s : State) : State := { s with inbox := .write 32 0x020 w :: s.inbox }

end Sys2Proof.Machine
end

