-- ==== Sys2Proof/Machine/Step.lean ====
section
/-! DEFINITION. One step of the machine: the block serves one access from outside (R17, R340). The block has no program
counter (R21): what comes next is what the host issues next, so an instruction is fetched from the host's writes of CMD. -/

namespace Sys2Proof.Machine

/-- One step. -/
def step (s : State) : Host.Outcome State Fault Refusal := serveNext s

/-- The state in which the host's next access writes the command word to CMD, so that the next step performs it (log 3).
The word is 32 bits (R97); the bits above `nbits` are 0. -/
def State.withFetchWord (s : State) (nbits w : Nat) : State := presentCommand (BitVec.ofNat 32 (w % 2 ^ nbits)) s

end Sys2Proof.Machine
end

