-- ==== Sys2Proof/Machine/Assembler.lean ====
section
/-! DEFINITION. The spec's assembly language as host accesses (30_encoding.md rules R98 to R101): an operand literal is a word,
a line is the register writes it expands to. -/

namespace Sys2Proof.Machine

/-- An operand literal (R99). -/
inductive Literal where
  /-- A decimal number, `num / 10 ^ places`. -/
  | decimal (num : Int) (places : Nat)
  /-- `0xhhhh.hhhh`: the word itself. -/
  | hexPoint (w : Word)
  /-- `0xhhhh` without a point: the fix32 word of the number. -/
  | hexInt (n : Nat)
  /-- `w:…`: a raw word. -/
  | raw (w : Word)
  deriving DecidableEq, Repr

/-- `p / q` rounded to the nearest integer; a tie is free (R99 gives none; log 13). -/
def roundNearest (p : Int) (q : Nat) : Int :=
  let n := p / q
  let r := p % q
  if 2 * r < q then n else if (q : Int) < 2 * r then n + 1 else if Config.literalTieUp n then n + 1 else n

/-- The word a literal denotes (R99). -/
def Literal.word (l : Literal) : Word :=
  match l with
  | .decimal num places => wrap32 (roundNearest (num * 65536) (10 ^ places))
  | .hexPoint w => w
  | .hexInt n => fixOf n
  | .raw w => w

/-- A host write of a 32-bit word at a register offset (R98, `WR`). -/
def writeTo (offset : Nat) (w : Word) : HostAccess := .write 32 offset w

/-- The writes of the operands of a line to ARG0 on, in order; an operand left out with `_` writes nothing (R100). -/
def operandWrites : Nat → List (Option Word) → List HostAccess
  | _, [] => []
  | k, none :: ops => operandWrites (k + 1) ops
  | k, some w :: ops => writeTo (4 * k) w :: operandWrites (k + 1) ops

/-- The expansion of a line `M.flags op0, ..., opk` (R100). -/
def commandLine (i : Instr) (ops : List (Option Word)) : List HostAccess :=
  operandWrites 0 ops ++ [writeTo 0x020 (encode i)]

/-- The TBUF words of a string from word `j` on, the last padded with zero bytes (R101, `TEXT`). -/
def textWrites : Nat → List Byte → List HostAccess
  | _, [] => []
  | j, [a] => [writeTo (0x100 + 4 * j) (wordOf a 0 0 0)]
  | j, [a, b] => [writeTo (0x100 + 4 * j) (wordOf a b 0 0)]
  | j, [a, b, c] => [writeTo (0x100 + 4 * j) (wordOf a b c 0)]
  | j, a :: b :: c :: d :: bs => writeTo (0x100 + 4 * j) (wordOf a b c d) :: textWrites (j + 1) bs

/-- The length of a string as an operand (R101, `len(s)`). -/
def lengthOperand (bs : List Byte) : Option Word := some (fixOf bs.length)

/-- `PRINTS.flags "s", x, y[, pen]` (R101). -/
def printsLine (bs : List Byte) (x y : Option Word) (pen : Option Word) : List HostAccess :=
  textWrites 0 bs ++ commandLine (.print pen.isSome) ([lengthOperand bs, x, y] ++ (pen.map some).toList)

/-- `PRINTSC.flags "s"[, pen]` (R101). -/
def printscLine (bs : List Byte) (pen : Option Word) : List HostAccess :=
  textWrites 0 bs ++ commandLine (.printc pen.isSome) ([lengthOperand bs] ++ (pen.map some).toList)

/-- `PALT.RESET` = `PALRST` (R101). -/
def paltResetLine : List HostAccess := commandLine .palrst []

/-- `CLIP.FULL` = `CLIPRST` (R101). -/
def clipFullLine : List HostAccess := commandLine .cliprst []

/-- `CLRFAULT` = `WR STATUS, 1` (R101). -/
def clearFaultLine : List HostAccess := [writeTo 0x028 1]

/-- `GET r` = `RD RESULT` (R101). -/
def getLine : List HostAccess := [.read 32 0x024]

/-- The cart load sequence (R334): the image is presented on the ROM port, then `RELOAD 0, 0, 0x8000`. -/
def cartLoad (image : Memory) : List HostAccess :=
  .loadRom image :: commandLine .reload [some (fixOf 0), some (fixOf 0), some (fixOf 0x8000)]

/-- A state whose next accesses are the given ones. -/
def State.withAccesses (as : List HostAccess) (s : State) : State := { s with inbox := as ++ s.inbox }

end Sys2Proof.Machine
end

