-- ==== Sys2Proof/Safety.lean ====
section
/-! DEFINITION. What counts as a safe state and a safe run, and the terms claims are stated in. Nothing here is used by the
machine. -/

namespace Sys2Proof.Machine

/-! ### Reads the spec refuses for want of a value -/

/-- Every ARG register and TBUF byte a command reads has been written since reset (R332). The spec gives a command no meaning
where this fails; the model runs it there on the values State holds (log 1), and claims taken from the spec assume this. -/
def operandsWritten (i : Instr) (s : State) : Bool :=
  (argsRead i).all (fun k => s.argWritten[k]) &&
    (List.range (tbufRead i s)).all fun k => s.tbufWritten[k]?.getD false

/-- Whether a register holds a value (R22, R23, R47): ARG, RESULT and TBUF hold none before they are written. -/
def Register.holdsValue (r : Register) (s : State) : Bool :=
  match r with
  | .arg i => s.argWritten[i]
  | .result => s.resultWritten
  | .tbuf j => s.tbufWritten[4 * j.val]'(by omega) && s.tbufWritten[4 * j.val + 1]'(by omega) &&
      s.tbufWritten[4 * j.val + 2]'(by omega) && s.tbufWritten[4 * j.val + 3]'(by omega)
  | .cmd => false
  | .status | .faddr | .pen | .fillp | .clip | .camera | .cursorX | .cursorY | .transp => true
  | .dpalLo | .dpalHi | .spalLo | .spalHi | .channel _ => true

/-- The access is one R332 has a model refuse: a host read of a register, or the issue of a command that reads a register or
text byte, that nothing has written since reset. The model serves it with the values State holds (log 1); a claim about a run
that should hold of every block assumes that no access of it is such a read. -/
def readsUnwritten (a : HostAccess) (s : State) : Bool :=
  match a with
  | .read width offset =>
    match addressed width offset with
    | .ok .cmd => false
    | .ok r => !r.holdsValue s
    | .error _ => false
  | .write width offset w =>
    match addressed width offset, decode w with
    | .ok .cmd, .ok i => s.fault.isNone && !operandsWritten i s
    | _, _ => false
  | .overlapping => false
  | .loadRom _ => false
  | .reset => false
  | .displayByte _ => false
  | .displayPalette _ => false

/-- The next step reads nothing that R332 has a model refuse. -/
def State.readsWritten (s : State) : Prop := ∀ a rest, s.inbox = a :: rest → readsUnwritten a s = false

/-- Two states that differ at most in the values of ARG registers, RESULT and TBUF bytes nothing has written since reset: one
may hold there what the other does not (log 1). -/
structure SameButUnwritten (s s' : State) : Prop where
  rest : s' = { s with args := s'.args, result := s'.result, tbuf := s'.tbuf }
  args : ∀ k : Fin 8, s.argWritten[k] = true → readArg k s' = readArg k s
  result : s.resultWritten = true → s'.result = s.result
  tbuf : ∀ k : Fin 256, s.tbufWritten[k] = true → s'.tbuf[k] = s.tbuf[k]

/-! ### States -/

/-- The clip bounds of R26: each of the four integers is in `0..128`. -/
abbrev Clip.bounded (c : Clip) : Prop := c.aaX ≤ 128 ∧ c.aaY ≤ 128 ∧ c.bbX ≤ 128 ∧ c.bbY ≤ 128

/-- The fault record is one R33, R34 and R300 allow: FADDR is an address of `0x8000..0xffff` after BAD_MEMORY_ACCESS and 0
otherwise. POKE4, MEMCPY, MEMSET and RELOAD may name a byte past a run's start, but never one past `0xffff`. -/
def State.faultCoherent (s : State) : Bool :=
  match s.fault with
  | some .badMemoryAccess => Config.memSize ≤ s.faddr.toNat && s.faddr.toNat < 0x10000
  | _ => s.faddr == 0

/-- The ROM port shows an image of the bytes `0..0x7fff` (R37). -/
def RomImage.wf (r : RomImage) : Prop :=
  match r with
  | .presented => True
  | .replaced image => image.wf

/-- The states the block can be in: memory in canonical form, the clip bounds, a coherent fault record, a ROM image. -/
structure State.Inv (s : State) : Prop where
  mem : s.mem.wf
  clip : s.clip.bounded
  fault : s.faultCoherent = true
  rom : s.rom.wf

/-! ### Accesses -/

/-- The offsets the register map lists (R39), among the multiples of 4. -/
def listedOffset (o : Nat) : Bool :=
  o < 0x030 || (0x040 ≤ o && o < 0x05c) || (0x060 ≤ o && o < 0x070) || (0x080 ≤ o && o < 0x090) ||
    (0x100 ≤ o && o < 0x200)

/-- The listed offsets the map does not mark R only (R39): ARG0 to ARG7, CMD, STATUS and TBUF. -/
def writableOffset (o : Nat) : Bool := o < 0x024 || o == 0x028 || (0x100 ≤ o && o < 0x200)

/-- The offset of a register (R39). -/
def Register.offset (r : Register) : Nat :=
  match r with
  | .arg i => 4 * i.val
  | .cmd => 0x020
  | .result => 0x024
  | .status => 0x028
  | .faddr => 0x02c
  | .pen => 0x040
  | .fillp => 0x044
  | .clip => 0x048
  | .camera => 0x04c
  | .cursorX => 0x050
  | .cursorY => 0x054
  | .transp => 0x058
  | .dpalLo => 0x060
  | .dpalHi => 0x064
  | .spalLo => 0x068
  | .spalHi => 0x06c
  | .channel k => 0x080 + 4 * k.val
  | .tbuf j => 0x100 + 4 * j.val

/-- The step in which the host writes a word at a register offset with a 32-bit access. -/
def stepWrite (offset : Nat) (w : Word) (s : State) : Result := step (s.withAccesses [.write 32 offset w])

/-- The step in which the host reads a register offset with a 32-bit access. -/
def stepRead (offset : Nat) (s : State) : Result := step (s.withAccesses [.read 32 offset])

/-- The host's read of a register offset returns `v` and changes nothing. -/
def ReadsAs (offset : Nat) (v : Word) (s : State) : Prop :=
  stepRead offset s = .next { s with replies := s.replies ++ [.word v] }

/-- The next access issues the command `i` and the block performs it: it is a write of `i`'s word to CMD and no fault is
recorded (R90, R303). -/
def Issued (i : Instr) (s : State) : Prop :=
  s.fault = none ∧ ∃ w rest, s.inbox = .write 32 0x020 w :: rest ∧ decode w = .ok i

/-- The next access is the host's reset. -/
def ResetNext (s : State) : Prop := ∃ rest, s.inbox = .reset :: rest

/-! ### Kinds of command -/

/-- The command is one of the fixed-point ALU (40_fixed_point.md): opcodes 0x01 to 0x19. -/
def isAlu (i : Instr) : Bool := i.opcode.toNat < 0x20

/-- The command returns a value in RESULT (R95, column `res`). -/
def returnsValue (i : Instr) : Bool :=
  isAlu i || i == .peek || i == .peek4 || i == .pget || i == .sget || i == .mget || i == .fget || i == .fgetb || i == .wave

/-- The command draws: it writes pixels of SCREEN and no other byte of memory (43_primitives.md, 44_sprites_map.md rules R241
to R243, 45_text.md). -/
def isDraw (i : Instr) : Bool :=
  match i with
  | .pset _ | .hline _ | .vline _ | .line _ | .rect _ | .rectfill _ | .circ _ | .circfill _ => true
  | .cls | .spr _ _ | .sspr _ _ | .map | .print _ | .printc _ => true
  | _ => false

/-- The commands that store to memory other than by drawing. -/
def isStore (i : Instr) : Bool :=
  i == .poke || i == .poke4 || i == .memcpy || i == .memset || i == .reload || i == .sset || i == .mset || i == .fset ||
    i == .fsetb

/-- The destination run of a memory command, as its first address and its length (R163 to R167). Every other command has
none. -/
def destination (i : Instr) (s : State) : Nat × Nat :=
  match i with
  | .poke => (addrOf (readArg 0 s), 1)
  | .poke4 => (addrOf (readArg 0 s), 4)
  | .memcpy | .memset | .reload => (addrOf (readArg 0 s), addrOf (readArg 2 s))
  | _ => (0, 0)

/-- The operand ranges of R300: the id of WAVE, the channel of CHSET and the length of a print. -/
def operandInRange (i : Instr) (s : State) : Bool :=
  match i with
  | .wave => 0 ≤ argInt 0 s && argInt 0 s ≤ 7
  | .chset => 0 ≤ argInt 0 s && argInt 0 s ≤ 3
  | .print _ | .printc _ => 0 ≤ argInt 0 s && argInt 0 s ≤ 256
  | _ => true

/-! ### Numbers -/

/-- `w` is the word of the integer `n` modulo `2^32` (R11, `wrap32`). -/
def Wraps (w : Word) (n : Int) : Prop := (u32 w : Int) = n % 2 ^ 32

/-- `k` is `RoundHalfAway(q)` (R209): the integer nearest to `q`, and of two equally near the one farther from zero. -/
def RoundsHalfAway (q : ℚ) (k : Int) : Prop := |q - k| < 1 / 2 ∨ (|q - k| = 1 / 2 ∧ |q| < |(k : ℚ)|)

/-! ### Drawing -/

/-- What a pixel holds after `PixelWrite` there (R201), from what it held before. -/
def afterPixelWrite (clip : Clip) (cb : Word) (x y : Int) (old : Nibble) : Nibble :=
  if clip.contains x y then (pixelColor cb x y).getD old else old

/-- From memory `m` to memory `m'`, exactly the pixels of `P` have been written with the color-bits word `cb` under the clip;
every other pixel and every byte outside SCREEN is as before. -/
structure Drawn (clip : Clip) (cb : Word) (P : Int → Int → Prop) (m m' : Memory) : Prop where
  visited : ∀ x y, inSquare x y → P x y → screenRead m' x y = afterPixelWrite clip cb x y (screenRead m x y)
  others : ∀ x y, inSquare x y → ¬P x y → screenRead m' x y = screenRead m x y
  outside : ∀ a, ¬(0x6000 ≤ a ∧ a < 0x8000) → m'.read a = m.read a

/-- The command completes: it takes the pen from register `p` if its flag `C` is set, draws exactly the pixels of `P` with
the color-bits word of the pen, and changes nothing else (R202). -/
def DrawsWithPen (i : Instr) (p : Fin 8) (P : Int → Int → Prop) (s : State) : Prop :=
  ∃ t, exec i s = .next t ∧ t = { s with pen := t.pen, mem := t.mem } ∧
    t.pen = (if hasPen i then readArg p s else s.pen) ∧ Drawn s.clip (colorBits s t.pen) P s.mem t.mem

/-- The circle variables `(dx, dy, err)` after `k` turns of the loop of R212. -/
def circleIterate (r : Int) : Nat → Int × Int × Int
  | 0 => (r, 0, 0)
  | k + 1 =>
    let dx := (circleIterate r k).1
    let dy := (circleIterate r k).2.1 + 1
    let err := (circleIterate r k).2.2 + 1 + 2 * dy
    if r + 1 < 2 * (err - dx) then (dx - 1, dy, err + 1 - 2 * (dx - 1)) else (dx, dy, err)

/-- The loop of R212 for radius `r` emits `(dx, dy)`: the loop has run to turn `k` with its condition true throughout. -/
def CircleStep (r dx dy : Int) : Prop :=
  ∃ k, (∀ j ≤ k, (circleIterate r j).2.1 ≤ (circleIterate r j).1) ∧ dx = (circleIterate r k).1 ∧ dy = (circleIterate r k).2.1

/-- The pixels of a line (R209), with its rational kept exact. -/
def LinePixel (x0 y0 x1 y1 x y : Int) : Prop :=
  if |y1 - y0| ≤ |x1 - x0| then
    ∃ i : Nat, (i : Int) ≤ |x1 - x0| ∧ x = x0 + (x1 - x0).sign * i ∧
      (if x1 = x0 then y = y0 else RoundsHalfAway (y0 + (y1 - y0) * i / |(x1 - x0 : ℚ)|) y)
  else
    ∃ i : Nat, (i : Int) ≤ |y1 - y0| ∧ y = y0 + (y1 - y0).sign * i ∧
      RoundsHalfAway (x0 + (x1 - x0) * i / |(y1 - y0 : ℚ)|) x

/-- What a screen pixel holds after `SprWrite` of the source index `c` there (R240). -/
def afterSprWrite (s : State) (c : Nibble) (x y : Int) : Nibble :=
  if s.clip.contains x y ∧ isTransparent s c = false then lookup s.dpal c else screenRead s.mem x y

/-- The command completes: each screen pixel `(x, y)` that `P` gives a sheet position `(u, v)` is written with that sheet
pixel (R240), every other pixel and every byte outside SCREEN is as before, and nothing else changes. -/
def Blits (i : Instr) (P : Int → Int → Int → Int → Prop) (s : State) : Prop :=
  ∃ t, exec i s = .next t ∧ t = s.setMem t.mem ∧
    (∀ x y u v, inSquare x y → P x y u v → screenRead t.mem x y = afterSprWrite s (gfxRead s.mem u v) x y) ∧
    (∀ x y, inSquare x y → (∀ u v, ¬P x y u v) → screenRead t.mem x y = screenRead s.mem x y) ∧
    ∀ a, ¬(0x6000 ≤ a ∧ a < 0x8000) → t.mem.read a = s.mem.read a

/-- The pixels the text `bs` at screen position `(x0, y0)` writes (R272, R273), byte by byte: a byte that is no newline has
its glyph right of `x0` by the advances of the bytes since the last newline, one pixel left of that for a comma, and six
rows down for each newline before it. -/
def TextPixel (bs : List Byte) (x0 y0 x y : Int) : Prop :=
  ∃ (k : Nat) (b : Byte) (gx : Fin 8) (gy : Fin 6), bs[k]? = some b ∧ b ≠ 0x0a ∧ Config.font b gx gy = true ∧
    x = x0 + ((((bs.take k).reverse.takeWhile (· != 0x0a)).map adv).sum : Nat) - (if b = 0x2c then 1 else 0) + gx.val ∧
    y = y0 + 6 * ((bs.take k).count 0x0a : Nat) + gy.val

end Sys2Proof.Machine
end

