-- ==== Sys2Proof/Certificates/Slice0/Obligations.lean ====
section
/-! DEFINITION. The statements for the provers. Each docstring says which rules of the spec a statement formalises.

`operandsWritten i s` is the spec's condition on the operands of a command (R332: the ARG registers and the text bytes it
reads have been written since reset); no statement taken from the spec is made without it. What the model does where it fails
is its own choice (log 1), stated by WrittenMarksDoNotAct. -/

section Obligations

open Sys2Proof Sys2Proof.Machine

/-! ### Encoding -/

/-- R91, R92, R95, R96: a command word decodes to a command exactly when it is that command's own word, so no bit of a word
is dropped and no word has two meanings. -/
def Obligations.DecodeExactlyInvertsEncode : Prop :=
  ∀ (w : Word) (i : Instr), decode w = .ok i ↔ encode i = w

/-- R94: a word is legal iff its low byte is an opcode of R95, its bits 31 to 11 are 0, and every set bit of `w[10:8]` is a
flag that opcode allows (R92); an illegal word raises ILLEGAL_COMMAND with no other effect. -/
def Obligations.LegalWords : Prop :=
  ∀ w : Word,
    ((∃ i, decode w = .ok i) ↔
      (∃ r ∈ [(0x01, 0x19), (0x20, 0x26), (0x30, 0x38), (0x40, 0x49), (0x50, 0x5a), (0x60, 0x61), (0x70, 0x71)],
        r.1 ≤ w.toNat % 256 ∧ w.toNat % 256 ≤ r.2) ∧
      w.extractLsb' 11 21 = 0 ∧
      (w.getLsbD 8 = true → w.toNat % 256 ∈ [0x40, 0x42, 0x43, 0x44, 0x45, 0x46, 0x47, 0x48, 0x60, 0x61]) ∧
      (w.getLsbD 9 = true → w.toNat % 256 ∈ [0x50, 0x51]) ∧
      (w.getLsbD 10 = true → w.toNat % 256 ∈ [0x50, 0x51])) ∧
    ∀ s : State, s.fault = none → (∀ i, decode w ≠ .ok i) →
      stepWrite 0x020 w s = .next { s with fault := some .illegalCommand, faddr := 0 }

/-- R91, R95: words written out from the spec's encoding, one of each family, and words R96 calls illegal. -/
def Obligations.SampleWordsDecode : Prop :=
  decode 0x00000004 = .ok .fdiv ∧ decode 0x00000019 = .ok .fsgn ∧ decode 0x00000023 = .ok .poke4 ∧
  decode 0x00000035 = .ok .palrst ∧ decode 0x00000145 = .ok (.rect true) ∧ decode 0x00000045 = .ok (.rect false) ∧
  decode 0x00000250 = .ok (.spr true false) ∧ decode 0x00000451 = .ok (.sspr false true) ∧
  decode 0x00000161 = .ok (.printc true) ∧ decode 0x00000071 = .ok .chset ∧
  decode 0x00000000 = .error .unknownOpcode ∧ decode 0x00000801 = .error .reservedBits ∧
  decode 0x00000141 = .error .flagNotAllowed ∧ decode 0x00000240 = .error .flagNotAllowed

/-! ### The host's accesses -/

/-- R90, R316: a host write of a legal word to CMD, with no fault recorded, performs the command it decodes to, completely,
and that is the whole step; with a fault recorded it is dropped; between accesses the block is idle and keeps all its
state. -/
def Obligations.StepRunsTheDecodedCommand : Prop :=
  ∀ (s : State) (w : Word) (i : Instr),
    (s.fault = none → decode w = .ok i → operandsWritten i s = true → stepWrite 0x020 w s = exec i s) ∧
    (s.fault ≠ none → stepWrite 0x020 w s = .next s) ∧
    (s.inbox = [] → step s = .next s)

/-- Of R303: while a fault is recorded a CMD write is dropped whatever its word, and writes of ARG registers and TBUF and reads
of readable registers work as they do without one: the same bytes change, and a read returns the register's word. That an ARG
register, RESULT or a TBUF word not written since reset is answered too (R22, R23, R47 and R332 have a model refuse that read)
is the model's choice (log 1). -/
def Obligations.CommandsDroppedWhileFaulted : Prop :=
  ∀ (s : State) (f : Fault) (w : Word), s.fault = some f →
    stepWrite 0x020 w s = .next s ∧
    (∀ i : Fin 8, ∃ t, stepWrite (4 * i.val) w s = .next t ∧ readArg i t = w ∧ t.fault = some f ∧ t.faddr = s.faddr ∧
      stepWrite (4 * i.val) w { s with fault := none } = .next { t with fault := none }) ∧
    (∀ j : Fin 64, ∃ t, stepWrite (0x100 + 4 * j.val) w s = .next t ∧ tbufWord t.tbuf j = w ∧ t.fault = some f ∧
      t.faddr = s.faddr ∧ stepWrite (0x100 + 4 * j.val) w { s with fault := none } = .next { t with fault := none }) ∧
    ∀ r : Register, r ≠ .cmd → ReadsAs r.offset (r.word s) s

/-- R47: TBUF word `j` holds bytes `4j` to `4j+3` little-endian; a write sets all four (and marks them written); a read
returns them. The reads R47 has a model refuse are those of a word of which a byte has not been written since reset; that
such a read answers what State holds all the same is the model's choice (log 1). -/
def Obligations.TbufWords : Prop :=
  ∀ (j : Fin 64) (w : Word) (s : State),
    (∃ t, stepWrite (0x100 + 4 * j.val) w s = .next t ∧ t = { s with tbuf := t.tbuf, tbufWritten := t.tbufWritten } ∧
      ∀ k : Fin 256,
        t.tbuf[k] = (if k.val / 4 = j.val then w.extractLsb' (8 * (k.val % 4)) 8 else s.tbuf[k]) ∧
        t.tbufWritten[k] = (if k.val / 4 = j.val then true else s.tbufWritten[k])) ∧
    (∃ v, ReadsAs (0x100 + 4 * j.val) v s ∧
        ∀ k : Fin 256, k.val / 4 = j.val → v.extractLsb' (8 * (k.val % 4)) 8 = s.tbuf[k]) ∧
    (readsUnwritten (.read 32 (0x100 + 4 * j.val)) s = true ↔ ∃ k : Fin 256, k.val / 4 = j.val ∧ s.tbufWritten[k] = false)

/-- R46: STATUS reads as `0x0000 ++ FCODE[7:0] ++ 0b0000000 ++ FAULT`. And of R33: FCODE is the fault code while FAULT is 1
and 0 otherwise, a write with bit 0 set clears FAULT, FCODE and FADDR, a write with bit 0 clear changes nothing. -/
def Obligations.StatusRegister : Prop :=
  ∀ s : State,
    (∃ v, ReadsAs 0x028 v s ∧ v.extractLsb' 16 16 = 0 ∧ v.extractLsb' 1 7 = 0 ∧
      (s.fault = none → v.getLsbD 0 = false ∧ v.extractLsb' 8 8 = 0x00) ∧
      (s.fault = some .badMemoryAccess → v.getLsbD 0 = true ∧ v.extractLsb' 8 8 = 0x01) ∧
      (s.fault = some .illegalCommand → v.getLsbD 0 = true ∧ v.extractLsb' 8 8 = 0x02) ∧
      (s.fault = some .badOperand → v.getLsbD 0 = true ∧ v.extractLsb' 8 8 = 0x03)) ∧
    ∀ w : Word,
      (w.getLsbD 0 = true → stepWrite 0x028 w s = .next { s with fault := none, faddr := 0 }) ∧
      (w.getLsbD 0 = false → stepWrite 0x028 w s = .next s)

/-- R41 to R45: how CLIP, CAMERA, the palettes, TRANSP and the channel records are laid out in the words the host reads. The
clip bounds are the invariant of R26. -/
def Obligations.RegisterPacking : Prop :=
  ∀ s : State,
    (s.clip.bounded → ∃ v, ReadsAs 0x048 v s ∧ (v.extractLsb' 0 8).toNat = s.clip.aaX ∧
      (v.extractLsb' 8 8).toNat = s.clip.aaY ∧ (v.extractLsb' 16 8).toNat = s.clip.bbX ∧
      (v.extractLsb' 24 8).toNat = s.clip.bbY) ∧
    (∃ v, ReadsAs 0x04c v s ∧ v.extractLsb' 0 16 = s.cameraX ∧ v.extractLsb' 16 16 = s.cameraY) ∧
    (∃ v, ReadsAs 0x058 v s ∧ v.extractLsb' 16 16 = 0 ∧ ∀ c : Fin 16, v.getLsbD c.val = s.transp[c]) ∧
    (∃ lo hi, ReadsAs 0x060 lo s ∧ ReadsAs 0x064 hi s ∧ ∀ k : Nat, ∀ h : k < 8,
      lo.extractLsb' (4 * k) 4 = s.dpal[k]'(by omega) ∧ hi.extractLsb' (4 * k) 4 = s.dpal[8 + k]'(by omega)) ∧
    (∃ lo hi, ReadsAs 0x068 lo s ∧ ReadsAs 0x06c hi s ∧ ∀ k : Nat, ∀ h : k < 8,
      lo.extractLsb' (4 * k) 4 = s.spal[k]'(by omega) ∧ hi.extractLsb' (4 * k) 4 = s.spal[8 + k]'(by omega)) ∧
    ∀ k : Fin 4, ∃ v, ReadsAs (0x080 + 4 * k.val) v s ∧ v.extractLsb' 0 16 = s.channels[k].sfx ∧
      v.extractLsb' 16 16 = s.channels[k].row

/-- R40: an access that is not of 32 bits at a listed multiple of 4, a write of a register marked R only and a read of CMD
are refused; a read has no side effect on the block; and a host write changes the rendering state only through CMD. -/
def Obligations.RegisterAccessRules : Prop :=
  ∀ (s : State) (width o : Nat) (w : Word),
    (width ≠ 32 ∨ o % 4 ≠ 0 ∨ listedOffset o = false →
      (∃ r, step (s.withAccesses [.read width o]) = .refused r) ∧
      ∃ r, step (s.withAccesses [.write width o w]) = .refused r) ∧
    (o % 4 = 0 → listedOffset o = true → writableOffset o = false → ∃ r, stepWrite o w s = .refused r) ∧
    (∃ r, stepRead 0x020 s = .refused r) ∧
    (∀ t, step (s.withAccesses [.read width o]) = .next t → ∃ v, t = { s with replies := s.replies ++ [.word v] }) ∧
    (∀ t, step (s.withAccesses [.write width o w]) = .next t → o ≠ 0x020 →
      t = { s with args := t.args, argWritten := t.argWritten, tbuf := t.tbuf, tbufWritten := t.tbufWritten,
                   fault := t.fault, faddr := t.faddr })

/-- R39, R22, R23: the register map. Every listed offset is one register's; every register but CMD reads as its word there,
which for ARG, RESULT, FADDR, PEN, FILLP and the cursor is the register of that name (the packed words are those of TbufWords,
StatusRegister and RegisterPacking); the reads R22 and R23 have a model refuse are those of an ARG register or of RESULT not
written since reset; and a write of ARG `i` sets that register alone. That a register not written since reset answers what
State holds is the model's choice (log 1). -/
def Obligations.RegisterMap : Prop :=
  (∀ o : Nat, o % 4 = 0 → (listedOffset o = true ↔ ∃ r : Register, r.offset = o)) ∧
  (∀ r r' : Register, r.offset = r'.offset → r = r') ∧
  (∀ (r : Register) (s : State), r ≠ .cmd → ReadsAs r.offset (r.word s) s) ∧
  (∀ s : State,
    ReadsAs 0x024 s.result s ∧ ReadsAs 0x02c s.faddr s ∧ ReadsAs 0x040 s.pen s ∧ ReadsAs 0x044 s.fillp s ∧
    ReadsAs 0x050 s.cursorX s ∧ ReadsAs 0x054 s.cursorY s ∧
    (readsUnwritten (.read 32 0x024) s = true ↔ s.resultWritten = false) ∧
    ∀ i : Fin 8, ReadsAs (4 * i.val) (readArg i s) s ∧
      (readsUnwritten (.read 32 (4 * i.val)) s = true ↔ s.argWritten[i] = false)) ∧
  ∀ (i : Fin 8) (w : Word) (s : State), ∃ t, stepWrite (4 * i.val) w s = .next t ∧
    t = { s with args := t.args, argWritten := t.argWritten } ∧
    ∀ k : Fin 8, readArg k t = (if k = i then w else readArg k s) ∧
      t.argWritten[k] = (if k = i then true else s.argWritten[k])

/-- R71: the display port reads any SCREEN byte and the SPAL entries between commands, and never writes. -/
def Obligations.DisplayPortReads : Prop :=
  ∀ s : State,
    (∀ a, 0x6000 ≤ a → a < 0x8000 →
      step (s.withAccesses [.displayByte a]) = .next { s with replies := s.replies ++ [.screenByte (s.mem.read a)] }) ∧
    ∀ i : Fin 16,
      step (s.withAccesses [.displayPalette i]) = .next { s with replies := s.replies ++ [.paletteEntry s.spal[i]] }

/-! ### Reset -/

/-- R50: the reset table. ARG, RESULT and TBUF have no value: none is written, so every host read of them is one R50 and R332
have a model refuse. That they hold 0 and answer it is the model's choice (log 1). -/
def Obligations.ResetTable : Prop :=
  let s := State.reset
  (∀ a, s.mem.read a = 0) ∧
  (∀ i : Fin 8, s.argWritten[i] = false ∧ readsUnwritten (.read 32 (4 * i.val)) s = true ∧ readArg i s = 0) ∧
  (s.resultWritten = false ∧ readsUnwritten (.read 32 0x024) s = true ∧ s.result = 0) ∧
  (∀ k : Fin 256, s.tbufWritten[k] = false ∧ s.tbuf[k] = 0) ∧
  (∀ j : Fin 64, readsUnwritten (.read 32 (0x100 + 4 * j.val)) s = true) ∧
  s.pen = Config.penReset ∧ s.fillp = 0 ∧ s.clip = ⟨0, 0, 128, 128⟩ ∧ s.cameraX = 0 ∧ s.cameraY = 0 ∧
  s.cursorX = 0 ∧ s.cursorY = 0 ∧
  (∀ i : Fin 16, s.dpal[i].toNat = i.val ∧ s.spal[i].toNat = i.val ∧ s.transp[i] = decide (i.val = 0)) ∧
  (∀ k : Fin 4, s.channels[k].sfx.toInt = -1 ∧ s.channels[k].row = 0) ∧
  ReadsAs 0x028 0 s ∧ s.faddr = 0

/-- R330: the host's reset gives every piece of the block's state its reset value, whatever the state. That the ROM image,
the accesses still to come and the answers already given stay is the model's choice (log 14). -/
def Obligations.ResetFromEveryState : Prop :=
  ∀ s : State, step (s.withAccesses [.reset]) =
    .next { State.reset with rom := s.rom, inbox := s.inbox, replies := s.replies }

/-! ### Faults -/

/-- R301: recording a fault sets FAULT, FCODE and FADDR; the record stays until the host writes STATUS with bit 0 set, which
sets all three to 0, or resets the block; no command clears it. -/
def Obligations.FaultRecordIsSticky : Prop :=
  (∀ (k : Fault) (a : Word) (s : State), ∃ t, raiseFault k a s = .next t ∧ t = { s with fault := some k, faddr := a }) ∧
  (∀ (s t : State) (f : Fault), step s = .next t → s.fault = some f → ¬ResetNext s →
    (∀ w rest, s.inbox = .write 32 0x028 w :: rest → w.getLsbD 0 = false) → t.fault = some f ∧ t.faddr = s.faddr) ∧
  (∀ (s : State) (w : Word), w.getLsbD 0 = true → stepWrite 0x028 w s = .next { s with fault := none, faddr := 0 } ∧
    statusWord { s with fault := none, faddr := 0 } = 0) ∧
  ∀ (i : Instr) (s t : State), exec i s = .next t → s.fault ≠ none → t.fault ≠ none

/-- R302: a command that faults changes nothing but the fault record. -/
def Obligations.FaultedCommandOnlyRecords : Prop :=
  ∀ (i : Instr) (s t : State), s.fault = none → exec i s = .next t → t.fault ≠ none →
    t = { s with fault := t.fault, faddr := t.faddr }

/-- R300, R34: which command raises which fault, when, and with what FADDR. BAD_OPERAND is for an operand outside its range;
BAD_MEMORY_ACCESS for a destination byte at or above 0x8000, with FADDR the lowest such address; a word that fails the decode
raises ILLEGAL_COMMAND; no command faults otherwise. The codes are 1, 2 and 3. -/
def Obligations.FaultCauses : Prop :=
  (∀ (i : Instr) (s : State), s.fault = none → operandsWritten i s = true →
    ∃ t, exec i s = .next t ∧
      (operandInRange i s = false → t.fault = some .badOperand ∧ t.faddr = 0) ∧
      (operandInRange i s = true →
        (∀ a, (destination i s).1 ≤ a → a < (destination i s).1 + (destination i s).2 → a < 0x8000) →
        t.fault = none ∧ t.faddr = s.faddr) ∧
      ∀ a, operandInRange i s = true → (destination i s).1 ≤ a → a < (destination i s).1 + (destination i s).2 →
        0x8000 ≤ a → (∀ b, (destination i s).1 ≤ b → b < a → b < 0x8000) →
        t.fault = some .badMemoryAccess ∧ t.faddr.toNat = a) ∧
  (∀ (w : Word) (s : State), s.fault = none → (∀ i, decode w ≠ .ok i) →
    ∃ t, stepWrite 0x020 w s = .next t ∧ t.fault = some .illegalCommand ∧ t.faddr = 0) ∧
  ∀ s : State,
    (s.fault = some .badMemoryAccess → (statusWord s).extractLsb' 8 8 = 0x01) ∧
    (s.fault = some .illegalCommand → (statusWord s).extractLsb' 8 8 = 0x02) ∧
    (s.fault = some .badOperand → (statusWord s).extractLsb' 8 8 = 0x03)

/-- R306: every command of the block has a complete rule, so every command ends in a next state (the entry into the fault
record of R301 among them); none stops the machine. -/
def Obligations.EveryCommandCompletes : Prop :=
  ∀ (i : Instr) (s : State), operandsWritten i s = true → ∃ t, exec i s = .next t

/-! ### What commands leave alone -/

/-- R22, R35, R37: no command writes an ARG register, TBUF or the ROM; nor does any command touch the accesses still to come
or the answers given. -/
def Obligations.CommandsKeepHostRegisters : Prop :=
  ∀ (i : Instr) (s t : State), exec i s = .next t →
    t.args = s.args ∧ t.argWritten = s.argWritten ∧ t.tbuf = s.tbuf ∧ t.tbufWritten = s.tbufWritten ∧ t.rom = s.rom ∧
      t.inbox = s.inbox ∧ t.replies = s.replies

/-- R23, R95: RESULT is written only by the commands that return a value; a command that returns nothing leaves it, and one
that returns a value and does not fault writes it and nothing else. -/
def Obligations.OnlyReturningCommandsWriteResult : Prop :=
  ∀ (i : Instr) (s t : State), s.fault = none → exec i s = .next t →
    (returnsValue i = false → t.result = s.result ∧ t.resultWritten = s.resultWritten) ∧
    (returnsValue i = true → t.fault = none → t = { s with result := t.result, resultWritten := true })

/-- R122: every command of the fixed-point ALU reads only the ARG registers its row names, writes only RESULT, and is total:
with the same operands it returns the same word from any two states. -/
def Obligations.AluReadsOperandsWritesResult : Prop :=
  ∀ (i : Instr) (s : State), isAlu i = true → operandsWritten i s = true →
    ∃ w, exec i s = .next (s.setResult w) ∧
      ∀ s' : State, operandsWritten i s' = true → (∀ k ∈ argsRead i, readArg k s' = readArg k s) →
        exec i s' = .next (s'.setResult w)

/-- The frame of the drawing commands (43_primitives.md, 44_sprites_map.md, 45_text.md; R202): every byte outside SCREEN reads
as before; every register is as before but PEN, which a set flag `C` loads from the pen operand's register, CURSOR_Y, which
PRINTC moves, and the fault record of a length out of range. -/
def Obligations.DrawsWriteOnlyTheScreen : Prop :=
  ∀ (i : Instr) (s t : State), isDraw i = true → s.fault = none → exec i s = .next t →
    (∀ a, ¬(0x6000 ≤ a ∧ a < 0x8000) → t.mem.read a = s.mem.read a) ∧
    t = { s with mem := t.mem, pen := t.pen, cursorY := t.cursorY, fault := t.fault, faddr := t.faddr } ∧
    (hasPen i = false → t.pen = s.pen) ∧
    (∀ p : Fin 8, hasPen i = true → t.fault = none → p.val = plainOperands i → t.pen = readArg p s) ∧
    ((∀ c, i ≠ .printc c) → t.cursorY = s.cursorY) ∧
    (operandInRange i s = true → t.fault = none ∧ t.faddr = s.faddr)

/-- R26, R201: no drawing command changes a pixel outside the clip, but for CLS, which clears the whole screen (R215), and a
PRINTC that scrolls it (R277). -/
def Obligations.NothingIsDrawnOutsideTheClip : Prop :=
  ∀ (i : Instr) (s t : State) (x y : Int), isDraw i = true → i ≠ .cls →
    ((∀ c, i ≠ .printc c) ∨ s32 s.cursorY ≤ 116 * 65536) → exec i s = .next t →
    inSquare x y → ¬(s.clip.aaX ≤ x ∧ x < s.clip.bbX ∧ s.clip.aaY ≤ y ∧ y < s.clip.bbY) →
    screenRead t.mem x y = screenRead s.mem x y

/-- R22 to R35, R37, R40, R301: from every state, a step changes a register, memory or the fault record only if it is the
reset or the host issues a command or makes an access that writes it; an ARG register, a TBUF byte and the mark that it has
been written change only by the host's write of that register or word, and the ROM image only by its replacement. And a
replacement takes effect: an image in canonical form becomes the image on the ROM port, byte for byte, and nothing else
changes (log 5 says which images the model takes). The last clauses on the model's own lists are log 3's: a step serves the
oldest access, and answers are given to reads alone. -/
def Obligations.StateChangesOnlyByItsWriters : Prop :=
  (∀ s t : State, step s = .next t → ¬ResetNext s →
    (t.mem ≠ s.mem → ∃ i, Issued i s ∧ (isDraw i || isStore i) = true) ∧
    (t.result ≠ s.result ∨ t.resultWritten ≠ s.resultWritten → ∃ i, Issued i s ∧ returnsValue i = true) ∧
    (t.pen ≠ s.pen → ∃ i, Issued i s ∧ (i = .color ∨ hasPen i = true)) ∧
    (t.fillp ≠ s.fillp → ∃ i, Issued i s ∧ (i = .fillp ∨ i = .palrst)) ∧
    (t.clip ≠ s.clip → ∃ i, Issued i s ∧ (i = .clip ∨ i = .cliprst)) ∧
    (t.cameraX ≠ s.cameraX ∨ t.cameraY ≠ s.cameraY → Issued .camera s) ∧
    (t.cursorX ≠ s.cursorX → Issued .cursor s) ∧
    (t.cursorY ≠ s.cursorY → ∃ i, Issued i s ∧ (i = .cursor ∨ ∃ c, i = .printc c)) ∧
    (t.dpal ≠ s.dpal ∨ t.spal ≠ s.spal → ∃ i, Issued i s ∧ (i = .pal ∨ i = .palrst)) ∧
    (t.transp ≠ s.transp → ∃ i, Issued i s ∧ (i = .palt ∨ i = .palrst)) ∧
    (t.channels ≠ s.channels → Issued .chset s) ∧
    (t.fault ≠ s.fault ∨ t.faddr ≠ s.faddr →
      (s.fault = none ∧ ∃ (w : Word) (rest : List HostAccess), s.inbox = .write 32 0x020 w :: rest) ∨
      ∃ (w : Word) (rest : List HostAccess), s.inbox = .write 32 0x028 w :: rest ∧ w.getLsbD 0 = true) ∧
    (∀ k : Fin 8, readArg k t ≠ readArg k s ∨ t.argWritten[k] ≠ s.argWritten[k] →
      ∃ (w : Word) (rest : List HostAccess), s.inbox = .write 32 (4 * k.val) w :: rest) ∧
    (∀ k : Fin 256, t.tbuf[k] ≠ s.tbuf[k] ∨ t.tbufWritten[k] ≠ s.tbufWritten[k] →
      ∃ (w : Word) (rest : List HostAccess), s.inbox = .write 32 (0x100 + 4 * (k.val / 4)) w :: rest) ∧
    (t.rom ≠ s.rom → ∃ (image : Memory) (rest : List HostAccess), s.inbox = .loadRom image :: rest) ∧
    t.inbox = s.inbox.tail ∧
    (t.replies ≠ s.replies → ∃ (a : HostAccess) (rest : List HostAccess), s.inbox = a :: rest ∧
      ((∃ width o, a = .read width o) ∨ (∃ addr, a = .displayByte addr) ∨ ∃ i, a = .displayPalette i))) ∧
  ∀ (s : State) (image : Memory), image.wf → ∃ t, step (s.withAccesses [.loadRom image]) = .next t ∧
    t = { s with rom := t.rom } ∧ ∀ a, t.rom.read a = image.read a

/-- Every step keeps the model's invariant: memory in canonical form (R60), the clip bounds (R26), a fault record R34 allows,
and a ROM image of the ROM port's size (R37). -/
def Obligations.EveryStepKeepsInvariant : Prop := ∀ s t : State, s.Inv → step s = .next t → t.Inv

/-- The state after reset meets the invariant (R50). -/
def Obligations.ResetMeetsInvariant : Prop := State.reset.Inv

/-- The model's choice of log 1, where R332 has a model refuse: the values ARG, RESULT and TBUF hold before they are written are
read like any other, and they matter only there. A command's effect is the same whatever the marks that say what has been
written since reset, whatever RESULT held, and whatever is in the ARG registers and text bytes it does not read; those stay as
they were. A command issued with its operands not written is performed on what State holds. And of two states that differ at
most in values not yet written, a step that reads none of them gives the same outcome, and states that again differ in no more:
so the chosen values are seen only by the reads R332 speaks of. -/
def Obligations.WrittenMarksDoNotAct : Prop :=
  (∀ (i : Instr) (s : State) (a : Vector Word 8) (m : Vector Bool 8) (r : Word) (mr : Bool) (x : Vector Byte 256)
    (mx : Vector Bool 256),
    (∀ k ∈ argsRead i, a[k] = readArg k s) → (∀ k : Fin 256, k.val < tbufRead i s → x[k] = s.tbuf[k]) →
    ∃ t t', exec i s = .next t ∧
      exec i { s with args := a, argWritten := m, result := r, resultWritten := mr, tbuf := x, tbufWritten := mx } =
        .next t' ∧
      t' = { t with args := a, argWritten := m, result := t'.result, resultWritten := t'.resultWritten, tbuf := x,
                    tbufWritten := mx } ∧
      ((t.result = s.result ∧ t.resultWritten = s.resultWritten ∧ t'.result = r ∧ t'.resultWritten = mr) ∨
        (returnsValue i = true ∧ t.result = t'.result ∧ t.resultWritten = true ∧ t'.resultWritten = true))) ∧
  (∀ (s : State) (w : Word) (i : Instr), s.fault = none → decode w = .ok i → operandsWritten i s = false →
    readsUnwritten (.write 32 0x020 w) s = true ∧ stepWrite 0x020 w s = exec i s) ∧
  ∀ s s' : State, SameButUnwritten s s' → s.readsWritten →
    (∀ t, step s = .next t → ∃ t', step s' = .next t' ∧ SameButUnwritten t t') ∧
    ∀ r, step s = .refused r → step s' = .refused r

/-! ### Operands -/

/-- R12, R14: the coercions. `Int` truncates `s32(v) / 65536` toward zero and lies in `[-32768, 32767]`; `Addr`, `Byte` and
`Col` are `Int` modulo 0x10000, 0x100 and 0x10; `CamX` and `CamY` subtract the camera in fix32 arithmetic, then truncate;
`Bool` is true iff the word is not 0. -/
def Obligations.OperandCoercions : Prop :=
  ∀ (v : Word) (s : State),
    -32768 ≤ intOf v ∧ intOf v ≤ 32767 ∧
    (0 ≤ s32 v → intOf v = ⌊(s32 v : ℚ) / 65536⌋) ∧ (s32 v < 0 → intOf v = ⌈(s32 v : ℚ) / 65536⌉) ∧
    (addrOf v : Int) = intOf v % 0x10000 ∧ ((byteValue v).toNat : Int) = intOf v % 0x100 ∧
    ((colOf v).toNat : Int) = intOf v % 0x10 ∧ (boolOf v = true ↔ v ≠ 0) ∧
    (∃ d, Wraps d (s32 v - 65536 * s.cameraX.toInt) ∧ camX s v = intOf d) ∧
    ∃ d, Wraps d (s32 v - 65536 * s.cameraY.toInt) ∧ camY s v = intOf d

/-! ### The fixed-point ALU -/

/-- R124, R125, R128, R129: FADD, FSUB, FNEG and FABS wrap modulo `2^32`. -/
def Obligations.WrappingArithmetic : Prop :=
  encode .fadd = 0x01 ∧ encode .fsub = 0x02 ∧ encode .fneg = 0x05 ∧ encode .fabs = 0x06 ∧
  ∀ s : State,
    (operandsWritten .fadd s = true →
      ∃ w, exec .fadd s = .next (s.setResult w) ∧ Wraps w (s32 (readArg 0 s) + s32 (readArg 1 s))) ∧
    (operandsWritten .fsub s = true →
      ∃ w, exec .fsub s = .next (s.setResult w) ∧ Wraps w (s32 (readArg 0 s) - s32 (readArg 1 s))) ∧
    (operandsWritten .fneg s = true → ∃ w, exec .fneg s = .next (s.setResult w) ∧ Wraps w (-s32 (readArg 0 s))) ∧
    (operandsWritten .fabs s = true → ∃ w, exec .fabs s = .next (s.setResult w) ∧ Wraps w |s32 (readArg 0 s)|)

/-- R126: FMUL is the exact product divided by 65536, rounded toward minus infinity and wrapped. -/
def Obligations.FmulRoundsDown : Prop :=
  encode .fmul = 0x03 ∧
  ∀ s : State, operandsWritten .fmul s = true →
    ∃ w, exec .fmul s = .next (s.setResult w) ∧ Wraps w ⌊((s32 (readArg 0 s) : ℚ) * s32 (readArg 1 s)) / 65536⌋

/-- R127: FDIV saturates, on a zero divisor by the sign of the dividend and otherwise when the quotient, truncated toward
zero, does not fit. -/
def Obligations.FdivSaturates : Prop :=
  encode .fdiv = 0x04 ∧
  ∀ s : State, operandsWritten .fdiv s = true →
    ∃ w, exec .fdiv s = .next (s.setResult w) ∧
      (s32 (readArg 1 s) = 0 → 0 ≤ s32 (readArg 0 s) → w = 0x7fffffff) ∧
      (s32 (readArg 1 s) = 0 → s32 (readArg 0 s) < 0 → w = 0x80000000) ∧
      (s32 (readArg 1 s) ≠ 0 →
        s32 w = max (-2 ^ 31) (min (2 ^ 31 - 1) ((s32 (readArg 0 s) * 65536).tdiv (s32 (readArg 1 s)))))

/-- R130, R131: FFLR clears the fraction bits, which is the floor; FCEIL is the ceiling, wrapped. -/
def Obligations.FloorAndCeiling : Prop :=
  encode .fflr = 0x07 ∧ encode .fceil = 0x08 ∧
  ∀ s : State,
    (operandsWritten .fflr s = true → ∃ w, exec .fflr s = .next (s.setResult w) ∧
      w.extractLsb' 0 16 = 0 ∧ w.extractLsb' 16 16 = (readArg 0 s).extractLsb' 16 16 ∧
      Wraps w (65536 * ⌊(s32 (readArg 0 s) : ℚ) / 65536⌋)) ∧
    (operandsWritten .fceil s = true → ∃ w, exec .fceil s = .next (s.setResult w) ∧
      w.extractLsb' 0 16 = 0 ∧ Wraps w (65536 * ⌈(s32 (readArg 0 s) : ℚ) / 65536⌉))

/-- R132, R133, R134: FMIN, FMAX and FMID choose under signed order; FMID is the median, whatever the order of the three. -/
def Obligations.SignedSelection : Prop :=
  encode .fmin = 0x09 ∧ encode .fmax = 0x0a ∧ encode .fmid = 0x0b ∧
  ∀ s : State,
    (operandsWritten .fmin s = true → ∃ w, exec .fmin s = .next (s.setResult w) ∧
      s32 w = min (s32 (readArg 0 s)) (s32 (readArg 1 s))) ∧
    (operandsWritten .fmax s = true → ∃ w, exec .fmax s = .next (s.setResult w) ∧
      s32 w = max (s32 (readArg 0 s)) (s32 (readArg 1 s))) ∧
    (operandsWritten .fmid s = true → ∃ w, exec .fmid s = .next (s.setResult w) ∧
      s32 w ∈ [s32 (readArg 0 s), s32 (readArg 1 s), s32 (readArg 2 s)] ∧
      2 ≤ [readArg 0 s, readArg 1 s, readArg 2 s].countP (fun v => s32 v ≤ s32 w) ∧
      2 ≤ [readArg 0 s, readArg 1 s, readArg 2 s].countP (fun v => s32 w ≤ s32 v))

/-- R135, R136, R137, R138, R148: the comparisons return 1 or 0, FTOI truncates toward zero, FSGN returns -1.0 or 1.0. -/
def Obligations.ComparisonAndConversion : Prop :=
  encode .feq = 0x0c ∧ encode .flt = 0x0d ∧ encode .fle = 0x0e ∧ encode .ftoi = 0x0f ∧ encode .fsgn = 0x19 ∧
  ∀ s : State,
    (operandsWritten .feq s = true → exec .feq s = .next (s.setResult
      (if s32 (readArg 0 s) = s32 (readArg 1 s) then 0x00000001 else 0x00000000))) ∧
    (operandsWritten .flt s = true → exec .flt s = .next (s.setResult
      (if s32 (readArg 0 s) < s32 (readArg 1 s) then 0x00000001 else 0x00000000))) ∧
    (operandsWritten .fle s = true → exec .fle s = .next (s.setResult
      (if s32 (readArg 0 s) ≤ s32 (readArg 1 s) then 0x00000001 else 0x00000000))) ∧
    (operandsWritten .ftoi s = true → ∃ w, exec .ftoi s = .next (s.setResult w) ∧
      (0 ≤ s32 (readArg 0 s) → s32 w = ⌊(s32 (readArg 0 s) : ℚ) / 65536⌋) ∧
      (s32 (readArg 0 s) < 0 → s32 w = ⌈(s32 (readArg 0 s) : ℚ) / 65536⌉)) ∧
    (operandsWritten .fsgn s = true → exec .fsgn s = .next (s.setResult
      (if s32 (readArg 0 s) < 0 then 0xffff0000 else 0x00010000)))

/-- R139, R140, R141, R142: BAND, BOR, BXOR and BNOT act on each of the 32 bits. -/
def Obligations.BitwiseOnEveryBit : Prop :=
  encode .band = 0x10 ∧ encode .bor = 0x11 ∧ encode .bxor = 0x12 ∧ encode .bnot = 0x13 ∧
  ∀ s : State,
    (operandsWritten .band s = true → ∃ w, exec .band s = .next (s.setResult w) ∧
      ∀ j < 32, w.getLsbD j = ((readArg 0 s).getLsbD j && (readArg 1 s).getLsbD j)) ∧
    (operandsWritten .bor s = true → ∃ w, exec .bor s = .next (s.setResult w) ∧
      ∀ j < 32, w.getLsbD j = ((readArg 0 s).getLsbD j || (readArg 1 s).getLsbD j)) ∧
    (operandsWritten .bxor s = true → ∃ w, exec .bxor s = .next (s.setResult w) ∧
      ∀ j < 32, w.getLsbD j = ((readArg 0 s).getLsbD j ^^ (readArg 1 s).getLsbD j)) ∧
    (operandsWritten .bnot s = true → ∃ w, exec .bnot s = .next (s.setResult w) ∧
      ∀ j < 32, w.getLsbD j = !(readArg 0 s).getLsbD j)

/-- R143, R144, R145: where each bit comes from. A count `k` of at least 0 moves bits left for SHL and right for SHR and LSHR,
filling with 0 but for SHR, which fills with the sign bit; a negative count shifts the other way, SHL then arithmetically. A
count of 32 or more is covered by the same formulas. -/
def Obligations.ShiftsMoveBits : Prop :=
  encode .shl = 0x14 ∧ encode .shr = 0x15 ∧ encode .lshr = 0x16 ∧
  ∀ (s : State) (k : Nat), intOf (readArg 1 s) = k ∨ intOf (readArg 1 s) = -k →
    (operandsWritten .shl s = true → ∃ w, exec .shl s = .next (s.setResult w) ∧
      (intOf (readArg 1 s) = k → ∀ j < 32, w.getLsbD j = (decide (k ≤ j) && (readArg 0 s).getLsbD (j - k))) ∧
      (intOf (readArg 1 s) = -k → ∀ j < 32, w.getLsbD j = (readArg 0 s).getLsbD (min (j + k) 31))) ∧
    (operandsWritten .shr s = true → ∃ w, exec .shr s = .next (s.setResult w) ∧
      (intOf (readArg 1 s) = k → ∀ j < 32, w.getLsbD j = (readArg 0 s).getLsbD (min (j + k) 31)) ∧
      (intOf (readArg 1 s) = -k → ∀ j < 32, w.getLsbD j = (decide (k ≤ j) && (readArg 0 s).getLsbD (j - k)))) ∧
    (operandsWritten .lshr s = true → ∃ w, exec .lshr s = .next (s.setResult w) ∧
      (intOf (readArg 1 s) = k → ∀ j < 32, w.getLsbD j = (decide (j + k < 32) && (readArg 0 s).getLsbD (j + k))) ∧
      (intOf (readArg 1 s) = -k → ∀ j < 32, w.getLsbD j = (decide (k ≤ j) && (readArg 0 s).getLsbD (j - k))))

/-- R146, R147: ROTL moves bit `j` to bit `j + k` and ROTR to bit `j - k`, modulo 32, for the signed count `k`. -/
def Obligations.RotatesMoveBits : Prop :=
  encode .rotl = 0x17 ∧ encode .rotr = 0x18 ∧
  ∀ s : State,
    (operandsWritten .rotl s = true → ∃ w, exec .rotl s = .next (s.setResult w) ∧
      ∀ j : Nat, j < 32 → w.getLsbD j = (readArg 0 s).getLsbD (((j : Int) - intOf (readArg 1 s)) % 32).toNat) ∧
    (operandsWritten .rotr s = true → ∃ w, exec .rotr s = .next (s.setResult w) ∧
      ∀ j : Nat, j < 32 → w.getLsbD j = (readArg 0 s).getLsbD (((j : Int) + intOf (readArg 1 s)) % 32).toNat)

/-! ### Memory commands -/

/-- R161, R162: PEEK returns the byte, PEEK4 the four bytes little-endian; an address at or above 0x8000 reads 0, and PEEK4's
addresses wrap past 0xffff. -/
def Obligations.PeekReads : Prop :=
  encode .peek = 0x20 ∧ encode .peek4 = 0x21 ∧
  ∀ s : State,
    (operandsWritten .peek s = true → ∃ w, exec .peek s = .next (s.setResult w) ∧
      (addrOf (readArg 0 s) < 0x8000 → u32 w = (s.mem.read (addrOf (readArg 0 s))).toNat) ∧
      (0x8000 ≤ addrOf (readArg 0 s) → w = 0)) ∧
    (operandsWritten .peek4 s = true → ∃ w, exec .peek4 s = .next (s.setResult w) ∧
      ∀ k < 4, w.extractLsb' (8 * k) 8 = (if (addrOf (readArg 0 s) + k) % 0x10000 < 0x8000
        then s.mem.read ((addrOf (readArg 0 s) + k) % 0x10000) else 0))

/-- R163, R164: POKE stores the low byte and POKE4 the word little-endian, at any alignment; if a byte would lie at or above
0x8000 nothing is stored and BAD_MEMORY_ACCESS is recorded with the lowest such address. -/
def Obligations.PokeStores : Prop :=
  encode .poke = 0x22 ∧ encode .poke4 = 0x23 ∧
  ∀ s : State,
    (operandsWritten .poke s = true → addrOf (readArg 0 s) < 0x8000 →
      ∃ t, exec .poke s = .next t ∧ t = s.setMem t.mem ∧
        ∀ a, t.mem.read a = if a = addrOf (readArg 0 s) then byteValue (readArg 1 s) else s.mem.read a) ∧
    (operandsWritten .poke s = true → 0x8000 ≤ addrOf (readArg 0 s) →
      exec .poke s = .next { s with fault := some .badMemoryAccess, faddr := BitVec.ofNat 32 (addrOf (readArg 0 s)) }) ∧
    (operandsWritten .poke4 s = true → addrOf (readArg 0 s) + 3 < 0x8000 →
      ∃ t, exec .poke4 s = .next t ∧ t = s.setMem t.mem ∧
        (∀ k < 4, t.mem.read (addrOf (readArg 0 s) + k) = (readArg 1 s).extractLsb' (8 * k) 8) ∧
        ∀ a, a < addrOf (readArg 0 s) ∨ addrOf (readArg 0 s) + 4 ≤ a → t.mem.read a = s.mem.read a) ∧
    (operandsWritten .poke4 s = true → 0x8000 ≤ addrOf (readArg 0 s) + 3 →
      exec .poke4 s =
        .next { s with fault := some .badMemoryAccess, faddr := BitVec.ofNat 32 (max (addrOf (readArg 0 s)) 0x8000) })

/-- R165, R166, R167: MEMCPY stores the source as it was before any write (so overlapping runs behave as `memmove`), MEMSET
stores one byte `n` times, RELOAD stores bytes of the ROM port, 0 from CODE_START on; the source wraps at 0x10000 and reads 0
outside memory; if the destination leaves memory nothing is stored and BAD_MEMORY_ACCESS is recorded. -/
def Obligations.RunStores : Prop :=
  encode .memcpy = 0x24 ∧ encode .memset = 0x25 ∧ encode .reload = 0x26 ∧
  ∀ s : State, ∀ d n : Nat, d = addrOf (readArg 0 s) → n = addrOf (readArg 2 s) →
    (operandsWritten .memcpy s = true → n = 0 ∨ d + n ≤ 0x8000 →
      ∃ t, exec .memcpy s = .next t ∧ t = s.setMem t.mem ∧
        (∀ k < n, t.mem.read (d + k) = (if (addrOf (readArg 1 s) + k) % 0x10000 < 0x8000
          then s.mem.read ((addrOf (readArg 1 s) + k) % 0x10000) else 0)) ∧
        ∀ a, a < d ∨ d + n ≤ a → t.mem.read a = s.mem.read a) ∧
    (operandsWritten .memset s = true → n = 0 ∨ d + n ≤ 0x8000 →
      ∃ t, exec .memset s = .next t ∧ t = s.setMem t.mem ∧
        (∀ k < n, t.mem.read (d + k) = byteValue (readArg 1 s)) ∧
        ∀ a, a < d ∨ d + n ≤ a → t.mem.read a = s.mem.read a) ∧
    (operandsWritten .reload s = true → n = 0 ∨ d + n ≤ 0x8000 →
      ∃ t, exec .reload s = .next t ∧ t = s.setMem t.mem ∧
        (∀ k < n, t.mem.read (d + k) = (if (addrOf (readArg 1 s) + k) % 0x10000 < Config.codeStart.val
          then s.rom.read ((addrOf (readArg 1 s) + k) % 0x10000) else 0)) ∧
        ∀ a, a < d ∨ d + n ≤ a → t.mem.read a = s.mem.read a) ∧
    ∀ i ∈ [Instr.memcpy, Instr.memset, Instr.reload], operandsWritten i s = true → 0 < n → 0x8000 < d + n →
      exec i s = .next { s with fault := some .badMemoryAccess, faddr := BitVec.ofNat 32 (max d 0x8000) }

/-- R69: a map cell of rows 32 to 63 is the byte holding two pixels of the sprite sheet's lower half. -/
def Obligations.MapSharesSheetStorage : Prop :=
  ∀ (m : Memory) (cx cy : Int), 0 ≤ cx → cx < 128 → 32 ≤ cy → cy < 64 →
    gfxRead m (2 * (cx % 64)) (64 + 2 * (cy - 32) + cx / 64) = (mapRead m cx cy).extractLsb' 0 4 ∧
    gfxRead m (2 * (cx % 64) + 1) (64 + 2 * (cy - 32) + cx / 64) = (mapRead m cx cy).extractLsb' 4 4

/-- R66 (with R63, R64, R65): GfxWrite and ScreenWrite replace one nibble of the byte that holds the pixel, the low one in an
even column and the high one in an odd column, leave the byte's other nibble and every other byte, and do nothing outside the
square. -/
def Obligations.PixelViewsWriteOneNibble : Prop :=
  ∀ (m : Memory) (x y : Int) (c : Nibble) (a : Nat),
    (inSquare x y → (a : Int) = 64 * y + x / 2 →
      (x % 2 = 0 → ((gfxWrite x y c m).read a).extractLsb' 0 4 = c ∧
        ((gfxWrite x y c m).read a).extractLsb' 4 4 = (m.read a).extractLsb' 4 4) ∧
      (x % 2 = 1 → ((gfxWrite x y c m).read a).extractLsb' 4 4 = c ∧
        ((gfxWrite x y c m).read a).extractLsb' 0 4 = (m.read a).extractLsb' 0 4)) ∧
    (¬(inSquare x y ∧ (a : Int) = 64 * y + x / 2) → (gfxWrite x y c m).read a = m.read a) ∧
    (inSquare x y → (a : Int) = 0x6000 + 64 * y + x / 2 →
      (x % 2 = 0 → ((screenWrite x y c m).read a).extractLsb' 0 4 = c ∧
        ((screenWrite x y c m).read a).extractLsb' 4 4 = (m.read a).extractLsb' 4 4) ∧
      (x % 2 = 1 → ((screenWrite x y c m).read a).extractLsb' 4 4 = c ∧
        ((screenWrite x y c m).read a).extractLsb' 0 4 = (m.read a).extractLsb' 0 4)) ∧
    (¬(inSquare x y ∧ (a : Int) = 0x6000 + 64 * y + x / 2) → (screenWrite x y c m).read a = m.read a)

/-! ### Rendering state -/

/-- R180, R181, R182, R186, R187, R188: CAMERA truncates its operands; CLIP clamps the corners to `[0, 128]` after adding the
size, CLIPRST sets the full screen; COLOR, FILLP and CURSOR keep their operand words whole. Each changes nothing else. -/
def Obligations.RenderingRegisterCommands : Prop :=
  encode .camera = 0x30 ∧ encode .clip = 0x31 ∧ encode .cliprst = 0x32 ∧ encode .color = 0x36 ∧ encode .fillp = 0x37 ∧
  encode .cursor = 0x38 ∧
  ∀ s : State,
    (operandsWritten .camera s = true → ∃ t, exec .camera s = .next t ∧
      t = { s with cameraX := t.cameraX, cameraY := t.cameraY } ∧
      t.cameraX.toInt = intOf (readArg 0 s) ∧ t.cameraY.toInt = intOf (readArg 1 s)) ∧
    (operandsWritten .clip s = true → ∃ t, exec .clip s = .next t ∧ t = { s with clip := t.clip } ∧
      (t.clip.aaX : Int) = min (max (intOf (readArg 0 s)) 0) 128 ∧
      (t.clip.aaY : Int) = min (max (intOf (readArg 1 s)) 0) 128 ∧
      (t.clip.bbX : Int) = min (max (intOf (readArg 0 s) + intOf (readArg 2 s)) 0) 128 ∧
      (t.clip.bbY : Int) = min (max (intOf (readArg 1 s) + intOf (readArg 3 s)) 0) 128) ∧
    exec .cliprst s = .next { s with clip := ⟨0, 0, 128, 128⟩ } ∧
    (operandsWritten .color s = true → exec .color s = .next { s with pen := readArg 0 s }) ∧
    (operandsWritten .fillp s = true → exec .fillp s = .next { s with fillp := readArg 0 s }) ∧
    (operandsWritten .cursor s = true →
      exec .cursor s = .next { s with cursorX := readArg 0 s, cursorY := readArg 1 s })

/-- R183, R184, R185: PAL sets one entry of the screen palette when `Int(p) = 1` and of the draw palette otherwise, PALT one
transparency flag; PALRST resets both palettes, the mask and the fill pattern. Each changes nothing else. -/
def Obligations.PaletteCommands : Prop :=
  encode .pal = 0x33 ∧ encode .palt = 0x34 ∧ encode .palrst = 0x35 ∧
  ∀ s : State,
    (operandsWritten .pal s = true → intOf (readArg 2 s) = 1 → ∃ t, exec .pal s = .next t ∧ t = { s with spal := t.spal } ∧
      ∀ k : Fin 16, t.spal[k] = if (k.val : Int) = intOf (readArg 0 s) % 16 then colOf (readArg 1 s) else s.spal[k]) ∧
    (operandsWritten .pal s = true → intOf (readArg 2 s) ≠ 1 → ∃ t, exec .pal s = .next t ∧ t = { s with dpal := t.dpal } ∧
      ∀ k : Fin 16, t.dpal[k] = if (k.val : Int) = intOf (readArg 0 s) % 16 then colOf (readArg 1 s) else s.dpal[k]) ∧
    (operandsWritten .palt s = true → ∃ t, exec .palt s = .next t ∧ t = { s with transp := t.transp } ∧
      ∀ k : Fin 16, t.transp[k] =
        if (k.val : Int) = intOf (readArg 0 s) % 16 then decide (readArg 1 s ≠ 0) else s.transp[k]) ∧
    ∃ t, exec .palrst s = .next t ∧ t = { s with dpal := t.dpal, spal := t.spal, transp := t.transp, fillp := 0 } ∧
      ∀ k : Fin 16, t.dpal[k].toNat = k.val ∧ t.spal[k].toNat = k.val ∧ t.transp[k] = decide (k.val = 0)

/-! ### Primitives -/

/-- R200: the fields of the color-bits word of a pen word `p`. -/
def Obligations.ColorBitsFields : Prop :=
  ∀ (s : State) (p : Word),
    (p.getLsbD 24 = true → (colorBits s p).extractLsb' 0 24 = p.extractLsb' 0 24 ∧ (colorBits s p).extractLsb' 24 8 = 0) ∧
    (p.getLsbD 24 = false →
      (colorBits s p).extractLsb' 0 16 = s.fillp.extractLsb' 0 16 ∧
      (colorBits s p).extractLsb' 16 4 = lookup s.dpal (p.extractLsb' 0 4) ∧
      (colorBits s p).extractLsb' 20 4 = lookup s.dpal (p.extractLsb' 4 4) ∧
      (colorBits s p).getLsbD 24 = s.fillp.getLsbD 24 ∧ (colorBits s p).extractLsb' 25 7 = 0)

/-- R201: the pixel write. The pixel is written iff it is inside the clip, which is closed at `aa` and open at `bb`, and is
not a transparent secondary; a set pattern bit selects the secondary color; every other pixel and every byte outside SCREEN
is as before. The clip bounds are the invariant of R26. -/
def Obligations.PixelWriteRule : Prop :=
  ∀ (clip : Clip) (cb : Word) (x y : Int) (m : Memory), clip.bounded →
    (¬(clip.aaX ≤ x ∧ x < clip.bbX ∧ clip.aaY ≤ y ∧ y < clip.bbY) → pixelWrite clip cb x y m = m) ∧
    (clip.aaX ≤ x → x < clip.bbX → clip.aaY ≤ y → y < clip.bbY → ∀ i : Nat, (i : Int) = x % 4 + 4 * (y % 4) →
      (cb.getLsbD i = false → screenRead (pixelWrite clip cb x y m) x y = cb.extractLsb' 16 4) ∧
      (cb.getLsbD i = true → cb.getLsbD 24 = false →
        screenRead (pixelWrite clip cb x y m) x y = cb.extractLsb' 20 4) ∧
      (cb.getLsbD i = true → cb.getLsbD 24 = true → pixelWrite clip cb x y m = m)) ∧
    (∀ x' y', x' ≠ x ∨ y' ≠ y → screenRead (pixelWrite clip cb x y m) x' y' = screenRead m x' y') ∧
    ∀ a, ¬(0x6000 ≤ a ∧ a < 0x8000) → (pixelWrite clip cb x y m).read a = m.read a

/-- R203, R206, R208 (with R202, R205, R207): PSET, HLINE and VLINE draw one pixel, or every pixel from the lesser to the
greater coordinate, with the pen rule, and change nothing else. -/
def Obligations.PointsAndSpans : Prop :=
  ∀ (c : Bool) (s : State),
    encode (.pset c) = (if c then 0x140 else 0x040) ∧ encode (.hline c) = (if c then 0x142 else 0x042) ∧
    encode (.vline c) = (if c then 0x143 else 0x043) ∧
    (operandsWritten (.pset c) s = true →
      DrawsWithPen (.pset c) 2 (fun x y => x = camX s (readArg 0 s) ∧ y = camY s (readArg 1 s)) s) ∧
    (operandsWritten (.hline c) s = true →
      DrawsWithPen (.hline c) 3 (fun x y => min (camX s (readArg 0 s)) (camX s (readArg 1 s)) ≤ x ∧
        x ≤ max (camX s (readArg 0 s)) (camX s (readArg 1 s)) ∧ y = camY s (readArg 2 s)) s) ∧
    (operandsWritten (.vline c) s = true →
      DrawsWithPen (.vline c) 3 (fun x y => x = camX s (readArg 0 s) ∧
        min (camY s (readArg 1 s)) (camY s (readArg 2 s)) ≤ y ∧
        y ≤ max (camY s (readArg 1 s)) (camY s (readArg 2 s))) s)

/-- R204: PGET returns the stored nibble of a pixel inside the clip, the low one in an even column and the high one in an odd
column, through no palette; a pixel outside the clip reads 0. The clip bounds are the invariant of R26. -/
def Obligations.PgetReads : Prop :=
  encode .pget = 0x41 ∧
  ∀ s : State, operandsWritten .pget s = true → s.clip.bounded → ∀ x y : Int,
    x = camX s (readArg 0 s) → y = camY s (readArg 1 s) →
    ∃ w, exec .pget s = .next (s.setResult w) ∧
      (¬(s.clip.aaX ≤ x ∧ x < s.clip.bbX ∧ s.clip.aaY ≤ y ∧ y < s.clip.bbY) → w = 0) ∧
      (s.clip.aaX ≤ x → x < s.clip.bbX → s.clip.aaY ≤ y → y < s.clip.bbY →
        (x % 2 = 0 → u32 w = (s.mem.read (0x6000 + 64 * y + x / 2).toNat).toNat % 16) ∧
        (x % 2 = 1 → u32 w = (s.mem.read (0x6000 + 64 * y + x / 2).toNat).toNat / 16))

/-- R209 (with R202): LINE draws one pixel for each position of the major axis from the first endpoint to the second, the
other coordinate being the exact rational rounded to nearest, a half going away from zero. -/
def Obligations.LineDraws : Prop :=
  ∀ (c : Bool) (s : State),
    encode (.line c) = (if c then 0x144 else 0x044) ∧
    (operandsWritten (.line c) s = true →
      DrawsWithPen (.line c) 4 (LinePixel (camX s (readArg 0 s)) (camY s (readArg 1 s)) (camX s (readArg 2 s))
        (camY s (readArg 3 s))) s)

/-- R210, R211 (with R202): RECT draws exactly the border of the box its corners span, RECTFILL exactly the box, and both
change nothing else. -/
def Obligations.RectanglesDraw : Prop :=
  ∀ (c : Bool) (s : State) (lx hx ly hy : Int),
    lx = min (camX s (readArg 0 s)) (camX s (readArg 2 s)) → hx = max (camX s (readArg 0 s)) (camX s (readArg 2 s)) →
    ly = min (camY s (readArg 1 s)) (camY s (readArg 3 s)) → hy = max (camY s (readArg 1 s)) (camY s (readArg 3 s)) →
    encode (.rect c) = (if c then 0x145 else 0x045) ∧ encode (.rectfill c) = (if c then 0x146 else 0x046) ∧
    (operandsWritten (.rect c) s = true →
      DrawsWithPen (.rect c) 4 (fun x y => lx ≤ x ∧ x ≤ hx ∧ ly ≤ y ∧ y ≤ hy ∧ (x = lx ∨ x = hx ∨ y = ly ∨ y = hy)) s) ∧
    (operandsWritten (.rectfill c) s = true →
      DrawsWithPen (.rectfill c) 4 (fun x y => lx ≤ x ∧ x ≤ hx ∧ ly ≤ y ∧ y ≤ hy) s)

/-- R212, R213, R214 (with R202): for every pair `(dx, dy)` the loop of R212 emits, CIRC draws the eight symmetric points and
CIRCFILL the four spans; both change nothing else. -/
def Obligations.CirclesDraw : Prop :=
  ∀ (c : Bool) (s : State) (xc yc r : Int),
    xc = camX s (readArg 0 s) → yc = camY s (readArg 1 s) → r = intOf (readArg 2 s) →
    encode (.circ c) = (if c then 0x147 else 0x047) ∧ encode (.circfill c) = (if c then 0x148 else 0x048) ∧
    (operandsWritten (.circ c) s = true →
      DrawsWithPen (.circ c) 3 (fun x y => ∃ dx dy, CircleStep r dx dy ∧
        ((x = xc + dx ∨ x = xc - dx) ∧ (y = yc + dy ∨ y = yc - dy) ∨
          (x = xc + dy ∨ x = xc - dy) ∧ (y = yc + dx ∨ y = yc - dx))) s) ∧
    (operandsWritten (.circfill c) s = true →
      DrawsWithPen (.circfill c) 3 (fun x y => ∃ dx dy, CircleStep r dx dy ∧
        (xc - dx ≤ x ∧ x ≤ xc + dx ∧ (y = yc - dy ∨ y = yc + dy) ∨
          (x = xc - dy ∨ x = xc + dy) ∧ yc - dx ≤ y ∧ y ≤ yc + dx)) s)

/-- R215: CLS fills every byte of SCREEN with the color in both nibbles, whatever the clip, the camera, the palette and the
pattern, and changes nothing else. -/
def Obligations.ClsFillsTheScreen : Prop :=
  encode .cls = 0x49 ∧
  ∀ s : State, operandsWritten .cls s = true →
    ∃ t, exec .cls s = .next t ∧ t = s.setMem t.mem ∧
      (∀ a, 0x6000 ≤ a → a < 0x8000 → (t.mem.read a).extractLsb' 0 4 = colOf (readArg 0 s) ∧
        (t.mem.read a).extractLsb' 4 4 = colOf (readArg 0 s)) ∧
      ∀ a, ¬(0x6000 ≤ a ∧ a < 0x8000) → t.mem.read a = s.mem.read a

/-! ### Sprites and map -/

/-- R240, R241: SPR writes screen pixel `(X0 + i, Y0 + j)` with the sheet pixel at the sprite's place, mirrored over the whole
span where a flip is set, for every `(i, j)` of the `W x H` span; a transparent index or a pixel outside the clip is skipped;
nothing else changes. -/
def Obligations.SprBlits : Prop :=
  ∀ (fx fy : Bool) (s : State) (n w h : Int), n = intOf (readArg 0 s) →
    (∃ d, Wraps d (8 * s32 (readArg 3 s)) ∧ w = intOf d) → (∃ d, Wraps d (8 * s32 (readArg 4 s)) ∧ h = intOf d) →
    encode (.spr fx fy) = 0x50 ||| (if fx then 0x200 else 0) ||| (if fy then 0x400 else 0) ∧
    (operandsWritten (.spr fx fy) s = true →
      Blits (.spr fx fy) (fun x y u v => ∃ i j : Int, 0 ≤ i ∧ i < w ∧ 0 ≤ j ∧ j < h ∧
        x = camX s (readArg 1 s) + i ∧ y = camY s (readArg 2 s) + j ∧
        u = n % 16 * 8 + (if fx then w - 1 - i else i) ∧ v = n / 16 * 8 + (if fy then h - 1 - j else j)) s)

/-- R242 (with R240): SSPR scales: screen pixel `(X0 + i, Y0 + j)` takes the sheet pixel `SX + floor(SW * i' / DW)`,
`SY + floor(SH * j' / DH)`, the flip mirroring the index before the scaling; with `DW` or `DH` not above 0 nothing is drawn;
nothing else changes. -/
def Obligations.SsprBlits : Prop :=
  ∀ (fx fy : Bool) (s : State) (dw dh : Int), dw = intOf (readArg 6 s) → dh = intOf (readArg 7 s) →
    encode (.sspr fx fy) = 0x51 ||| (if fx then 0x200 else 0) ||| (if fy then 0x400 else 0) ∧
    (operandsWritten (.sspr fx fy) s = true →
      Blits (.sspr fx fy) (fun x y u v => ∃ i j : Int, 0 ≤ i ∧ i < dw ∧ 0 ≤ j ∧ j < dh ∧
        x = camX s (readArg 4 s) + i ∧ y = camY s (readArg 5 s) + j ∧
        u = intOf (readArg 0 s) + ⌊(intOf (readArg 2 s) * (if fx then dw - 1 - i else i) : ℚ) / dw⌋ ∧
        v = intOf (readArg 1 s) + ⌊(intOf (readArg 3 s) * (if fy then dh - 1 - j else j) : ℚ) / dh⌋) s)

/-- R243 (with R240, R67): MAP draws each cell's tile at its place, 8 pixels a cell; with a nonzero layer mask only tiles
whose flag byte shares a bit with it; cells outside the map are tile 0; nothing else changes. -/
def Obligations.MapBlits : Prop :=
  encode .map = 0x52 ∧
  ∀ (s : State) (l : Byte), l = byteValue (readArg 6 s) → operandsWritten .map s = true →
    Blits .map (fun x y u v => ∃ (ti tj : Int) (du dv : Nat) (t : Byte),
      0 ≤ ti ∧ ti < intOf (readArg 4 s) ∧ 0 ≤ tj ∧ tj < intOf (readArg 5 s) ∧ du < 8 ∧ dv < 8 ∧
      t = mapRead s.mem (intOf (readArg 0 s) + ti) (intOf (readArg 1 s) + tj) ∧
      (l = 0 ∨ ∃ b < 8, l.getLsbD b = true ∧ (s.mem.read (0x3000 + t.toNat)).getLsbD b = true) ∧
      x = camX s (readArg 2 s) + 8 * ti + du ∧ y = camY s (readArg 3 s) + 8 * tj + dv ∧
      u = (t.toNat % 16 * 8 + du : Nat) ∧ v = (t.toNat / 16 * 8 + dv : Nat)) s

/-- R244, R245, R246, R247 (with R65, R67): SGET and SSET on the sheet's pixels, MGET and MSET on the map's cells: no camera,
clip or palette; outside the sheet or the map a read gives 0 and a write is dropped; nothing else changes. -/
def Obligations.SheetAndMapCells : Prop :=
  encode .sget = 0x53 ∧ encode .sset = 0x54 ∧ encode .mget = 0x55 ∧ encode .mset = 0x56 ∧
  ∀ (s : State) (x y : Int), x = intOf (readArg 0 s) → y = intOf (readArg 1 s) →
    (operandsWritten .sget s = true → ∃ w, exec .sget s = .next (s.setResult w) ∧
      (¬inSquare x y → w = 0) ∧
      (inSquare x y → x % 2 = 0 → u32 w = (s.mem.read (64 * y + x / 2).toNat).toNat % 16) ∧
      (inSquare x y → x % 2 = 1 → u32 w = (s.mem.read (64 * y + x / 2).toNat).toNat / 16)) ∧
    (operandsWritten .sset s = true → ∃ t, exec .sset s = .next t ∧ t = s.setMem t.mem ∧
      (∀ x' y', gfxRead t.mem x' y' = if inSquare x y ∧ x' = x ∧ y' = y then colOf (readArg 2 s) else gfxRead s.mem x' y') ∧
      ∀ a, 0x2000 ≤ a → t.mem.read a = s.mem.read a) ∧
    (operandsWritten .mget s = true → ∃ w, exec .mget s = .next (s.setResult w) ∧
      (0 ≤ x → x < 128 → 0 ≤ y → y < 32 → u32 w = (s.mem.read (0x2000 + 128 * y + x).toNat).toNat) ∧
      (0 ≤ x → x < 128 → 32 ≤ y → y < 64 → u32 w = (s.mem.read (0x1000 + 128 * (y - 32) + x).toNat).toNat) ∧
      (¬inMap x y → w = 0)) ∧
    (operandsWritten .mset s = true → ∃ t, exec .mset s = .next t ∧ t = s.setMem t.mem ∧
      ∀ a : Nat, t.mem.read a =
        if inMap x y ∧ (a : Int) = (if y < 32 then 0x2000 + 128 * y + x else 0x1000 + 128 * (y - 32) + x)
        then byteValue (readArg 2 s) else s.mem.read a)

/-- R248, R249, R250, R251 (with R68): FGET, FGETB, FSET and FSETB on the flag byte of sprite `n` at `0x3000 + n`; a number or
bit index out of range reads 0 and drops the write; nothing else changes. -/
def Obligations.SpriteFlags : Prop :=
  encode .fget = 0x57 ∧ encode .fgetb = 0x58 ∧ encode .fset = 0x59 ∧ encode .fsetb = 0x5a ∧
  ∀ (s : State) (n f : Int), n = intOf (readArg 0 s) → f = intOf (readArg 1 s) →
    (operandsWritten .fget s = true → ∃ w, exec .fget s = .next (s.setResult w) ∧
      (0 ≤ n → n < 256 → u32 w = (s.mem.read (0x3000 + n).toNat).toNat) ∧ (¬(0 ≤ n ∧ n < 256) → w = 0)) ∧
    (operandsWritten .fgetb s = true → ∃ w, exec .fgetb s = .next (s.setResult w) ∧
      (w = 0 ∨ w = 1) ∧
      (w = 1 ↔ 0 ≤ n ∧ n < 256 ∧ 0 ≤ f ∧ f < 8 ∧ (s.mem.read (0x3000 + n).toNat).getLsbD f.toNat = true)) ∧
    (operandsWritten .fset s = true → ∃ t, exec .fset s = .next t ∧ t = s.setMem t.mem ∧
      ∀ a : Nat, t.mem.read a =
        if 0 ≤ n ∧ n < 256 ∧ (a : Int) = 0x3000 + n then byteValue (readArg 1 s) else s.mem.read a) ∧
    (operandsWritten .fsetb s = true → ∃ t, exec .fsetb s = .next t ∧ t = s.setMem t.mem ∧
      ∀ (a b : Nat), b < 8 → (t.mem.read a).getLsbD b =
        if 0 ≤ n ∧ n < 256 ∧ (a : Int) = 0x3000 + n ∧ (b : Int) = f then decide (readArg 2 s ≠ 0)
        else (s.mem.read a).getLsbD b)

/-! ### Text -/

/-- R270, R272, R273, R275 (with R202): PRINT draws the glyphs of TBUF's first `L` bytes at the camera-adjusted position,
with the pen rule; it reads and writes no cursor; a length outside `0..256` raises BAD_OPERAND and draws nothing. The advance
is R271's. -/
def Obligations.PrintDraws : Prop :=
  (∃ advCtrl ∈ [0, 4, 8], ∃ adv9A ∈ [4, 8], ∀ b : Byte,
    (0x20 ≤ b.toNat → b.toNat ≤ 0x99 → adv b = 4) ∧ (0x9a ≤ b.toNat → b.toNat ≤ 0x9f → adv b = adv9A) ∧
    (0xa0 ≤ b.toNat → adv b = 8) ∧ (b.toNat ≤ 0x1f → b ≠ 0x0a → adv b = advCtrl)) ∧
  ∀ (c : Bool) (s : State) (l : Int), l = intOf (readArg 0 s) →
    encode (.print c) = (if c then 0x160 else 0x060) ∧
    (operandsWritten (.print c) s = true → 0 ≤ l → l ≤ 256 →
      DrawsWithPen (.print c) 3 (TextPixel (s.tbuf.toList.take l.toNat) (camX s (readArg 1 s)) (camY s (readArg 2 s))) s) ∧
    (operandsWritten (.print c) s = true → l < 0 ∨ 256 < l →
      exec (.print c) s = .next { s with fault := some .badOperand, faddr := 0 })

/-- R276, R277 (with R202, R270, R273): PRINTC takes the pen; if CURSOR_Y is above 116.0 the screen moves up six rows and the
cursor with it; the text is drawn at the cursor; the cursor then moves down six rows for each line; nothing else changes. A
length outside `0..256` raises BAD_OPERAND. -/
def Obligations.PrintcDraws : Prop :=
  ∀ (c : Bool) (s : State) (l : Int) (bs : List Byte), l = intOf (readArg 0 s) → bs = s.tbuf.toList.take l.toNat →
    encode (.printc c) = (if c then 0x161 else 0x061) ∧
    (operandsWritten (.printc c) s = true → 0 ≤ l → l ≤ 256 →
      ∃ (t : State) (m : Memory) (cy : Word), exec (.printc c) s = .next t ∧
        t = { s with pen := t.pen, mem := t.mem, cursorY := t.cursorY } ∧
        t.pen = (if c then readArg 1 s else s.pen) ∧
        (s32 s.cursorY ≤ 116 * 65536 → m = s.mem ∧ cy = s.cursorY) ∧
        (116 * 65536 < s32 s.cursorY → Wraps cy (s32 s.cursorY - 6 * 65536) ∧
          (∀ a, 0x6000 ≤ a → a ≤ 0x7e7f → m.read a = s.mem.read (a + 0x180)) ∧
          (∀ a, 0x7e80 ≤ a → a ≤ 0x7fff → m.read a = 0) ∧
          ∀ a, ¬(0x6000 ≤ a ∧ a < 0x8000) → m.read a = s.mem.read a) ∧
        Drawn s.clip (colorBits s t.pen) (TextPixel bs (camX s s.cursorX) (camY s cy)) m t.mem ∧
        Wraps t.cursorY (s32 cy + (1 + bs.count 0x0a : Nat) * (6 * 65536))) ∧
    (operandsWritten (.printc c) s = true → l < 0 ∨ 256 < l →
      exec (.printc c) s = .next { s with fault := some .badOperand, faddr := 0 })

/-! ### Audio -/

/-- R290, R291: WAVE returns an amplitude in `[-1.0, 1.0]` that depends on its operands alone: the saw is `2p - 65536` and the
square 1.0 or -1.0 by halves of the phase; an id outside `0..7` raises BAD_OPERAND. -/
def Obligations.WaveReturns : Prop :=
  encode .wave = 0x70 ∧
  ∀ (s : State) (k : Int) (p : Nat), operandsWritten .wave s = true → k = intOf (readArg 0 s) →
    p = u32 (readArg 1 s) % 65536 →
    (0 ≤ k → k ≤ 7 → ∃ w, exec .wave s = .next (s.setResult w) ∧ -65536 ≤ s32 w ∧ s32 w ≤ 65536 ∧
      (k = 2 → s32 w = 2 * p - 65536) ∧
      (k = 3 → s32 w = if (p < 0x8000 ↔ Config.squareHighFirst = true) then 65536 else -65536) ∧
      ∀ s' : State, operandsWritten .wave s' = true → intOf (readArg 0 s') = k → u32 (readArg 1 s') % 65536 = p →
        exec .wave s' = .next (s'.setResult w)) ∧
    (k < 0 ∨ 7 < k → exec .wave s = .next { s with fault := some .badOperand, faddr := 0 })

/-- R292: CHSET writes one channel record, the row modulo 0x10000; a channel outside `0..3` raises BAD_OPERAND; nothing else
changes. -/
def Obligations.ChsetWrites : Prop :=
  encode .chset = 0x71 ∧
  ∀ (s : State) (k : Int), operandsWritten .chset s = true → k = intOf (readArg 0 s) →
    (0 ≤ k → k ≤ 3 → ∃ t, exec .chset s = .next t ∧ t = { s with channels := t.channels } ∧
      ∀ j : Fin 4, ((j.val : Int) ≠ k → t.channels[j] = s.channels[j]) ∧
        ((j.val : Int) = k → t.channels[j].sfx.toInt = intOf (readArg 1 s) ∧
          (t.channels[j].row.toNat : Int) = intOf (readArg 2 s) % 0x10000)) ∧
    (k < 0 ∨ 3 < k → exec .chset s = .next { s with fault := some .badOperand, faddr := 0 })

end Obligations
end

