-- ==== Sys2Proof/Laws/State.lean ====
section
/-! SUPPORT. What each update of the state does to each field: one lemma per field per update, true by `rfl`. -/

namespace Sys2Proof.Machine.State

variable (s : State)

/-! ### setResult -/

@[simp] theorem setResult_mem (w : Word) : (State.setResult w s).mem = s.mem := rfl
@[simp] theorem setResult_args (w : Word) : (State.setResult w s).args = s.args := rfl
@[simp] theorem setResult_argWritten (w : Word) : (State.setResult w s).argWritten = s.argWritten := rfl
@[simp] theorem setResult_result (w : Word) : (State.setResult w s).result = w := rfl
@[simp] theorem setResult_resultWritten (w : Word) : (State.setResult w s).resultWritten = true := rfl
@[simp] theorem setResult_pen (w : Word) : (State.setResult w s).pen = s.pen := rfl
@[simp] theorem setResult_fillp (w : Word) : (State.setResult w s).fillp = s.fillp := rfl
@[simp] theorem setResult_clip (w : Word) : (State.setResult w s).clip = s.clip := rfl
@[simp] theorem setResult_cameraX (w : Word) : (State.setResult w s).cameraX = s.cameraX := rfl
@[simp] theorem setResult_cameraY (w : Word) : (State.setResult w s).cameraY = s.cameraY := rfl
@[simp] theorem setResult_cursorX (w : Word) : (State.setResult w s).cursorX = s.cursorX := rfl
@[simp] theorem setResult_cursorY (w : Word) : (State.setResult w s).cursorY = s.cursorY := rfl
@[simp] theorem setResult_dpal (w : Word) : (State.setResult w s).dpal = s.dpal := rfl
@[simp] theorem setResult_spal (w : Word) : (State.setResult w s).spal = s.spal := rfl
@[simp] theorem setResult_transp (w : Word) : (State.setResult w s).transp = s.transp := rfl
@[simp] theorem setResult_channels (w : Word) : (State.setResult w s).channels = s.channels := rfl
@[simp] theorem setResult_fault (w : Word) : (State.setResult w s).fault = s.fault := rfl
@[simp] theorem setResult_faddr (w : Word) : (State.setResult w s).faddr = s.faddr := rfl
@[simp] theorem setResult_tbuf (w : Word) : (State.setResult w s).tbuf = s.tbuf := rfl
@[simp] theorem setResult_tbufWritten (w : Word) : (State.setResult w s).tbufWritten = s.tbufWritten := rfl
@[simp] theorem setResult_rom (w : Word) : (State.setResult w s).rom = s.rom := rfl
@[simp] theorem setResult_inbox (w : Word) : (State.setResult w s).inbox = s.inbox := rfl
@[simp] theorem setResult_replies (w : Word) : (State.setResult w s).replies = s.replies := rfl

/-! ### setMem -/

@[simp] theorem setMem_mem (m : Memory) : (State.setMem m s).mem = m := rfl
@[simp] theorem setMem_args (m : Memory) : (State.setMem m s).args = s.args := rfl
@[simp] theorem setMem_argWritten (m : Memory) : (State.setMem m s).argWritten = s.argWritten := rfl
@[simp] theorem setMem_result (m : Memory) : (State.setMem m s).result = s.result := rfl
@[simp] theorem setMem_resultWritten (m : Memory) : (State.setMem m s).resultWritten = s.resultWritten := rfl
@[simp] theorem setMem_pen (m : Memory) : (State.setMem m s).pen = s.pen := rfl
@[simp] theorem setMem_fillp (m : Memory) : (State.setMem m s).fillp = s.fillp := rfl
@[simp] theorem setMem_clip (m : Memory) : (State.setMem m s).clip = s.clip := rfl
@[simp] theorem setMem_cameraX (m : Memory) : (State.setMem m s).cameraX = s.cameraX := rfl
@[simp] theorem setMem_cameraY (m : Memory) : (State.setMem m s).cameraY = s.cameraY := rfl
@[simp] theorem setMem_cursorX (m : Memory) : (State.setMem m s).cursorX = s.cursorX := rfl
@[simp] theorem setMem_cursorY (m : Memory) : (State.setMem m s).cursorY = s.cursorY := rfl
@[simp] theorem setMem_dpal (m : Memory) : (State.setMem m s).dpal = s.dpal := rfl
@[simp] theorem setMem_spal (m : Memory) : (State.setMem m s).spal = s.spal := rfl
@[simp] theorem setMem_transp (m : Memory) : (State.setMem m s).transp = s.transp := rfl
@[simp] theorem setMem_channels (m : Memory) : (State.setMem m s).channels = s.channels := rfl
@[simp] theorem setMem_fault (m : Memory) : (State.setMem m s).fault = s.fault := rfl
@[simp] theorem setMem_faddr (m : Memory) : (State.setMem m s).faddr = s.faddr := rfl
@[simp] theorem setMem_tbuf (m : Memory) : (State.setMem m s).tbuf = s.tbuf := rfl
@[simp] theorem setMem_tbufWritten (m : Memory) : (State.setMem m s).tbufWritten = s.tbufWritten := rfl
@[simp] theorem setMem_rom (m : Memory) : (State.setMem m s).rom = s.rom := rfl
@[simp] theorem setMem_inbox (m : Memory) : (State.setMem m s).inbox = s.inbox := rfl
@[simp] theorem setMem_replies (m : Memory) : (State.setMem m s).replies = s.replies := rfl

/-! ### raiseFault -/

@[simp] theorem raiseFault_mem (f : Fault) (a : Word) : (State.raiseFault f a s).mem = s.mem := rfl
@[simp] theorem raiseFault_args (f : Fault) (a : Word) : (State.raiseFault f a s).args = s.args := rfl
@[simp] theorem raiseFault_argWritten (f : Fault) (a : Word) : (State.raiseFault f a s).argWritten = s.argWritten := rfl
@[simp] theorem raiseFault_result (f : Fault) (a : Word) : (State.raiseFault f a s).result = s.result := rfl
@[simp] theorem raiseFault_resultWritten (f : Fault) (a : Word) : (State.raiseFault f a s).resultWritten = s.resultWritten := rfl
@[simp] theorem raiseFault_pen (f : Fault) (a : Word) : (State.raiseFault f a s).pen = s.pen := rfl
@[simp] theorem raiseFault_fillp (f : Fault) (a : Word) : (State.raiseFault f a s).fillp = s.fillp := rfl
@[simp] theorem raiseFault_clip (f : Fault) (a : Word) : (State.raiseFault f a s).clip = s.clip := rfl
@[simp] theorem raiseFault_cameraX (f : Fault) (a : Word) : (State.raiseFault f a s).cameraX = s.cameraX := rfl
@[simp] theorem raiseFault_cameraY (f : Fault) (a : Word) : (State.raiseFault f a s).cameraY = s.cameraY := rfl
@[simp] theorem raiseFault_cursorX (f : Fault) (a : Word) : (State.raiseFault f a s).cursorX = s.cursorX := rfl
@[simp] theorem raiseFault_cursorY (f : Fault) (a : Word) : (State.raiseFault f a s).cursorY = s.cursorY := rfl
@[simp] theorem raiseFault_dpal (f : Fault) (a : Word) : (State.raiseFault f a s).dpal = s.dpal := rfl
@[simp] theorem raiseFault_spal (f : Fault) (a : Word) : (State.raiseFault f a s).spal = s.spal := rfl
@[simp] theorem raiseFault_transp (f : Fault) (a : Word) : (State.raiseFault f a s).transp = s.transp := rfl
@[simp] theorem raiseFault_channels (f : Fault) (a : Word) : (State.raiseFault f a s).channels = s.channels := rfl
@[simp] theorem raiseFault_fault (f : Fault) (a : Word) : (State.raiseFault f a s).fault = some f := rfl
@[simp] theorem raiseFault_faddr (f : Fault) (a : Word) : (State.raiseFault f a s).faddr = a := rfl
@[simp] theorem raiseFault_tbuf (f : Fault) (a : Word) : (State.raiseFault f a s).tbuf = s.tbuf := rfl
@[simp] theorem raiseFault_tbufWritten (f : Fault) (a : Word) : (State.raiseFault f a s).tbufWritten = s.tbufWritten := rfl
@[simp] theorem raiseFault_rom (f : Fault) (a : Word) : (State.raiseFault f a s).rom = s.rom := rfl
@[simp] theorem raiseFault_inbox (f : Fault) (a : Word) : (State.raiseFault f a s).inbox = s.inbox := rfl
@[simp] theorem raiseFault_replies (f : Fault) (a : Word) : (State.raiseFault f a s).replies = s.replies := rfl

/-! ### clearFault -/

@[simp] theorem clearFault_mem : (State.clearFault s).mem = s.mem := rfl
@[simp] theorem clearFault_args : (State.clearFault s).args = s.args := rfl
@[simp] theorem clearFault_argWritten : (State.clearFault s).argWritten = s.argWritten := rfl
@[simp] theorem clearFault_result : (State.clearFault s).result = s.result := rfl
@[simp] theorem clearFault_resultWritten : (State.clearFault s).resultWritten = s.resultWritten := rfl
@[simp] theorem clearFault_pen : (State.clearFault s).pen = s.pen := rfl
@[simp] theorem clearFault_fillp : (State.clearFault s).fillp = s.fillp := rfl
@[simp] theorem clearFault_clip : (State.clearFault s).clip = s.clip := rfl
@[simp] theorem clearFault_cameraX : (State.clearFault s).cameraX = s.cameraX := rfl
@[simp] theorem clearFault_cameraY : (State.clearFault s).cameraY = s.cameraY := rfl
@[simp] theorem clearFault_cursorX : (State.clearFault s).cursorX = s.cursorX := rfl
@[simp] theorem clearFault_cursorY : (State.clearFault s).cursorY = s.cursorY := rfl
@[simp] theorem clearFault_dpal : (State.clearFault s).dpal = s.dpal := rfl
@[simp] theorem clearFault_spal : (State.clearFault s).spal = s.spal := rfl
@[simp] theorem clearFault_transp : (State.clearFault s).transp = s.transp := rfl
@[simp] theorem clearFault_channels : (State.clearFault s).channels = s.channels := rfl
@[simp] theorem clearFault_fault : (State.clearFault s).fault = none := rfl
@[simp] theorem clearFault_faddr : (State.clearFault s).faddr = 0 := rfl
@[simp] theorem clearFault_tbuf : (State.clearFault s).tbuf = s.tbuf := rfl
@[simp] theorem clearFault_tbufWritten : (State.clearFault s).tbufWritten = s.tbufWritten := rfl
@[simp] theorem clearFault_rom : (State.clearFault s).rom = s.rom := rfl
@[simp] theorem clearFault_inbox : (State.clearFault s).inbox = s.inbox := rfl
@[simp] theorem clearFault_replies : (State.clearFault s).replies = s.replies := rfl

/-! ### reply -/

@[simp] theorem reply_mem (r : Reply) : (State.reply r s).mem = s.mem := rfl
@[simp] theorem reply_args (r : Reply) : (State.reply r s).args = s.args := rfl
@[simp] theorem reply_argWritten (r : Reply) : (State.reply r s).argWritten = s.argWritten := rfl
@[simp] theorem reply_result (r : Reply) : (State.reply r s).result = s.result := rfl
@[simp] theorem reply_resultWritten (r : Reply) : (State.reply r s).resultWritten = s.resultWritten := rfl
@[simp] theorem reply_pen (r : Reply) : (State.reply r s).pen = s.pen := rfl
@[simp] theorem reply_fillp (r : Reply) : (State.reply r s).fillp = s.fillp := rfl
@[simp] theorem reply_clip (r : Reply) : (State.reply r s).clip = s.clip := rfl
@[simp] theorem reply_cameraX (r : Reply) : (State.reply r s).cameraX = s.cameraX := rfl
@[simp] theorem reply_cameraY (r : Reply) : (State.reply r s).cameraY = s.cameraY := rfl
@[simp] theorem reply_cursorX (r : Reply) : (State.reply r s).cursorX = s.cursorX := rfl
@[simp] theorem reply_cursorY (r : Reply) : (State.reply r s).cursorY = s.cursorY := rfl
@[simp] theorem reply_dpal (r : Reply) : (State.reply r s).dpal = s.dpal := rfl
@[simp] theorem reply_spal (r : Reply) : (State.reply r s).spal = s.spal := rfl
@[simp] theorem reply_transp (r : Reply) : (State.reply r s).transp = s.transp := rfl
@[simp] theorem reply_channels (r : Reply) : (State.reply r s).channels = s.channels := rfl
@[simp] theorem reply_fault (r : Reply) : (State.reply r s).fault = s.fault := rfl
@[simp] theorem reply_faddr (r : Reply) : (State.reply r s).faddr = s.faddr := rfl
@[simp] theorem reply_tbuf (r : Reply) : (State.reply r s).tbuf = s.tbuf := rfl
@[simp] theorem reply_tbufWritten (r : Reply) : (State.reply r s).tbufWritten = s.tbufWritten := rfl
@[simp] theorem reply_rom (r : Reply) : (State.reply r s).rom = s.rom := rfl
@[simp] theorem reply_inbox (r : Reply) : (State.reply r s).inbox = s.inbox := rfl
@[simp] theorem reply_replies (r : Reply) : (State.reply r s).replies = s.replies ++ [r] := rfl

end Sys2Proof.Machine.State

namespace Sys2Proof.Machine

variable (s : State)

/-! ### takePen -/

@[simp] theorem takePen_false (p : Fin 8) : takePen false p s = s := rfl
@[simp] theorem takePen_pen (c : Bool) (p : Fin 8) : (takePen c p s).pen = if c then readArg p s else s.pen := by
  cases c <;> rfl
@[simp] theorem takePen_mem (c : Bool) (p : Fin 8) : (takePen c p s).mem = s.mem := by cases c <;> rfl
@[simp] theorem takePen_args (c : Bool) (p : Fin 8) : (takePen c p s).args = s.args := by cases c <;> rfl
@[simp] theorem takePen_argWritten (c : Bool) (p : Fin 8) : (takePen c p s).argWritten = s.argWritten := by cases c <;> rfl
@[simp] theorem takePen_result (c : Bool) (p : Fin 8) : (takePen c p s).result = s.result := by cases c <;> rfl
@[simp] theorem takePen_resultWritten (c : Bool) (p : Fin 8) : (takePen c p s).resultWritten = s.resultWritten := by cases c <;> rfl
@[simp] theorem takePen_fillp (c : Bool) (p : Fin 8) : (takePen c p s).fillp = s.fillp := by cases c <;> rfl
@[simp] theorem takePen_clip (c : Bool) (p : Fin 8) : (takePen c p s).clip = s.clip := by cases c <;> rfl
@[simp] theorem takePen_cameraX (c : Bool) (p : Fin 8) : (takePen c p s).cameraX = s.cameraX := by cases c <;> rfl
@[simp] theorem takePen_cameraY (c : Bool) (p : Fin 8) : (takePen c p s).cameraY = s.cameraY := by cases c <;> rfl
@[simp] theorem takePen_cursorX (c : Bool) (p : Fin 8) : (takePen c p s).cursorX = s.cursorX := by cases c <;> rfl
@[simp] theorem takePen_cursorY (c : Bool) (p : Fin 8) : (takePen c p s).cursorY = s.cursorY := by cases c <;> rfl
@[simp] theorem takePen_dpal (c : Bool) (p : Fin 8) : (takePen c p s).dpal = s.dpal := by cases c <;> rfl
@[simp] theorem takePen_spal (c : Bool) (p : Fin 8) : (takePen c p s).spal = s.spal := by cases c <;> rfl
@[simp] theorem takePen_transp (c : Bool) (p : Fin 8) : (takePen c p s).transp = s.transp := by cases c <;> rfl
@[simp] theorem takePen_channels (c : Bool) (p : Fin 8) : (takePen c p s).channels = s.channels := by cases c <;> rfl
@[simp] theorem takePen_fault (c : Bool) (p : Fin 8) : (takePen c p s).fault = s.fault := by cases c <;> rfl
@[simp] theorem takePen_faddr (c : Bool) (p : Fin 8) : (takePen c p s).faddr = s.faddr := by cases c <;> rfl
@[simp] theorem takePen_tbuf (c : Bool) (p : Fin 8) : (takePen c p s).tbuf = s.tbuf := by cases c <;> rfl
@[simp] theorem takePen_tbufWritten (c : Bool) (p : Fin 8) : (takePen c p s).tbufWritten = s.tbufWritten := by cases c <;> rfl
@[simp] theorem takePen_rom (c : Bool) (p : Fin 8) : (takePen c p s).rom = s.rom := by cases c <;> rfl
@[simp] theorem takePen_inbox (c : Bool) (p : Fin 8) : (takePen c p s).inbox = s.inbox := by cases c <;> rfl
@[simp] theorem takePen_replies (c : Bool) (p : Fin 8) : (takePen c p s).replies = s.replies := by cases c <;> rfl

/-! ### writeArg and writeTbuf -/

@[simp] theorem writeArg_mem (i : Fin 8) (w : Word) : (writeArg i w s).mem = s.mem := rfl
@[simp] theorem writeArg_result (i : Fin 8) (w : Word) : (writeArg i w s).result = s.result := rfl
@[simp] theorem writeArg_resultWritten (i : Fin 8) (w : Word) : (writeArg i w s).resultWritten = s.resultWritten := rfl
@[simp] theorem writeArg_pen (i : Fin 8) (w : Word) : (writeArg i w s).pen = s.pen := rfl
@[simp] theorem writeArg_fillp (i : Fin 8) (w : Word) : (writeArg i w s).fillp = s.fillp := rfl
@[simp] theorem writeArg_clip (i : Fin 8) (w : Word) : (writeArg i w s).clip = s.clip := rfl
@[simp] theorem writeArg_cameraX (i : Fin 8) (w : Word) : (writeArg i w s).cameraX = s.cameraX := rfl
@[simp] theorem writeArg_cameraY (i : Fin 8) (w : Word) : (writeArg i w s).cameraY = s.cameraY := rfl
@[simp] theorem writeArg_cursorX (i : Fin 8) (w : Word) : (writeArg i w s).cursorX = s.cursorX := rfl
@[simp] theorem writeArg_cursorY (i : Fin 8) (w : Word) : (writeArg i w s).cursorY = s.cursorY := rfl
@[simp] theorem writeArg_dpal (i : Fin 8) (w : Word) : (writeArg i w s).dpal = s.dpal := rfl
@[simp] theorem writeArg_spal (i : Fin 8) (w : Word) : (writeArg i w s).spal = s.spal := rfl
@[simp] theorem writeArg_transp (i : Fin 8) (w : Word) : (writeArg i w s).transp = s.transp := rfl
@[simp] theorem writeArg_channels (i : Fin 8) (w : Word) : (writeArg i w s).channels = s.channels := rfl
@[simp] theorem writeArg_fault (i : Fin 8) (w : Word) : (writeArg i w s).fault = s.fault := rfl
@[simp] theorem writeArg_faddr (i : Fin 8) (w : Word) : (writeArg i w s).faddr = s.faddr := rfl
@[simp] theorem writeArg_tbuf (i : Fin 8) (w : Word) : (writeArg i w s).tbuf = s.tbuf := rfl
@[simp] theorem writeArg_tbufWritten (i : Fin 8) (w : Word) : (writeArg i w s).tbufWritten = s.tbufWritten := rfl
@[simp] theorem writeArg_rom (i : Fin 8) (w : Word) : (writeArg i w s).rom = s.rom := rfl
@[simp] theorem writeArg_inbox (i : Fin 8) (w : Word) : (writeArg i w s).inbox = s.inbox := rfl
@[simp] theorem writeArg_replies (i : Fin 8) (w : Word) : (writeArg i w s).replies = s.replies := rfl
@[simp] theorem writeTbuf_mem (j : Fin 64) (w : Word) : (writeTbuf j w s).mem = s.mem := rfl
@[simp] theorem writeTbuf_args (j : Fin 64) (w : Word) : (writeTbuf j w s).args = s.args := rfl
@[simp] theorem writeTbuf_argWritten (j : Fin 64) (w : Word) : (writeTbuf j w s).argWritten = s.argWritten := rfl
@[simp] theorem writeTbuf_result (j : Fin 64) (w : Word) : (writeTbuf j w s).result = s.result := rfl
@[simp] theorem writeTbuf_resultWritten (j : Fin 64) (w : Word) : (writeTbuf j w s).resultWritten = s.resultWritten := rfl
@[simp] theorem writeTbuf_pen (j : Fin 64) (w : Word) : (writeTbuf j w s).pen = s.pen := rfl
@[simp] theorem writeTbuf_fillp (j : Fin 64) (w : Word) : (writeTbuf j w s).fillp = s.fillp := rfl
@[simp] theorem writeTbuf_clip (j : Fin 64) (w : Word) : (writeTbuf j w s).clip = s.clip := rfl
@[simp] theorem writeTbuf_cameraX (j : Fin 64) (w : Word) : (writeTbuf j w s).cameraX = s.cameraX := rfl
@[simp] theorem writeTbuf_cameraY (j : Fin 64) (w : Word) : (writeTbuf j w s).cameraY = s.cameraY := rfl
@[simp] theorem writeTbuf_cursorX (j : Fin 64) (w : Word) : (writeTbuf j w s).cursorX = s.cursorX := rfl
@[simp] theorem writeTbuf_cursorY (j : Fin 64) (w : Word) : (writeTbuf j w s).cursorY = s.cursorY := rfl
@[simp] theorem writeTbuf_dpal (j : Fin 64) (w : Word) : (writeTbuf j w s).dpal = s.dpal := rfl
@[simp] theorem writeTbuf_spal (j : Fin 64) (w : Word) : (writeTbuf j w s).spal = s.spal := rfl
@[simp] theorem writeTbuf_transp (j : Fin 64) (w : Word) : (writeTbuf j w s).transp = s.transp := rfl
@[simp] theorem writeTbuf_channels (j : Fin 64) (w : Word) : (writeTbuf j w s).channels = s.channels := rfl
@[simp] theorem writeTbuf_fault (j : Fin 64) (w : Word) : (writeTbuf j w s).fault = s.fault := rfl
@[simp] theorem writeTbuf_faddr (j : Fin 64) (w : Word) : (writeTbuf j w s).faddr = s.faddr := rfl
@[simp] theorem writeTbuf_rom (j : Fin 64) (w : Word) : (writeTbuf j w s).rom = s.rom := rfl
@[simp] theorem writeTbuf_inbox (j : Fin 64) (w : Word) : (writeTbuf j w s).inbox = s.inbox := rfl
@[simp] theorem writeTbuf_replies (j : Fin 64) (w : Word) : (writeTbuf j w s).replies = s.replies := rfl

end Sys2Proof.Machine
end

