-- ==== Sys2Proof/Laws/Memory.lean ====
section
/-! SUPPORT. The laws of memory: a read after a write, that every memory operation keeps the canonical form, and that two
canonical memories that read the same are the same list. -/

namespace Sys2Proof.Machine

namespace Memory

@[simp] theorem read_nil (a : Nat) : Memory.read [] a = 0 := rfl

theorem read_cons (k : Nat) (b : Byte) (m : Memory) (a : Nat) :
    Memory.read ((k, b) :: m) a = if k = a then b else m.read a := rfl

/-- An address no cell lists reads 0. -/
theorem read_of_forall_ne {m : Memory} {a : Nat} (h : ∀ c ∈ m, c.1 ≠ a) : m.read a = 0 := by
  induction m with
  | nil => rfl
  | cons c m ih =>
    rw [show c = (c.1, c.2) from rfl, read_cons, if_neg (h c (by simp))]
    exact ih fun d hd => h d (by simp [hd])

theorem read_append (m m' : Memory) (a : Nat) :
    Memory.read (m ++ m') a = if (∃ c ∈ m, c.1 = a) then m.read a else m'.read a := by
  induction m with
  | nil => simp
  | cons c m ih =>
    rw [show c = (c.1, c.2) from rfl, List.cons_append, read_cons, read_cons, ih]
    by_cases hc : c.1 = a
    · simp [hc]
    · simp [hc]

/-- A read past a filter that keeps the address is the read. -/
theorem read_filter {m : Memory} {p : Nat → Prop} [DecidablePred p] {a : Nat} (ha : p a) :
    Memory.read (m.filter fun c => p c.1) a = m.read a := by
  induction m with
  | nil => rfl
  | cons c m ih =>
    by_cases hc : p c.1
    · rw [List.filter_cons_of_pos (by simpa using hc), show c = (c.1, c.2) from rfl, read_cons, read_cons, ih]
    · rw [List.filter_cons_of_neg (by simpa using hc), ih, show c = (c.1, c.2) from rfl, read_cons,
        if_neg (fun h => hc (by rw [h]; exact ha))]

theorem mem_cells {d n : Nat} {f : Nat → Byte} {c : Host.Cell} :
    c ∈ cells d n f ↔ ∃ k < n, f k ≠ 0 ∧ c = (d + k, f k) := by
  simp only [cells, List.mem_filterMap, List.mem_range]
  constructor
  · rintro ⟨k, hk, h⟩
    by_cases hf : f k = 0
    · rw [if_pos hf] at h
      cases h
    · rw [if_neg hf] at h
      exact ⟨k, hk, hf, (Option.some.inj h).symm⟩
  · rintro ⟨k, hk, hf, rfl⟩
    exact ⟨k, hk, if_neg hf⟩

theorem cells_pairwise (d n : Nat) (f : Nat → Byte) : (cells d n f).Pairwise fun c c' => c.1 < c'.1 := by
  refine List.Pairwise.filterMap (R := (· < ·)) _ ?_ List.pairwise_lt_range
  intro a b hab c hc c' hc'
  split at hc
  · cases hc
  · split at hc'
    · cases hc'
    · cases hc
      cases hc'
      simpa using hab

theorem read_cells {d n : Nat} {f : Nat → Byte} {a : Nat} :
    Memory.read (cells d n f) a = if d ≤ a ∧ a < d + n then f (a - d) else 0 := by
  induction n with
  | zero => simp [cells]
  | succ n ih =>
    have h : cells d (n + 1) f = cells d n f ++ if f n = 0 then [] else [(d + n, f n)] := by
      simp only [cells, List.range_succ, List.filterMap_append, List.filterMap_cons, List.filterMap_nil]
      split <;> simp_all
    rw [h, read_append]
    by_cases hc : ∃ c ∈ cells d n f, c.1 = a
    · rw [if_pos hc, ih]
      obtain ⟨c, hc, rfl⟩ := hc
      obtain ⟨k, hk, -, rfl⟩ := mem_cells.1 hc
      have h1 : d ≤ d + k ∧ d + k < d + n := ⟨by omega, by omega⟩
      have h2 : d ≤ d + k ∧ d + k < d + (n + 1) := ⟨by omega, by omega⟩
      rw [if_pos h1, if_pos h2]
    · rw [if_neg hc]
      by_cases ha : a = d + n
      · subst ha
        have hin : d ≤ d + n ∧ d + n < d + (n + 1) := ⟨by omega, by omega⟩
        rw [if_pos hin, Nat.add_sub_cancel_left]
        split
        · rename_i hf
          exact hf.symm
        · rw [read_cons, if_pos rfl]
      · have h0 : Memory.read (if f n = 0 then [] else [(d + n, f n)]) a = 0 := by
          split
          · rfl
          · rw [read_cons, if_neg (Ne.symm ha), read_nil]
        rw [h0]
        by_cases hin : d ≤ a ∧ a < d + (n + 1)
        · rw [if_pos hin]
          by_contra hne
          exact hc ⟨(a, f (a - d)), mem_cells.2 ⟨a - d, by omega, fun h => hne h.symm, by
            rw [Nat.add_sub_cancel' hin.1]⟩, rfl⟩
        · rw [if_neg hin]

/-- A read after a run of bytes is written: the run's byte inside it, the old byte elsewhere. -/
theorem read_fill (m : Memory) (d n : Nat) (f : Nat → Byte) (a : Nat) :
    (m.fill d n f).read a = if d ≤ a ∧ a < d + n then f (a - d) else m.read a := by
  have hlow : ∀ c ∈ m.filter (fun c => c.1 < d), c.1 < d := fun c hc => by simpa using (List.mem_filter.1 hc).2
  unfold fill
  rw [List.append_assoc, read_append]
  by_cases h1 : a < d
  · have hr : Memory.read (m.filter fun c => c.1 < d) a = m.read a := read_filter (p := (· < d)) h1
    rw [if_neg (c := d ≤ a ∧ a < d + n) (by omega)]
    split
    · exact hr
    · rename_i hex
      have hz : Memory.read (m.filter fun c => c.1 < d) a = 0 :=
        read_of_forall_ne fun c hc h => hex ⟨c, hc, h⟩
      rw [read_append, if_neg, read_of_forall_ne, ← hr, hz]
      · intro c hc h
        have := (List.mem_filter.1 hc).2
        simp at this
        omega
      · rintro ⟨c, hc, rfl⟩
        obtain ⟨k, -, -, rfl⟩ := mem_cells.1 hc
        exact absurd h1 (by simp)
  · rw [if_neg (by rintro ⟨c, hc, rfl⟩; exact h1 (hlow c hc)), read_append]
    by_cases h2 : a < d + n
    · rw [if_pos (c := d ≤ a ∧ a < d + n) (by omega)]
      have hr : Memory.read (cells d n f) a = f (a - d) := by rw [read_cells, if_pos (by omega)]
      split
      · exact hr
      · rename_i hex
        rw [← hr, read_of_forall_ne (m := cells d n f) fun c hc h => hex ⟨c, hc, h⟩]
        refine read_of_forall_ne fun c hc h => ?_
        have := (List.mem_filter.1 hc).2
        simp at this
        omega
    · rw [if_neg (c := d ≤ a ∧ a < d + n) (by omega), if_neg]
      · exact read_filter (p := fun k => d + n ≤ k) (by omega)
      · rintro ⟨c, hc, rfl⟩
        obtain ⟨k, hk, -, rfl⟩ := mem_cells.1 hc
        exact h2 (by simp; omega)

/-- Writing a run of bytes inside memory keeps the canonical form. -/
theorem fill_wf {m : Memory} (hm : m.wf) {d n : Nat} (f : Nat → Byte) (hd : d + n ≤ Config.memSize) :
    (m.fill d n f).wf := by
  have hlow : ∀ c ∈ m.filter (fun c => c.1 < d), c.1 < d := fun c hc => by simpa using (List.mem_filter.1 hc).2
  have hhigh : ∀ c ∈ m.filter (fun c => d + n ≤ c.1), d + n ≤ c.1 := fun c hc => by
    simpa using (List.mem_filter.1 hc).2
  have hmid : ∀ c ∈ cells d n f, d ≤ c.1 ∧ c.1 < d + n ∧ c.2 ≠ 0 := fun c hc => by
    obtain ⟨k, hk, hf, rfl⟩ := mem_cells.1 hc
    exact ⟨by simp, by simpa using hk, hf⟩
  constructor
  · unfold fill
    rw [List.append_assoc, List.pairwise_append, List.pairwise_append]
    refine ⟨hm.1.filter _, ⟨cells_pairwise d n f, hm.1.filter _, ?_⟩, ?_⟩
    · intro c hc c' hc'
      have := hmid c hc
      have := hhigh c' hc'
      omega
    · intro c hc c' hc'
      have := hlow c hc
      rcases List.mem_append.1 hc' with h | h
      · have := hmid c' h
        omega
      · have := hhigh c' h
        omega
  · intro c hc
    unfold fill at hc
    rcases List.mem_append.1 hc with h | h
    · rcases List.mem_append.1 h with h | h
      · exact hm.2 c (List.mem_filter.1 h).1
      · have := hmid c h
        exact ⟨by omega, this.2.2⟩
    · exact hm.2 c (List.mem_filter.1 h).1

@[simp] theorem read_write (m : Memory) (a : Nat) (b : Byte) (a' : Nat) :
    (m.write a b).read a' = if a' = a then b else m.read a' := by
  rw [write, read_fill]
  by_cases h : a' = a
  · rw [if_pos (by omega), if_pos h]
  · rw [if_neg (by omega), if_neg h]

theorem write_wf {m : Memory} (hm : m.wf) {a : Nat} (b : Byte) (ha : a < Config.memSize) : (m.write a b).wf :=
  fill_wf hm _ ha

theorem read_writeNibble (m : Memory) (a x : Nat) (c : Nibble) (a' : Nat) :
    (m.writeNibble a x c).read a' = if a' = a then setNibble x c (m.read a) else m.read a' := by
  rw [writeNibble, read_write]

theorem writeNibble_wf {m : Memory} (hm : m.wf) {a : Nat} (x : Nat) (c : Nibble) (ha : a < Config.memSize) :
    (m.writeNibble a x c).wf := write_wf hm _ ha

/-- In a canonical memory, an address outside memory reads 0. -/
theorem read_outside {m : Memory} (hm : m.wf) {a : Nat} (ha : Config.memSize ≤ a) : m.read a = 0 :=
  read_of_forall_ne fun c hc h => by have := (hm.2 c hc).1; omega

/-- In a canonical memory, the byte at an address is `b ≠ 0` iff the cell `(a, b)` is listed. -/
theorem mem_iff_read {m : Memory} (hm : m.wf) {a : Nat} {b : Byte} (hb : b ≠ 0) : (a, b) ∈ m ↔ m.read a = b := by
  obtain ⟨hp, hz⟩ := hm
  induction m with
  | nil => simpa using Ne.symm hb
  | cons c m ih =>
    rw [List.pairwise_cons] at hp
    have ih := ih hp.2 fun d hd => hz d (by simp [hd])
    rw [show c = (c.1, c.2) from rfl, read_cons, List.mem_cons]
    by_cases hc : c.1 = a
    · rw [if_pos hc]
      constructor
      · rintro (h | h)
        · exact (congrArg Prod.snd h).symm
        · exact absurd (hp.1 _ h) (by simp [hc])
      · intro h
        left
        rw [← hc, ← h]
    · rw [if_neg hc, ← ih]
      constructor
      · rintro (h | h)
        · exact absurd (congrArg Prod.fst h).symm hc
        · exact h
      · exact .inr

/-- Canonical memories that read the same are equal. -/
theorem ext_read {m m' : Memory} (hm : m.wf) (hm' : m'.wf) (h : ∀ a, m.read a = m'.read a) : m = m' := by
  have hmem : ∀ c, c ∈ m ↔ c ∈ m' := fun ⟨a, b⟩ => by
    by_cases hb : b = 0
    · subst hb
      exact ⟨fun hc => absurd rfl (hm.2 _ hc).2, fun hc => absurd rfl (hm'.2 _ hc).2⟩
    · rw [mem_iff_read hm hb, mem_iff_read hm' hb, h a]
  exact List.Perm.eq_of_pairwise (le := fun c c' : Host.Cell => c.1 < c'.1)
    (fun a b _ _ h1 h2 => absurd h1 (by omega)) hm.1 hm'.1
    ((List.perm_ext_iff_of_nodup (hm.1.imp fun h => by rintro rfl; omega)
      (hm'.1.imp fun h => by rintro rfl; omega)).2 hmem)

end Memory

end Sys2Proof.Machine
end

