-- ==== Sys2Proof/Laws/Pixels.lean ====
section
/-! SUPPORT. The laws of the typed views and of the pixel write path: a pixel read after a pixel write, what a draw leaves
alone, and that it keeps the canonical form. -/

namespace Sys2Proof.Machine

/-! ### Nibbles -/

/-- A bit of two nibbles put together. -/
theorem getLsbD_nibbles (hi lo : Nibble) (i : Nat) :
    BitVec.getLsbD (w := 8) (hi ++ lo) i = if i < 4 then lo.getLsbD i else hi.getLsbD (i - 4) :=
  BitVec.getLsbD_append

theorem nibbleOf_setNibble_same {x y : Nat} (h : x % 2 = y % 2) (c : Nibble) (b : Byte) :
    nibbleOf y (setNibble x c b) = c := by
  unfold nibbleOf setNibble
  rw [h]
  split <;> ext i hi <;> rw [BitVec.getElem_extractLsb', getLsbD_nibbles] <;> simp [hi]

theorem nibbleOf_setNibble_other {x y : Nat} (h : x % 2 ≠ y % 2) (c : Nibble) (b : Byte) :
    nibbleOf y (setNibble x c b) = nibbleOf y b := by
  unfold nibbleOf setNibble
  rcases Nat.mod_two_eq_zero_or_one x with hx | hx
  · have hy : ¬y % 2 = 0 := by omega
    rw [if_pos hx, if_neg hy, if_neg hy]
    ext i hi
    rw [BitVec.getElem_extractLsb', getLsbD_nibbles]
    simp [hi]
  · have hx' : ¬x % 2 = 0 := by omega
    have hy : y % 2 = 0 := by omega
    rw [if_neg hx', if_pos hy, if_pos hy]
    ext i hi
    rw [BitVec.getElem_extractLsb', getLsbD_nibbles]
    simp [hi]

/-! ### Addresses -/

theorem screenAddr_range {x y : Nat} (hx : x < 128) (hy : y < 128) :
    0x6000 ≤ screenAddr x y ∧ screenAddr x y < 0x8000 := by
  unfold screenAddr
  omega

theorem screenAddr_inj {x y x' y' : Nat} (hx : x < 128) (hx' : x' < 128) :
    screenAddr x y = screenAddr x' y' ↔ y = y' ∧ x / 2 = x' / 2 := by
  unfold screenAddr
  omega

theorem gfxAddr_range {x y : Nat} (hx : x < 128) (hy : y < 128) : gfxAddr x y < 0x2000 := by
  unfold gfxAddr
  omega

theorem gfxAddr_inj {x y x' y' : Nat} (hx : x < 128) (hx' : x' < 128) :
    gfxAddr x y = gfxAddr x' y' ↔ y = y' ∧ x / 2 = x' / 2 := by
  unfold gfxAddr
  omega

theorem mapAddr_range {x y : Nat} (hx : x < 128) (hy : y < 64) : 0x1000 ≤ mapAddr x y ∧ mapAddr x y < 0x3000 := by
  unfold mapAddr
  split <;> omega

/-! ### SCREEN pixels -/

theorem screenRead_screenWrite {x y : Int} (h : inSquare x y) {x' y' : Int} (h' : inSquare x' y') (c : Nibble)
    (m : Memory) : screenRead (screenWrite x' y' c m) x y = if x = x' ∧ y = y' then c else screenRead m x y := by
  unfold screenRead screenWrite
  rw [if_pos h, if_pos h', if_pos h, Memory.read_writeNibble]
  by_cases ha : screenAddr x.toNat y.toNat = screenAddr x'.toNat y'.toNat
  · rw [if_pos ha, ← ha]
    rw [screenAddr_inj (by omega) (by omega)] at ha
    by_cases hx : x = x'
    · rw [if_pos ⟨hx, by omega⟩, nibbleOf_setNibble_same (by omega)]
    · rw [if_neg (fun hh => hx hh.1), nibbleOf_setNibble_other (by omega)]
  · rw [if_neg ha, if_neg]
    rintro ⟨rfl, rfl⟩
    exact ha rfl

theorem screenWrite_read {a : Nat} (ha : ¬(0x6000 ≤ a ∧ a < 0x8000)) (x y : Int) (c : Nibble) (m : Memory) :
    (screenWrite x y c m).read a = m.read a := by
  unfold screenWrite
  split
  · rename_i h
    rw [Memory.read_writeNibble, if_neg]
    rintro rfl
    exact ha (screenAddr_range (by omega) (by omega))
  · rfl

theorem screenWrite_wf {m : Memory} (hm : m.wf) (x y : Int) (c : Nibble) : (screenWrite x y c m).wf := by
  unfold screenWrite
  split
  · rename_i h
    exact Memory.writeNibble_wf hm _ _ (screenAddr_range (by omega) (by omega)).2
  · exact hm

/-! ### Sprite-sheet pixels -/

theorem gfxRead_gfxWrite {x y : Int} (h : inSquare x y) {x' y' : Int} (h' : inSquare x' y') (c : Nibble)
    (m : Memory) : gfxRead (gfxWrite x' y' c m) x y = if x = x' ∧ y = y' then c else gfxRead m x y := by
  unfold gfxRead gfxWrite
  rw [if_pos h, if_pos h', if_pos h, Memory.read_writeNibble]
  by_cases ha : gfxAddr x.toNat y.toNat = gfxAddr x'.toNat y'.toNat
  · rw [if_pos ha, ← ha]
    rw [gfxAddr_inj (by omega) (by omega)] at ha
    by_cases hx : x = x'
    · rw [if_pos ⟨hx, by omega⟩, nibbleOf_setNibble_same (by omega)]
    · rw [if_neg (fun hh => hx hh.1), nibbleOf_setNibble_other (by omega)]
  · rw [if_neg ha, if_neg]
    rintro ⟨rfl, rfl⟩
    exact ha rfl

theorem gfxWrite_read {a : Nat} (ha : 0x2000 ≤ a) (x y : Int) (c : Nibble) (m : Memory) :
    (gfxWrite x y c m).read a = m.read a := by
  unfold gfxWrite
  split
  · rename_i h
    rw [Memory.read_writeNibble, if_neg]
    have := gfxAddr_range (x := x.toNat) (y := y.toNat) (by omega) (by omega)
    omega
  · rfl

theorem gfxWrite_wf {m : Memory} (hm : m.wf) (x y : Int) (c : Nibble) : (gfxWrite x y c m).wf := by
  unfold gfxWrite
  split
  · rename_i h
    have := gfxAddr_range (x := x.toNat) (y := y.toNat) (by omega) (by omega)
    exact Memory.writeNibble_wf hm _ _ (by simp only [Config.memSize]; omega)
  · exact hm

/-- Memories that agree below SCREEN show the same sprite sheet. -/
theorem gfxRead_congr {m m' : Memory} (h : ∀ a < 0x6000, m.read a = m'.read a) (x y : Int) :
    gfxRead m x y = gfxRead m' x y := by
  unfold gfxRead
  split
  · rename_i hs
    have := gfxAddr_range (x := x.toNat) (y := y.toNat) (by omega) (by omega)
    rw [h _ (by omega)]
  · rfl

/-- Memories that agree below SCREEN show the same map. -/
theorem mapRead_congr {m m' : Memory} (h : ∀ a < 0x6000, m.read a = m'.read a) (cx cy : Int) :
    mapRead m cx cy = mapRead m' cx cy := by
  unfold mapRead
  split
  · rename_i hs
    have := mapAddr_range (x := cx.toNat) (y := cy.toNat) (by omega) (by omega)
    rw [h _ (by omega)]
  · rfl

/-! ### Map cells -/

theorem mapWrite_wf {m : Memory} (hm : m.wf) (cx cy : Int) (b : Byte) : (mapWrite cx cy b m).wf := by
  unfold mapWrite
  split
  · rename_i h
    have := mapAddr_range (x := cx.toNat) (y := cy.toNat) (by omega) (by omega)
    exact Memory.write_wf hm _ (by simp only [Config.memSize]; omega)
  · exact hm

/-! ### The pixel write -/

theorem screenRead_pixelWrite {x y : Int} (h : inSquare x y) (clip : Clip) (cb : Word) (x' y' : Int) (m : Memory) :
    screenRead (pixelWrite clip cb x' y' m) x y =
      if x = x' ∧ y = y' ∧ clip.contains x y = true then (pixelColor cb x y).getD (screenRead m x y)
      else screenRead m x y := by
  unfold pixelWrite
  by_cases hp : x = x' ∧ y = y'
  · obtain ⟨rfl, rfl⟩ := hp
    by_cases hc : clip.contains x y = true
    · rw [if_pos hc, if_pos ⟨rfl, rfl, hc⟩]
      cases pixelColor cb x y with
      | none => rfl
      | some c =>
        simp only [Option.getD_some]
        rw [screenRead_screenWrite h h, if_pos ⟨rfl, rfl⟩]
    · rw [if_neg hc, if_neg fun hh => hc hh.2.2]
  · have hn : ¬(x = x' ∧ y = y' ∧ clip.contains x y = true) := fun hh => hp ⟨hh.1, hh.2.1⟩
    rw [if_neg hn]
    split
    · cases pixelColor cb x' y' with
      | none => rfl
      | some c =>
        by_cases h' : inSquare x' y'
        · rw [screenRead_screenWrite h h', if_neg hp]
        · show screenRead (screenWrite x' y' c m) x y = screenRead m x y
          unfold screenWrite
          rw [if_neg h']
    · rfl

theorem pixelWrite_read {a : Nat} (ha : ¬(0x6000 ≤ a ∧ a < 0x8000)) (clip : Clip) (cb : Word) (x y : Int)
    (m : Memory) : (pixelWrite clip cb x y m).read a = m.read a := by
  unfold pixelWrite
  split
  · cases pixelColor cb x y with
    | none => rfl
    | some c => exact screenWrite_read ha x y c m
  · rfl

theorem pixelWrite_wf {m : Memory} (hm : m.wf) (clip : Clip) (cb : Word) (x y : Int) :
    (pixelWrite clip cb x y m).wf := by
  unfold pixelWrite
  split
  · cases pixelColor cb x y with
    | none => exact hm
    | some c => exact screenWrite_wf hm x y c
  · exact hm

/-! ### Draws -/

@[simp] theorem drawPoints_nil (clip : Clip) (cb : Word) (m : Memory) : drawPoints clip cb [] m = m := rfl

theorem drawPoints_cons (clip : Clip) (cb : Word) (p : Point) (ps : List Point) (m : Memory) :
    drawPoints clip cb (p :: ps) m = drawPoints clip cb ps (pixelWrite clip cb p.1 p.2 m) := rfl

/-- A pixel after a draw: the draw's color if the draw visits it inside the clip, else what it was. -/
theorem screenRead_drawPoints {x y : Int} (h : inSquare x y) (clip : Clip) (cb : Word) (ps : List Point) (m : Memory) :
    screenRead (drawPoints clip cb ps m) x y =
      if (x, y) ∈ ps ∧ clip.contains x y = true then (pixelColor cb x y).getD (screenRead m x y)
      else screenRead m x y := by
  induction ps generalizing m with
  | nil => simp
  | cons p ps ih =>
    rw [drawPoints_cons, ih, screenRead_pixelWrite h]
    by_cases hc : clip.contains x y = true
    · by_cases hp : (x, y) = p
      · subst hp
        simp only [hc, and_true, List.mem_cons, true_or, if_true]
        cases pixelColor cb x y <;> simp
      · have hp' : ¬(x = p.1 ∧ y = p.2 ∧ True) := fun hh => hp (Prod.ext hh.1 hh.2.1)
        simp only [hc, and_true, List.mem_cons, hp, false_or]
        simp only [and_true] at hp'
        rw [if_neg hp']
    · simp [hc]

theorem drawPoints_read {a : Nat} (ha : ¬(0x6000 ≤ a ∧ a < 0x8000)) (clip : Clip) (cb : Word) (ps : List Point)
    (m : Memory) : (drawPoints clip cb ps m).read a = m.read a := by
  induction ps generalizing m with
  | nil => rfl
  | cons p ps ih => rw [drawPoints_cons, ih, pixelWrite_read ha]

theorem drawPoints_wf {m : Memory} (hm : m.wf) (clip : Clip) (cb : Word) (ps : List Point) :
    (drawPoints clip cb ps m).wf := by
  induction ps generalizing m with
  | nil => exact hm
  | cons p ps ih => exact ih (pixelWrite_wf hm clip cb p.1 p.2)

/-! ### Sprite blits -/

theorem sprWrite_read {a : Nat} (ha : ¬(0x6000 ≤ a ∧ a < 0x8000)) (s : State) (x y : Int) (c : Nibble) (m : Memory) :
    (sprWrite s x y c m).read a = m.read a := by
  unfold sprWrite
  split
  · rfl
  · exact pixelWrite_read ha _ _ x y m

theorem sprWrite_wf {m : Memory} (hm : m.wf) (s : State) (x y : Int) (c : Nibble) : (sprWrite s x y c m).wf := by
  unfold sprWrite
  split
  · exact hm
  · exact pixelWrite_wf hm _ _ x y

theorem blit_cons (s : State) (c : Copy) (cs : List Copy) (m : Memory) :
    blit s (c :: cs) m = blit s cs (sprWrite s c.x c.y (gfxRead m c.u c.v) m) := rfl

theorem blit_read {a : Nat} (ha : ¬(0x6000 ≤ a ∧ a < 0x8000)) (s : State) (cs : List Copy) (m : Memory) :
    (blit s cs m).read a = m.read a := by
  induction cs generalizing m with
  | nil => rfl
  | cons c cs ih => rw [blit_cons, ih, sprWrite_read ha]

theorem blit_wf {m : Memory} (hm : m.wf) (s : State) (cs : List Copy) : (blit s cs m).wf := by
  induction cs generalizing m with
  | nil => exact hm
  | cons c cs ih => exact ih (sprWrite_wf hm s c.x c.y _)

theorem drawTile_read {a : Nat} (ha : ¬(0x6000 ≤ a ∧ a < 0x8000)) (s : State) (l : Byte) (cx cy x y : Int)
    (m : Memory) : (drawTile s l cx cy x y m).read a = m.read a := by
  unfold drawTile
  simp only
  split
  · exact blit_read ha s _ m
  · rfl

theorem drawTile_wf {m : Memory} (hm : m.wf) (s : State) (l : Byte) (cx cy x y : Int) :
    (drawTile s l cx cy x y m).wf := by
  unfold drawTile
  simp only
  split
  · exact blit_wf hm s _
  · exact hm

/-! ### Pixels outside the clip -/

theorem pixelWrite_clipped {clip : Clip} {x y : Int} (h : inSquare x y) (hc : clip.contains x y = false) (cb : Word)
    (x' y' : Int) (m : Memory) : screenRead (pixelWrite clip cb x' y' m) x y = screenRead m x y := by
  rw [screenRead_pixelWrite h, if_neg (by simp [hc])]

theorem drawPoints_clipped {clip : Clip} {x y : Int} (h : inSquare x y) (hc : clip.contains x y = false) (cb : Word)
    (ps : List Point) (m : Memory) : screenRead (drawPoints clip cb ps m) x y = screenRead m x y := by
  rw [screenRead_drawPoints h, if_neg (by simp [hc])]

theorem sprWrite_clipped {s : State} {x y : Int} (h : inSquare x y) (hc : s.clip.contains x y = false) (x' y' : Int)
    (c : Nibble) (m : Memory) : screenRead (sprWrite s x' y' c m) x y = screenRead m x y := by
  unfold sprWrite
  split
  · rfl
  · exact pixelWrite_clipped h hc _ x' y' m

theorem blit_clipped {s : State} {x y : Int} (h : inSquare x y) (hc : s.clip.contains x y = false) (cs : List Copy)
    (m : Memory) : screenRead (blit s cs m) x y = screenRead m x y := by
  induction cs generalizing m with
  | nil => rfl
  | cons c cs ih => rw [blit_cons, ih, sprWrite_clipped h hc]

theorem drawTile_clipped {s : State} {x y : Int} (h : inSquare x y) (hc : s.clip.contains x y = false) (l : Byte)
    (cx cy x' y' : Int) (m : Memory) : screenRead (drawTile s l cx cy x' y' m) x y = screenRead m x y := by
  unfold drawTile
  simp only
  split
  · exact blit_clipped h hc _ m
  · rfl

/-- What holds of a memory and is kept by every step of a fold holds at its end. -/
theorem foldl_keeps {α : Type} {P : Memory → Prop} {f : Memory → α → Memory} (hf : ∀ m a, P m → P (f m a)) (l : List α)
    {m : Memory} (hm : P m) : P (l.foldl f m) := by
  induction l generalizing m with
  | nil => exact hm
  | cons a l ih => exact ih (hf m a hm)

/-! ### Scroll -/

theorem scroll6_wf {m : Memory} (hm : m.wf) : (scroll6 m).wf :=
  Memory.fill_wf hm _ (by decide)

theorem read_scroll6 (m : Memory) (a : Nat) :
    (scroll6 m).read a =
      if 0x6000 ≤ a ∧ a < 0x7e80 then m.read (a + 0x180) else if 0x7e80 ≤ a ∧ a < 0x8000 then 0 else m.read a := by
  unfold scroll6
  rw [Memory.read_fill]
  by_cases h : 0x6000 ≤ a ∧ a < 0x6000 + 0x2000
  · rw [if_pos h]
    by_cases h' : a - 0x6000 < 0x1e80
    · rw [if_pos h', if_pos (by omega), show 0x6000 + (a - 0x6000) + 0x180 = a + 0x180 by omega]
    · rw [if_neg h', if_neg (by omega), if_pos (by omega)]
  · rw [if_neg h, if_neg (by omega), if_neg (by omega)]

end Sys2Proof.Machine
end

