-- ==== Sys2Proof/Laws/Commands.lean ====
section
/-! SUPPORT. Everything a command can do, said once: `exec_effect` gives, for every command and state, the next state and the
kind of change it is, so that a frame or an invariant is a short case analysis over `Effect`. -/

namespace Sys2Proof.Machine

/-! ### Shared operations -/

theorem argInt_eq (i : Fin 8) (s : State) : argInt i s = intOf (readArg i s) := rfl

theorem argX_eq (i : Fin 8) (s : State) : argX i s = camX s (readArg i s) := rfl

theorem argY_eq (i : Fin 8) (s : State) : argY i s = camY s (readArg i s) := rfl

theorem storeRun_ok {d n : Nat} (h : n = 0 ∨ d + n ≤ 0x8000) (f : Nat → Byte) (s : State) :
    storeRun d n f s = .next (s.setMem (s.mem.fill d n f)) := by
  unfold storeRun
  rw [if_neg (by simp only [Config.memSize]; omega)]

theorem storeRun_fault {d n : Nat} (h : 0 < n) (h' : 0x8000 < d + n) (f : Nat → Byte) (s : State) :
    storeRun d n f s = .next (s.raiseFault .badMemoryAccess (BitVec.ofNat 32 (max d 0x8000))) := by
  unfold storeRun
  rw [if_pos ⟨h, h'⟩]
  rfl

theorem addrOf_lt (v : Word) : addrOf v < 0x10000 := by
  unfold addrOf
  omega

/-- A run of no bytes changes no byte. -/
theorem Memory.fill_zero_wf {m : Memory} (hm : m.wf) (d : Nat) (f : Nat → Byte) : (m.fill d 0 f).wf := by
  have h : m.fill d 0 f = m.filter (fun c => c.1 < d) ++ m.filter (fun c => d ≤ c.1) := by
    simp [Memory.fill, Memory.cells]
  rw [h]
  refine ⟨List.pairwise_append.2 ⟨hm.1.filter _, hm.1.filter _, ?_⟩, ?_⟩
  · intro c hc c' hc'
    have h1 := (List.mem_filter.1 hc).2
    have h2 := (List.mem_filter.1 hc').2
    simp only [decide_eq_true_eq] at h1 h2
    omega
  · intro c hc
    rcases List.mem_append.1 hc with h | h <;> exact hm.2 c (List.mem_filter.1 h).1

theorem takePen_eq (c : Bool) (p : Fin 8) (s : State) :
    takePen c p s = { s with pen := if c then readArg p s else s.pen } := by
  cases c <;> rfl

/-- Everything `drawWith` does: the pen is taken and the points are drawn with the color-bits word of the pen. -/
theorem drawWith_eq (c : Bool) (p : Fin 8) (ps : List Point) (s : State) :
    drawWith c p ps s = .next ((takePen c p s).setMem
      (drawPoints s.clip (colorBits s (takePen c p s).pen) ps s.mem)) := by
  cases c <;> rfl

/-! ### The kinds of command -/

theorem not_returnsValue_of_isDraw {i : Instr} (h : isDraw i = true) : returnsValue i = false := by
  cases i <;> first | rfl | cases h

theorem not_isStore_of_isDraw {i : Instr} (h : isDraw i = true) : isStore i = false := by
  cases i <;> first | rfl | cases h

theorem not_returnsValue_of_isStore {i : Instr} (h : isStore i = true) : returnsValue i = false := by
  cases i <;> first | rfl | cases h

/-! ### The effect of a command -/

/-- What a command can do to a state. -/
inductive Effect (s : State) : Instr → State → Prop where
  /-- It returns a value. -/
  | returned {i : Instr} (h : returnsValue i = true) (w : Word) : Effect s i (s.setResult w)
  /-- It stores to memory. -/
  | stored {i : Instr} (h : isStore i = true) (m : Memory) (wf : s.mem.wf → m.wf) : Effect s i (s.setMem m)
  /-- It draws. -/
  | drew {i : Instr} (h : isDraw i = true) (hi : ∀ c, i ≠ .printc c) (pen : Word) (m : Memory)
      (hpen : hasPen i = false → pen = s.pen)
      (hpen' : ∀ p : Fin 8, hasPen i = true → p.val = plainOperands i → pen = readArg p s)
      (wf : s.mem.wf → m.wf)
      (outside : ∀ a, ¬(0x6000 ≤ a ∧ a < 0x8000) → m.read a = s.mem.read a)
      (clipped : i ≠ .cls → ∀ x y, inSquare x y → s.clip.contains x y = false → screenRead m x y = screenRead s.mem x y) :
      Effect s i ({ s with pen := pen }.setMem m)
  /-- It prints at the cursor. -/
  | printed (c : Bool) (m : Memory) (y : Word) (wf : s.mem.wf → m.wf)
      (outside : ∀ a, ¬(0x6000 ≤ a ∧ a < 0x8000) → m.read a = s.mem.read a)
      (clipped : s32 s.cursorY ≤ 116 * 65536 →
        ∀ x y, inSquare x y → s.clip.contains x y = false → screenRead m x y = screenRead s.mem x y) :
      Effect s (.printc c) { s with pen := if c then readArg 1 s else s.pen, mem := m, cursorY := y }
  | moveCamera (x y : BitVec 16) : Effect s .camera { s with cameraX := x, cameraY := y }
  | setClip {i : Instr} (h : i = .clip ∨ i = .cliprst) (c : Clip) (hc : c.bounded) : Effect s i { s with clip := c }
  | setPalette (d p : Vector Nibble 16) : Effect s .pal { s with dpal := d, spal := p }
  | setTransparency (t : Vector Bool 16) : Effect s .palt { s with transp := t }
  | resetPalettes (d p : Vector Nibble 16) (t : Vector Bool 16) (f : Word) :
      Effect s .palrst { s with dpal := d, spal := p, transp := t, fillp := f }
  | setPen (w : Word) : Effect s .color { s with pen := w }
  | setPattern (w : Word) : Effect s .fillp { s with fillp := w }
  | moveCursor (x y : Word) : Effect s .cursor { s with cursorX := x, cursorY := y }
  | setChannel (c : Vector Channel 4) : Effect s .chset { s with channels := c }
  /-- It faults, and only the record is made. -/
  | faulted {i : Instr} (k : Fault) (a : Word) (h : ({ s with fault := some k, faddr := a }).faultCoherent = true) :
      Effect s i (s.raiseFault k a)

theorem returnWord_effect {i : Instr} (h : returnsValue i = true) (w : Word) (s : State) :
    ∃ t, returnWord w s = .next t ∧ Effect s i t := ⟨_, rfl, .returned h w⟩

theorem badOperand_effect (i : Instr) (s : State) :
    ∃ t, raiseFault .badOperand 0 s = .next t ∧ Effect s i t := ⟨_, rfl, .faulted _ _ rfl⟩

theorem storeRun_effect {i : Instr} (h : isStore i = true) {d n : Nat} (hd : d < 0x10000) (f : Nat → Byte) (s : State) :
    ∃ t, storeRun d n f s = .next t ∧ Effect s i t := by
  by_cases hn : 0 < n ∧ 0x8000 < d + n
  · refine ⟨_, storeRun_fault hn.1 hn.2 f s, .faulted _ _ ?_⟩
    simp only [State.faultCoherent, Config.memSize, BitVec.toNat_ofNat, Bool.and_eq_true, decide_eq_true_eq]
    omega
  · refine ⟨_, storeRun_ok (by omega) f s, .stored h _ fun hm => ?_⟩
    rcases Nat.eq_zero_or_pos n with rfl | hpos
    · exact Memory.fill_zero_wf hm d f
    · exact Memory.fill_wf hm f (by simp only [Config.memSize]; omega)

theorem drawWith_effect {i : Instr} (h : isDraw i = true) (hi : ∀ c, i ≠ .printc c) {p : Fin 8}
    (hp : p.val = plainOperands i) (ps : List Point) (s : State) :
    ∃ t, drawWith (hasPen i) p ps s = .next t ∧ Effect s i t := by
  refine ⟨_, drawWith_eq _ p ps s, ?_⟩
  rw [takePen_eq]
  refine .drew h hi _ _ ?_ ?_ (fun hm => drawPoints_wf hm _ _ ps) (fun a ha => drawPoints_read ha _ _ ps _)
    fun _ x y hs hc => drawPoints_clipped hs hc _ ps _
  · intro hf
    rw [hf, if_neg (by simp)]
  · intro q hq hq'
    rw [hq, if_pos rfl, show q = p from Fin.ext (by omega)]

theorem blit_effect {i : Instr} (h : isDraw i = true) (hi : ∀ c, i ≠ .printc c) (hp : hasPen i = false) {m : Memory}
    (s : State) (wf : s.mem.wf → m.wf)
    (outside : ∀ a, ¬(0x6000 ≤ a ∧ a < 0x8000) → m.read a = s.mem.read a)
    (clipped : i ≠ .cls → ∀ x y, inSquare x y → s.clip.contains x y = false → screenRead m x y = screenRead s.mem x y) :
    ∃ t, (.next (s.setMem m) : Result) = .next t ∧ Effect s i t :=
  ⟨_, rfl, .drew h hi s.pen m (fun _ => rfl) (fun p hp' => by rw [hp] at hp'; cases hp') wf outside clipped⟩

theorem clipOf_bounded (x y w h : Int) : (clipOf x y w h).bounded := by
  unfold clipOf clamp Clip.bounded
  refine ⟨?_, ?_, ?_, ?_⟩ <;> simp only <;> omega

theorem scrollIfLow_mem_wf {s : State} (hm : s.mem.wf) : (scrollIfLow s).mem.wf := by
  unfold scrollIfLow
  split
  · exact scroll6_wf hm
  · exact hm

theorem scrollIfLow_read {a : Nat} (ha : ¬(0x6000 ≤ a ∧ a < 0x8000)) (s : State) :
    (scrollIfLow s).mem.read a = s.mem.read a := by
  unfold scrollIfLow
  split
  · show (scroll6 s.mem).read a = _
    rw [read_scroll6, if_neg (by omega), if_neg (by omega)]
  · rfl

theorem scrollIfLow_of_high {s : State} (h : s32 s.cursorY ≤ 116 * 65536) : scrollIfLow s = s := by
  unfold scrollIfLow
  rw [if_neg]
  have : s32 (fixOf 116) = 116 * 65536 := by decide
  omega

theorem scrollIfLow_of_low {s : State} (h : 116 * 65536 < s32 s.cursorY) :
    scrollIfLow s = { s with mem := scroll6 s.mem, cursorY := wrap32 (s32 s.cursorY - s32 (fixOf 6)) } := by
  unfold scrollIfLow
  rw [if_pos]
  have : s32 (fixOf 116) = 116 * 65536 := by decide
  omega

/-- A scroll changes memory and the cursor row alone. -/
theorem scrollIfLow_eq (s : State) :
    scrollIfLow s = { s with mem := (scrollIfLow s).mem, cursorY := (scrollIfLow s).cursorY } := by
  unfold scrollIfLow
  split <;> rfl

/-- Everything PRINTC does with a length in range: the pen is taken, the screen and the cursor scroll if the cursor is low,
the text is drawn at the cursor, and the cursor moves down its lines. -/
theorem execPrintc_eq {s : State} (h : isTextLength (argInt 0 s)) (c : Bool) :
    execPrintc c s = .next { s with
      pen := if c then readArg 1 s else s.pen
      mem := drawPoints s.clip (colorBits s (if c then readArg 1 s else s.pen))
        (textPoints Config.font adv (textBytes (argInt 0 s).toNat s) (camX s s.cursorX) (camY s (scrollIfLow s).cursorY))
        (scrollIfLow s).mem
      cursorY := wrap32 (s32 (scrollIfLow s).cursorY +
        lineCount (textBytes (argInt 0 s).toNat s) * s32 (fixOf 6)) } := by
  unfold execPrintc
  rw [if_pos h]
  by_cases hy : s32 (fixOf 116) < s32 s.cursorY
  · have h1 (c : Bool) : scrollIfLow (takePen c 1 s) = { takePen c 1 s with
        mem := scroll6 s.mem, cursorY := wrap32 (s32 s.cursorY - s32 (fixOf 6)) } := by
      cases c <;> exact if_pos hy
    have h2 : scrollIfLow s = { s with
        mem := scroll6 s.mem, cursorY := wrap32 (s32 s.cursorY - s32 (fixOf 6)) } := if_pos hy
    simp only [h1, h2]
    cases c <;> rfl
  · have h1 (c : Bool) : scrollIfLow (takePen c 1 s) = takePen c 1 s := by cases c <;> exact if_neg hy
    have h2 : scrollIfLow s = s := if_neg hy
    simp only [h1, h2]
    cases c <;> rfl

theorem execPrintc_effect (c : Bool) (s : State) : ∃ t, execPrintc c s = .next t ∧ Effect s (.printc c) t := by
  by_cases h : isTextLength (argInt 0 s)
  · refine ⟨_, execPrintc_eq h c, .printed c _ _ (fun hm => drawPoints_wf (scrollIfLow_mem_wf hm) _ _ _) ?_ ?_⟩
    · intro a ha
      rw [drawPoints_read ha, scrollIfLow_read ha]
    · intro hy x y hs hc
      rw [drawPoints_clipped hs hc, scrollIfLow_of_high hy]
  · unfold execPrintc
    rw [if_neg h]
    exact badOperand_effect _ s

/-- For every command and state: the command ends in a next state, and the change is one of `Effect`. -/
theorem exec_effect (i : Instr) (s : State) : ∃ t, exec i s = .next t ∧ Effect s i t := by
  cases i with
  | poke => exact storeRun_effect rfl (addrOf_lt _) _ s
  | poke4 => exact storeRun_effect rfl (addrOf_lt _) _ s
  | memcpy => exact storeRun_effect rfl (addrOf_lt _) _ s
  | memset => exact storeRun_effect rfl (addrOf_lt _) _ s
  | reload => exact storeRun_effect rfl (addrOf_lt _) _ s
  | camera => exact ⟨_, rfl, .moveCamera _ _⟩
  | clip => exact ⟨_, rfl, .setClip (.inl rfl) _ (clipOf_bounded _ _ _ _)⟩
  | cliprst => exact ⟨_, rfl, .setClip (.inr rfl) _ (by decide)⟩
  | pal =>
    show ∃ t, execPal s = .next t ∧ _
    unfold execPal
    simp only
    split
    · exact ⟨_, rfl, .setPalette s.dpal _⟩
    · exact ⟨_, rfl, .setPalette _ s.spal⟩
  | palt => exact ⟨_, rfl, .setTransparency _⟩
  | palrst => exact ⟨_, rfl, .resetPalettes _ _ _ _⟩
  | color => exact ⟨_, rfl, .setPen _⟩
  | fillp => exact ⟨_, rfl, .setPattern _⟩
  | cursor => exact ⟨_, rfl, .moveCursor _ _⟩
  | pset c => exact drawWith_effect (i := .pset c) rfl (by simp) (p := 2) rfl _ s
  | hline c => exact drawWith_effect (i := .hline c) rfl (by simp) (p := 3) rfl _ s
  | vline c => exact drawWith_effect (i := .vline c) rfl (by simp) (p := 3) rfl _ s
  | line c => exact drawWith_effect (i := .line c) rfl (by simp) (p := 4) rfl _ s
  | rect c => exact drawWith_effect (i := .rect c) rfl (by simp) (p := 4) rfl _ s
  | rectfill c => exact drawWith_effect (i := .rectfill c) rfl (by simp) (p := 4) rfl _ s
  | circ c => exact drawWith_effect (i := .circ c) rfl (by simp) (p := 3) rfl _ s
  | circfill c => exact drawWith_effect (i := .circfill c) rfl (by simp) (p := 3) rfl _ s
  | cls =>
    refine blit_effect (i := .cls) rfl (by simp) rfl s (fun hm => Memory.fill_wf hm _ (by decide)) ?_ (by simp)
    intro a ha
    rw [Memory.read_fill, if_neg (by omega)]
  | spr fx fy =>
    exact blit_effect (i := .spr fx fy) rfl (by simp) rfl s (fun hm => blit_wf hm s _) (fun a ha => blit_read ha s _ _)
      fun _ x y hs hc => blit_clipped hs hc _ _
  | sspr fx fy =>
    exact blit_effect (i := .sspr fx fy) rfl (by simp) rfl s (fun hm => blit_wf hm s _) (fun a ha => blit_read ha s _ _)
      fun _ x y hs hc => blit_clipped hs hc _ _
  | map =>
    refine blit_effect (i := .map) rfl (by simp) rfl s ?_ ?_ ?_
    · exact fun hm => foldl_keeps (P := Memory.wf) (fun m t h => drawTile_wf h s _ _ _ _ _) _ hm
    · intro a ha
      exact foldl_keeps (P := fun m => m.read a = s.mem.read a) (fun m t h => by rw [drawTile_read ha, h]) _ rfl
    · intro _ x y hs hc
      exact foldl_keeps (P := fun m => screenRead m x y = screenRead s.mem x y)
        (fun m t h => by rw [drawTile_clipped hs hc, h]) _ rfl
  | sset => exact ⟨_, rfl, .stored rfl _ fun hm => gfxWrite_wf hm _ _ _⟩
  | mset => exact ⟨_, rfl, .stored rfl _ fun hm => mapWrite_wf hm _ _ _⟩
  | fset =>
    show ∃ t, execFset s = .next t ∧ _
    unfold execFset
    simp only
    split
    · rename_i h
      exact ⟨_, rfl, .stored rfl _ fun hm => Memory.write_wf hm _ (by simp only [flagAddr, Config.memSize]; omega)⟩
    · exact ⟨_, rfl, .stored (m := s.mem) rfl fun hm => hm⟩
  | fsetb =>
    show ∃ t, execFsetb s = .next t ∧ _
    unfold execFsetb
    simp only
    split
    · rename_i h
      exact ⟨_, rfl, .stored rfl _ fun hm => Memory.write_wf hm _ (by simp only [flagAddr, Config.memSize]; omega)⟩
    · exact ⟨_, rfl, .stored (m := s.mem) rfl fun hm => hm⟩
  | print c =>
    show ∃ t, execPrint c s = .next t ∧ _
    unfold execPrint
    split
    · exact drawWith_effect (i := .print c) rfl (by simp) (p := 3) rfl _ s
    · exact badOperand_effect _ s
  | printc c => exact execPrintc_effect c s
  | wave =>
    show ∃ t, execWave s = .next t ∧ _
    unfold execWave
    split
    · exact returnWord_effect rfl _ s
    · exact badOperand_effect _ s
  | chset =>
    show ∃ t, execChset s = .next t ∧ _
    unfold execChset
    split
    · exact ⟨_, rfl, .setChannel _⟩
    · exact badOperand_effect _ s
  | _ => exact returnWord_effect rfl _ s

end Sys2Proof.Machine
end

