-- ==== Sys2Proof/Laws/HostPort.lean ====
section
/-! SUPPORT. What one step does: it serves the access that is next, and each kind of access has its result. -/

namespace Sys2Proof.Machine

@[simp] theorem step_withAccesses (a : HostAccess) (s : State) : step (s.withAccesses [a]) = serve a s := rfl

theorem stepWrite_eq (o : Nat) (w : Word) (s : State) : stepWrite o w s = hostWrite 32 o w s := rfl

theorem stepRead_eq (o : Nat) (s : State) : stepRead o s = hostRead 32 o s := rfl

theorem step_idle {s : State} (h : s.inbox = []) : step s = .next s := by
  unfold step serveNext
  rw [h]

theorem step_serve {s : State} {a : HostAccess} {rest : List HostAccess} (h : s.inbox = a :: rest) :
    step s = serve a { s with inbox := rest } := by
  unfold step serveNext
  rw [h]

theorem step_presentCommand (w : Word) (s : State) : step (presentCommand w s) = issue w s := rfl

/-- A state without its waiting accesses, whose next step is the serving of one, is that state presented with it. -/
theorem step_cons (a : HostAccess) (rest : List HostAccess) (s : State) :
    step { s with inbox := a :: rest } = serve a { s with inbox := rest } := rfl

/-! ### The register map -/

theorem registerAt_offset (r : Register) : registerAt r.offset = some r := by
  cases r with
  | arg i => fin_cases i <;> rfl
  | channel k => fin_cases k <;> rfl
  | tbuf j => fin_cases j <;> rfl
  | _ => rfl

theorem offset_mod_four (r : Register) : r.offset % 4 = 0 := by
  cases r <;> simp only [Register.offset] <;> omega

theorem addressed_offset (r : Register) : addressed 32 r.offset = .ok r := by
  unfold addressed
  rw [if_neg (by simp), if_neg (by simp [offset_mod_four]), registerAt_offset]

/-- A register found at a multiple of 4 stands at that offset. -/
theorem offset_of_registerAt {o : Nat} {r : Register} (ho : o % 4 = 0) (h : registerAt o = some r) : r.offset = o := by
  unfold registerAt at h
  split at h
  · cases h
    simp only [Register.offset]
    omega
  · split at h
    · cases h
      simp only [Register.offset]
      omega
    · split at h
      · cases h
        simp only [Register.offset]
        omega
      · split at h <;> first | (cases h; rfl) | cases h

theorem addressed_ok {width o : Nat} {r : Register} (h : addressed width o = .ok r) :
    width = 32 ∧ o = r.offset := by
  unfold addressed at h
  split at h
  · cases h
  · split at h
    · cases h
    · rename_i hw ho
      refine ⟨by simpa using hw, ?_⟩
      split at h
      · rename_i hr
        cases h
        exact (offset_of_registerAt (by simpa using ho) hr).symm
      · cases h

/-! ### Reads and writes -/

/-- The read of a register returns its word. -/
theorem hostRead_offset {r : Register} (hr : r ≠ .cmd) (s : State) :
    hostRead 32 r.offset s = .next (s.reply (.word (r.word s))) := by
  unfold hostRead
  rw [addressed_offset]
  cases r <;> first | exact absurd rfl hr | rfl

theorem readsUnwritten_read {r : Register} (hr : r ≠ .cmd) (s : State) :
    readsUnwritten (.read 32 r.offset) s = !r.holdsValue s := by
  unfold readsUnwritten
  simp only [addressed_offset]

theorem readsUnwritten_issue (w : Word) (s : State) {i : Instr} (hd : decode w = .ok i) :
    readsUnwritten (.write 32 0x020 w) s = (s.fault.isNone && !operandsWritten i s) := by
  show (match addressed 32 0x020, decode w with
    | .ok .cmd, .ok i => s.fault.isNone && !operandsWritten i s
    | _, _ => false) = _
  rw [hd]
  rfl

/-- Everything a host read can do: return a word and record nothing else, or be refused. -/
theorem hostRead_cases (width o : Nat) (s : State) :
    (∃ v, hostRead width o s = .next (s.reply (.word v))) ∨ ∃ e, hostRead width o s = .refused e := by
  unfold hostRead
  split
  · exact .inr ⟨_, rfl⟩
  · exact .inr ⟨_, rfl⟩
  · exact .inl ⟨_, rfl⟩

/-- Everything a host write can do: write an ARG register, STATUS or a TBUF word, issue a command, or be refused. -/
theorem hostWrite_cases (width o : Nat) (w : Word) (s : State) :
    (∃ i : Fin 8, width = 32 ∧ o = 4 * i.val ∧ hostWrite width o w s = .next (writeArg i w s)) ∨
    (width = 32 ∧ o = 0x020 ∧ hostWrite width o w s = issue w s) ∨
    (width = 32 ∧ o = 0x028 ∧ hostWrite width o w s = .next (writeStatus w s)) ∨
    (∃ j : Fin 64, width = 32 ∧ o = 0x100 + 4 * j.val ∧ hostWrite width o w s = .next (writeTbuf j w s)) ∨
    ∃ e, hostWrite width o w s = .refused e := by
  unfold hostWrite
  split <;> rename_i h
  · exact .inr (.inr (.inr (.inr ⟨_, rfl⟩)))
  · obtain ⟨hw, ho⟩ := addressed_ok h
    exact .inl ⟨_, hw, ho, rfl⟩
  · obtain ⟨hw, ho⟩ := addressed_ok h
    exact .inr (.inl ⟨hw, ho, rfl⟩)
  · obtain ⟨hw, ho⟩ := addressed_ok h
    exact .inr (.inr (.inl ⟨hw, ho, rfl⟩))
  · obtain ⟨hw, ho⟩ := addressed_ok h
    exact .inr (.inr (.inr (.inl ⟨_, hw, ho, rfl⟩)))
  · exact .inr (.inr (.inr (.inr ⟨_, rfl⟩)))

theorem hostWrite_arg (i : Fin 8) (w : Word) (s : State) : hostWrite 32 (4 * i.val) w s = .next (writeArg i w s) := by
  unfold hostWrite
  rw [show 4 * i.val = (Register.arg i).offset from rfl, addressed_offset]

theorem hostWrite_cmd (w : Word) (s : State) : hostWrite 32 0x020 w s = issue w s := rfl

theorem hostWrite_status (w : Word) (s : State) : hostWrite 32 0x028 w s = .next (writeStatus w s) := rfl

theorem hostWrite_tbuf (j : Fin 64) (w : Word) (s : State) :
    hostWrite 32 (0x100 + 4 * j.val) w s = .next (writeTbuf j w s) := by
  unfold hostWrite
  rw [show 0x100 + 4 * j.val = (Register.tbuf j).offset from rfl, addressed_offset]

theorem issue_faulted {w : Word} {s : State} (h : s.fault ≠ none) : issue w s = .next s := by
  unfold issue
  rw [if_pos (by cases hf : s.fault <;> simp_all)]

theorem issue_legal {w : Word} {s : State} {i : Instr} (h : s.fault = none) (hd : decode w = .ok i) :
    issue w s = exec i s := by
  unfold issue
  rw [if_neg (by simp [h]), hd]

theorem issue_illegal {w : Word} {s : State} (h : s.fault = none) (hd : ∀ i, decode w ≠ .ok i) :
    issue w s = raiseFault .illegalCommand 0 s := by
  unfold issue
  rw [if_neg (by simp [h])]
  cases hw : decode w with
  | error e => rfl
  | ok i => exact absurd hw (hd i)

/-- Everything a write of CMD can do: nothing while a fault is recorded, the record of an illegal word, or the command. -/
theorem issue_cases (w : Word) (s : State) :
    (s.fault ≠ none ∧ issue w s = .next s) ∨
    (s.fault = none ∧ (∀ i, decode w ≠ .ok i) ∧ issue w s = .next (s.raiseFault .illegalCommand 0)) ∨
    ∃ i, s.fault = none ∧ decode w = .ok i ∧ issue w s = exec i s := by
  by_cases h : s.fault = none
  · cases hd : decode w with
    | error e =>
      have hn : ∀ i, decode w ≠ .ok i := fun i hi => by simp [hd] at hi
      refine .inr (.inl ⟨h, ?_, issue_illegal h hn⟩)
      intro i hi
      cases hi
    | ok i => exact .inr (.inr ⟨i, h, rfl, issue_legal h hd⟩)
  · exact .inl ⟨h, issue_faulted h⟩

/-! ### The ROM port -/

theorem loadRom_wf {image : Memory} (h : image.wf) (s : State) :
    loadRom image s = .next { s with rom := .replaced image } := if_pos h

@[simp] theorem read_presented (a : Nat) : RomImage.presented.read a = Config.rom a := rfl

@[simp] theorem read_replaced (image : Memory) (a : Nat) : (RomImage.replaced image).read a = image.read a := rfl

/-! ### Fetching -/

/-- The step after `withFetchWord` of a legal word is the command. -/
theorem step_withFetchWord {s : State} {w : Word} {i : Instr} (h : s.fault = none) (hd : decode w = .ok i) :
    step (s.withFetchWord 32 w.toNat) = exec i s := by
  have hw : BitVec.ofNat 32 (w.toNat % 2 ^ 32) = w :=
    BitVec.eq_of_toNat_eq (by rw [BitVec.toNat_ofNat]; have := w.isLt; omega)
  unfold State.withFetchWord
  rw [hw, step_presentCommand]
  exact issue_legal h hd

/-! ### States that differ in unwritten values -/

theorem SameButUnwritten.refl (s : State) : SameButUnwritten s s :=
  ⟨rfl, fun _ _ => rfl, fun _ => rfl, fun _ _ => rfl⟩

/-- The operands of a command whose operands are written are the same in both states. -/
theorem SameButUnwritten.readArg_eq {s s' : State} (h : SameButUnwritten s s') {i : Instr} (ho : operandsWritten i s = true)
    {k : Fin 8} (hk : k ∈ argsRead i) : readArg k s' = readArg k s := by
  simp only [operandsWritten, Bool.and_eq_true, List.all_eq_true] at ho
  exact h.args k (ho.1 k hk)

theorem SameButUnwritten.tbuf_eq {s s' : State} (h : SameButUnwritten s s') {i : Instr} (ho : operandsWritten i s = true)
    {k : Fin 256} (hk : k.val < tbufRead i s) : s'.tbuf[k] = s.tbuf[k] := by
  simp only [operandsWritten, Bool.and_eq_true, List.all_eq_true, List.mem_range] at ho
  exact h.tbuf k (by simpa using ho.2 k hk)

end Sys2Proof.Machine
end

