-- ==== Sys2Proof/Laws/PerInstr.lean ====
section
/-! SUPPORT. The per-instruction families: what holds of every command as syntax, one lemma a constructor. -/

/-- The fields a command is encoded with are well formed, and its word carries exactly them. -/
def Sys2Proof.Laws.Fields.Statement (i : Sys2Proof.Instr) : Prop :=
  i.fields.wf = true ∧ Sys2Proof.CommandFields.ofWord (Sys2Proof.encode i) = i.fields

namespace Sys2Proof.Laws.Fields

theorem fadd : Statement .fadd := ⟨rfl, by decide⟩
theorem fsub : Statement .fsub := ⟨rfl, by decide⟩
theorem fmul : Statement .fmul := ⟨rfl, by decide⟩
theorem fdiv : Statement .fdiv := ⟨rfl, by decide⟩
theorem fneg : Statement .fneg := ⟨rfl, by decide⟩
theorem fabs : Statement .fabs := ⟨rfl, by decide⟩
theorem fflr : Statement .fflr := ⟨rfl, by decide⟩
theorem fceil : Statement .fceil := ⟨rfl, by decide⟩
theorem fmin : Statement .fmin := ⟨rfl, by decide⟩
theorem fmax : Statement .fmax := ⟨rfl, by decide⟩
theorem fmid : Statement .fmid := ⟨rfl, by decide⟩
theorem feq : Statement .feq := ⟨rfl, by decide⟩
theorem flt : Statement .flt := ⟨rfl, by decide⟩
theorem fle : Statement .fle := ⟨rfl, by decide⟩
theorem ftoi : Statement .ftoi := ⟨rfl, by decide⟩
theorem band : Statement .band := ⟨rfl, by decide⟩
theorem bor : Statement .bor := ⟨rfl, by decide⟩
theorem bxor : Statement .bxor := ⟨rfl, by decide⟩
theorem bnot : Statement .bnot := ⟨rfl, by decide⟩
theorem shl : Statement .shl := ⟨rfl, by decide⟩
theorem shr : Statement .shr := ⟨rfl, by decide⟩
theorem lshr : Statement .lshr := ⟨rfl, by decide⟩
theorem rotl : Statement .rotl := ⟨rfl, by decide⟩
theorem rotr : Statement .rotr := ⟨rfl, by decide⟩
theorem fsgn : Statement .fsgn := ⟨rfl, by decide⟩
theorem peek : Statement .peek := ⟨rfl, by decide⟩
theorem peek4 : Statement .peek4 := ⟨rfl, by decide⟩
theorem poke : Statement .poke := ⟨rfl, by decide⟩
theorem poke4 : Statement .poke4 := ⟨rfl, by decide⟩
theorem memcpy : Statement .memcpy := ⟨rfl, by decide⟩
theorem memset : Statement .memset := ⟨rfl, by decide⟩
theorem reload : Statement .reload := ⟨rfl, by decide⟩
theorem camera : Statement .camera := ⟨rfl, by decide⟩
theorem clip : Statement .clip := ⟨rfl, by decide⟩
theorem cliprst : Statement .cliprst := ⟨rfl, by decide⟩
theorem pal : Statement .pal := ⟨rfl, by decide⟩
theorem palt : Statement .palt := ⟨rfl, by decide⟩
theorem palrst : Statement .palrst := ⟨rfl, by decide⟩
theorem color : Statement .color := ⟨rfl, by decide⟩
theorem fillp : Statement .fillp := ⟨rfl, by decide⟩
theorem cursor : Statement .cursor := ⟨rfl, by decide⟩
theorem pset (c : Bool) : Statement (.pset c) := by cases c <;> exact ⟨rfl, by decide⟩
theorem pget : Statement .pget := ⟨rfl, by decide⟩
theorem hline (c : Bool) : Statement (.hline c) := by cases c <;> exact ⟨rfl, by decide⟩
theorem vline (c : Bool) : Statement (.vline c) := by cases c <;> exact ⟨rfl, by decide⟩
theorem line (c : Bool) : Statement (.line c) := by cases c <;> exact ⟨rfl, by decide⟩
theorem rect (c : Bool) : Statement (.rect c) := by cases c <;> exact ⟨rfl, by decide⟩
theorem rectfill (c : Bool) : Statement (.rectfill c) := by cases c <;> exact ⟨rfl, by decide⟩
theorem circ (c : Bool) : Statement (.circ c) := by cases c <;> exact ⟨rfl, by decide⟩
theorem circfill (c : Bool) : Statement (.circfill c) := by cases c <;> exact ⟨rfl, by decide⟩
theorem cls : Statement .cls := ⟨rfl, by decide⟩
theorem spr (fx fy : Bool) : Statement (.spr fx fy) := by cases fx <;> cases fy <;> exact ⟨rfl, by decide⟩
theorem sspr (fx fy : Bool) : Statement (.sspr fx fy) := by cases fx <;> cases fy <;> exact ⟨rfl, by decide⟩
theorem map : Statement .map := ⟨rfl, by decide⟩
theorem sget : Statement .sget := ⟨rfl, by decide⟩
theorem sset : Statement .sset := ⟨rfl, by decide⟩
theorem mget : Statement .mget := ⟨rfl, by decide⟩
theorem mset : Statement .mset := ⟨rfl, by decide⟩
theorem fget : Statement .fget := ⟨rfl, by decide⟩
theorem fgetb : Statement .fgetb := ⟨rfl, by decide⟩
theorem fset : Statement .fset := ⟨rfl, by decide⟩
theorem fsetb : Statement .fsetb := ⟨rfl, by decide⟩
theorem print (c : Bool) : Statement (.print c) := by cases c <;> exact ⟨rfl, by decide⟩
theorem printc (c : Bool) : Statement (.printc c) := by cases c <;> exact ⟨rfl, by decide⟩
theorem wave : Statement .wave := ⟨rfl, by decide⟩
theorem chset : Statement .chset := ⟨rfl, by decide⟩

end Sys2Proof.Laws.Fields
end

