-- ==== Sys2Proof/Laws/Words.lean ====
section
/-! SUPPORT. The arithmetic of words: wrapping, truncation and flooring, and the shifts of the ALU as shifts of bits. -/

namespace Sys2Proof.Machine

/-! ### Wrapping -/

theorem wraps_wrap32 (n : Int) : Wraps (wrap32 n) n := by
  unfold Wraps wrap32 u32
  rw [BitVec.toNat_ofInt]
  omega

theorem s32_bounds (w : Word) : -2 ^ 31 ≤ s32 w ∧ s32 w < 2 ^ 31 := by
  have h1 : -2 ^ (32 - 1) ≤ w.toInt := BitVec.le_toInt w
  have h2 : w.toInt < 2 ^ (32 - 1) := BitVec.toInt_lt
  exact ⟨h1, h2⟩

theorem s32_wrap32 {n : Int} (h : -2 ^ 31 ≤ n) (h' : n < 2 ^ 31) : s32 (wrap32 n) = n := by
  unfold s32 wrap32
  rw [BitVec.toInt_ofInt, Int.bmod_eq_of_le] <;> simp <;> omega

theorem wraps_s32 (w : Word) : Wraps w (s32 w) := by
  unfold Wraps u32 s32
  rw [BitVec.toInt_eq_toNat_bmod, Int.bmod_def]
  have := w.isLt
  simp
  split <;> omega

/-- Two words that wrap the same integer are the same word. -/
theorem Wraps.unique {w w' : Word} {n : Int} (h : Wraps w n) (h' : Wraps w' n) : w = w' :=
  BitVec.eq_of_toNat_eq (by unfold Wraps u32 at h h'; omega)

theorem Wraps.eq_wrap32 {w : Word} {n : Int} (h : Wraps w n) : w = wrap32 n := h.unique (wraps_wrap32 n)

/-! ### `Int(v)` -/

theorem floor_intDiv (n : Int) (d : Nat) : ⌊(n : ℚ) / (d : ℚ)⌋ = n / d := Rat.floor_intCast_div_natCast n d

theorem ceil_intDiv (n : Int) (d : Nat) : ⌈(n : ℚ) / (d : ℚ)⌉ = -((-n) / d) := Rat.ceil_intCast_div_natCast n d

theorem intOf_of_nonneg {v : Word} (h : 0 ≤ s32 v) : intOf v = s32 v / 65536 := Int.tdiv_eq_ediv_of_nonneg h

theorem intOf_of_neg {v : Word} (h : s32 v < 0) : intOf v = -((-s32 v) / 65536) := by
  unfold intOf
  rw [← Int.tdiv_eq_ediv_of_nonneg (by omega), Int.neg_tdiv, neg_neg]

theorem intOf_bounds (v : Word) : -32768 ≤ intOf v ∧ intOf v ≤ 32767 := by
  have hb := s32_bounds v
  by_cases h : 0 ≤ s32 v
  · rw [intOf_of_nonneg h]
    omega
  · rw [intOf_of_neg (by omega)]
    omega

/-! ### Shifts -/

theorem shlCount_eq (a : Word) (k : Nat) : shlCount a k = a <<< k := by
  unfold shlCount
  split
  · rename_i h
    exact (BitVec.shiftLeft_eq_zero h).symm
  · apply BitVec.eq_of_toNat_eq
    rw [BitVec.toNat_shiftLeft, BitVec.toNat_ofNat, Nat.shiftLeft_eq]

theorem sarCount_eq (a : Word) (k : Nat) : sarCount a k = a.sshiftRight k := by
  apply BitVec.eq_of_toInt_eq
  rw [BitVec.toInt_sshiftRight, Int.shiftRight_eq_div_pow]
  unfold sarCount
  have hb : -2 ^ 31 ≤ a.toInt ∧ a.toInt < 2 ^ 31 := s32_bounds a
  split
  · rename_i h
    have hp : (2 : Int) ^ 32 ≤ 2 ^ k := pow_le_pow_right₀ (by norm_num) h
    split
    · rename_i hn
      change a.toInt < 0 at hn
      rw [show a.toInt / ((2 ^ k : Nat) : Int) = -1 by
        push_cast
        exact (Int.ediv_eq_iff_of_pos (by omega)).2 ⟨by omega, by omega⟩]
      decide
    · rename_i hn
      change ¬a.toInt < 0 at hn
      rw [show a.toInt / ((2 ^ k : Nat) : Int) = 0 by
        push_cast
        exact Int.ediv_eq_zero_of_lt (by omega) (by omega)]
      decide
  · have hp : (0 : Int) < 2 ^ k := by positivity
    push_cast
    refine s32_wrap32 ?_ ?_
    · exact (Int.le_ediv_iff_mul_le hp).2 (by nlinarith [hb.1])
    · exact (Int.ediv_lt_iff_lt_mul hp).2 (by nlinarith [hb.2])

theorem lshrCount_eq {a : Word} {k : Nat} : (if 32 ≤ k then 0 else BitVec.ofNat 32 (u32 a / 2 ^ k)) = a >>> k := by
  split
  · rename_i h
    exact (BitVec.ushiftRight_eq_zero h).symm
  · apply BitVec.eq_of_toNat_eq
    rw [BitVec.toNat_ofNat, BitVec.toNat_ushiftRight, Nat.shiftRight_eq_div_pow]
    exact Nat.mod_eq_of_lt (lt_of_le_of_lt (Nat.div_le_self _ _) a.isLt)

theorem shl_natCast (a : Word) (k : Nat) : shl a k = a <<< k := by
  unfold shl
  rw [if_neg (by omega), Int.toNat_natCast, shlCount_eq]

theorem shl_neg_natCast (a : Word) (k : Nat) : shl a (-k) = a.sshiftRight k := by
  unfold shl
  split
  · rw [neg_neg, Int.toNat_natCast, sarCount_eq]
  · obtain rfl : k = 0 := by omega
    simp [shlCount_eq]

theorem sar_natCast (a : Word) (k : Nat) : sar a k = a.sshiftRight k := by
  unfold sar
  rw [if_neg (by omega), Int.toNat_natCast, sarCount_eq]

theorem sar_neg_natCast (a : Word) (k : Nat) : sar a (-k) = a <<< k := by
  unfold sar
  split
  · rw [neg_neg, Int.toNat_natCast, shlCount_eq]
  · obtain rfl : k = 0 := by omega
    simp [sarCount_eq]

theorem lshr_natCast (a : Word) (k : Nat) : lshr a k = a >>> k := by
  unfold lshr
  rw [if_neg (by omega)]
  simpa using lshrCount_eq (a := a) (k := k)

theorem lshr_neg_natCast (a : Word) (k : Nat) : lshr a (-k) = a <<< k := by
  unfold lshr
  split
  · rw [neg_neg, shl_natCast]
  · obtain rfl : k = 0 := by omega
    simp

/-- Bit `j` of a rotation to the left by `k` is bit `j - k`, modulo 32. -/
theorem getLsbD_rotl (a : Word) (k : Int) {j : Nat} (hj : j < 32) :
    (rotl a k).getLsbD j = a.getLsbD (((j : Int) - k) % 32).toNat := by
  unfold rotl
  simp only
  generalize hr : (k % 32).toNat = r
  have hlt : r < 32 := by omega
  split
  · rw [show (((j : Int) - k) % 32).toNat = j by omega]
  · have h1 : BitVec.ofNat 32 (u32 a * 2 ^ r) = a <<< r := by
      have := shlCount_eq a r
      unfold shlCount at this
      rwa [if_neg (by omega)] at this
    have h2 : BitVec.ofNat 32 (u32 a / 2 ^ (32 - r)) = a >>> (32 - r) := by
      have := lshrCount_eq (a := a) (k := 32 - r)
      rwa [if_neg (by omega)] at this
    rw [h1, h2, BitVec.getLsbD_or, BitVec.getLsbD_shiftLeft, BitVec.getLsbD_ushiftRight]
    by_cases hjr : j < r
    · rw [show (((j : Int) - k) % 32).toNat = 32 - r + j by omega]
      simp [hjr]
    · rw [show (((j : Int) - k) % 32).toNat = j - r by omega, BitVec.getLsbD_of_ge a (32 - r + j) (by omega)]
      simp [hjr, hj]

end Sys2Proof.Machine
end

