-- ==== Sys2Proof/Laws/Raster.lean ====
section
/-! SUPPORT. Which pixels each rasterizer visits, as a condition on the coordinates, and what a draw over a list of points
does to the screen. -/

namespace Sys2Proof.Machine

/-! ### Draws -/

theorem drawPoints_drawn (clip : Clip) (cb : Word) (ps : List Point) (m : Memory) :
    Drawn clip cb (fun x y => (x, y) ∈ ps) m (drawPoints clip cb ps m) where
  visited x y hs hp := by
    rw [screenRead_drawPoints hs, afterPixelWrite]
    simp only [hp, true_and]
  others x y hs hp := by rw [screenRead_drawPoints hs, if_neg fun h => hp h.1]
  outside a ha := drawPoints_read ha clip cb ps m

theorem Drawn.congr {clip : Clip} {cb : Word} {P Q : Int → Int → Prop} {m m' : Memory} (h : Drawn clip cb P m m')
    (hPQ : ∀ x y, P x y ↔ Q x y) : Drawn clip cb Q m m' where
  visited x y hs hp := h.visited x y hs ((hPQ x y).2 hp)
  others x y hs hp := h.others x y hs fun hp' => hp ((hPQ x y).1 hp')
  outside := h.outside

/-- A command whose meaning is a draw over a list of points draws exactly the points' pixels. -/
theorem draws_of_drawWith {i : Instr} {p : Fin 8} {ps : List Point} {s : State} {P : Int → Int → Prop}
    (h : exec i s = drawWith (hasPen i) p ps s) (hP : ∀ x y, (x, y) ∈ ps ↔ P x y) : DrawsWithPen i p P s := by
  rw [drawWith_eq, takePen_eq] at h
  exact ⟨_, h, rfl, rfl, (drawPoints_drawn _ _ ps _).congr hP⟩

/-! ### Spans and rectangles -/

theorem mem_intRange {lo hi v : Int} : v ∈ intRange lo hi ↔ lo ≤ v ∧ v ≤ hi := by
  simp only [intRange, List.mem_map, List.mem_range]
  constructor
  · rintro ⟨k, hk, rfl⟩
    omega
  · intro h
    exact ⟨(v - lo).toNat, by omega, by omega⟩

theorem mem_hspan {x0 x1 y x y' : Int} : (x, y') ∈ hspan x0 x1 y ↔ min x0 x1 ≤ x ∧ x ≤ max x0 x1 ∧ y' = y := by
  simp only [hspan, List.mem_map, mem_intRange, Prod.mk.injEq]
  constructor
  · rintro ⟨v, hv, rfl, rfl⟩
    exact ⟨hv.1, hv.2, rfl⟩
  · rintro ⟨h1, h2, rfl⟩
    exact ⟨x, ⟨h1, h2⟩, rfl, rfl⟩

theorem mem_vspan {x y0 y1 x' y : Int} : (x', y) ∈ vspan x y0 y1 ↔ x' = x ∧ min y0 y1 ≤ y ∧ y ≤ max y0 y1 := by
  simp only [vspan, List.mem_map, mem_intRange, Prod.mk.injEq]
  constructor
  · rintro ⟨v, hv, rfl, rfl⟩
    exact ⟨rfl, hv.1, hv.2⟩
  · rintro ⟨rfl, h1, h2⟩
    exact ⟨y, ⟨h1, h2⟩, rfl, rfl⟩

theorem mem_rectPoints {x0 y0 x1 y1 x y : Int} : (x, y) ∈ rectPoints x0 y0 x1 y1 ↔
    min x0 x1 ≤ x ∧ x ≤ max x0 x1 ∧ min y0 y1 ≤ y ∧ y ≤ max y0 y1 ∧
      (x = min x0 x1 ∨ x = max x0 x1 ∨ y = min y0 y1 ∨ y = max y0 y1) := by
  simp only [rectPoints, List.mem_append, mem_hspan, List.mem_flatMap, mem_intRange, List.mem_cons, Prod.mk.injEq,
    List.not_mem_nil, or_false]
  constructor
  · rintro ((h | h) | ⟨v, hv, h | h⟩) <;> omega
  · intro h
    by_cases hy : y = min y0 y1 ∨ y = max y0 y1
    · left
      omega
    · right
      exact ⟨y, by omega, by omega⟩

theorem mem_rectFillPoints {x0 y0 x1 y1 x y : Int} : (x, y) ∈ rectFillPoints x0 y0 x1 y1 ↔
    min x0 x1 ≤ x ∧ x ≤ max x0 x1 ∧ min y0 y1 ≤ y ∧ y ≤ max y0 y1 := by
  simp only [rectFillPoints, List.mem_flatMap, mem_intRange, mem_hspan]
  constructor
  · rintro ⟨v, hv, h⟩
    omega
  · intro h
    exact ⟨y, by omega, by omega⟩

/-! ### Lines -/

/-- A rounding of `q` negated is a rounding of `-q`. -/
theorem RoundsHalfAway.neg {q : ℚ} {k : Int} (h : RoundsHalfAway q k) : RoundsHalfAway (-q) (-k) := by
  unfold RoundsHalfAway at *
  push_cast
  rwa [show -q - -(k : ℚ) = -(q - k) by ring, abs_neg, abs_neg, abs_neg]

theorem roundsHalfAway_of_nonneg {p q : Int} (hp : 0 ≤ p) (hq : 0 < q) :
    RoundsHalfAway ((p : ℚ) / q) ((2 * p + q) / (2 * q)) := by
  generalize hk : (2 * p + q) / (2 * q) = k
  have hq' : (0 : ℚ) < q := by exact_mod_cast hq
  have h1 : k * (2 * q) ≤ 2 * p + q := (Int.le_ediv_iff_mul_le (by omega)).1 hk.ge
  have h2 : 2 * p + q < (k + 1) * (2 * q) := (Int.ediv_lt_iff_lt_mul (by omega)).1 (by omega)
  have h1' : (k : ℚ) * (2 * q) ≤ 2 * p + q := by exact_mod_cast h1
  have h2' : 2 * (p : ℚ) + q < (k + 1) * (2 * q) := by exact_mod_cast h2
  have hlow : -(1 / 2 : ℚ) ≤ p / q - k := by
    rw [le_sub_iff_add_le, le_div_iff₀ hq']
    linarith
  have hhigh : (p : ℚ) / q - k < 1 / 2 := by
    rw [sub_lt_iff_lt_add, div_lt_iff₀ hq']
    linarith
  have hx : (0 : ℚ) ≤ (p : ℚ) / q := div_nonneg (by exact_mod_cast hp) hq'.le
  rcases hlow.lt_or_eq with h | h
  · exact .inl (abs_lt.2 ⟨h, hhigh⟩)
  · refine .inr ⟨by rw [← h]; norm_num, ?_⟩
    rw [abs_of_nonneg hx, abs_of_nonneg (by linarith)]
    linarith

/-- The integer formula of `roundHalfAway` gives the rounding of R209. -/
theorem roundsHalfAway_roundHalfAway (p : Int) {q : Int} (hq : 0 < q) :
    RoundsHalfAway ((p : ℚ) / q) (roundHalfAway p q) := by
  unfold roundHalfAway
  split
  · rename_i hp
    exact roundsHalfAway_of_nonneg hp hq
  · have h := (roundsHalfAway_of_nonneg (p := -p) (by omega) hq).neg
    push_cast at h
    rwa [neg_div, neg_neg] at h

/-- A rational has one rounding. -/
theorem RoundsHalfAway.unique {q : ℚ} {k k' : Int} (h : RoundsHalfAway q k) (h' : RoundsHalfAway q k') : k = k' := by
  have far : ∀ {k k' : Int}, RoundsHalfAway q k → RoundsHalfAway q k' → ¬k < k' := by
    intro k k' h h' hlt
    have hc : (k : ℚ) + 1 ≤ k' := by exact_mod_cast hlt
    have h1 : |q - k| ≤ 1 / 2 := h.elim le_of_lt fun h => h.1.le
    have h2 : |q - k'| ≤ 1 / 2 := h'.elim le_of_lt fun h => h.1.le
    have e1 : q = k + 1 / 2 := by
      have := (abs_le.1 h1).2
      have := (abs_le.1 h2).1
      linarith
    have e2 : q = k' - 1 / 2 := by
      have := (abs_le.1 h1).2
      have := (abs_le.1 h2).1
      linarith
    have a1 : |q| < |(k : ℚ)| := h.elim (fun h => by rw [e1] at h; norm_num at h) fun h => h.2
    have a2 : |q| < |(k' : ℚ)| := h'.elim (fun h => by rw [e2] at h; norm_num at h) fun h => h.2
    rcases lt_or_ge k 0 with hk | hk
    · have hk' : (k' : ℚ) ≤ 0 := by
        have : (k : ℚ) ≤ -1 := by exact_mod_cast Int.le_sub_one_of_lt hk
        linarith
      rw [abs_of_nonpos hk', abs_of_nonpos (by linarith)] at a2
      linarith
    · have hk : (0 : ℚ) ≤ k := by exact_mod_cast hk
      rw [abs_of_nonneg hk, abs_of_nonneg (by linarith)] at a1
      linarith
  have := far h h'
  have := far h' h
  omega

theorem mem_linePoints {x0 y0 x1 y1 x y : Int} : (x, y) ∈ linePoints x0 y0 x1 y1 ↔ LinePixel x0 y0 x1 y1 x y := by
  have major : ∀ {b d n i : Int}, 0 < n → ∀ v, v = roundHalfAway (b * n + d * i) n ↔
      RoundsHalfAway (b + d * i / n) v := by
    intro b d n i hn v
    have h := roundsHalfAway_roundHalfAway (b * n + d * i) hn
    have hq : (n : ℚ) ≠ 0 := by exact_mod_cast hn.ne'
    push_cast at h
    rw [add_div, mul_div_cancel_right₀ _ hq] at h
    exact ⟨fun e => e ▸ h, fun h' => h'.unique h⟩
  simp only [linePoints, List.mem_map, List.mem_range, linePoint, LinePixel, Int.abs_eq_natAbs, Nat.cast_le]
  by_cases hd : (y1 - y0).natAbs ≤ (x1 - x0).natAbs
  · simp only [if_pos hd, Prod.mk.injEq, max_eq_left hd, Nat.lt_succ_iff]
    refine exists_congr fun i => ?_
    by_cases hx : x1 = x0
    · subst hx
      have : y1 - y0 = 0 := by omega
      simp [eq_comm]
    · have hn : (0 : Int) < ((x1 - x0).natAbs : Int) := by omega
      have h := major (b := y0) (d := y1 - y0) (i := i) hn y
      rw [if_neg (by omega), if_neg hx]
      have habs : |(x1 : ℚ) - x0| = (((x1 - x0).natAbs : Int) : ℚ) := by
        rw [← Int.abs_eq_natAbs]
        push_cast
        rfl
      rw [habs]
      push_cast at h ⊢
      rw [← h]
      tauto
  · simp only [if_neg hd, Prod.mk.injEq, max_eq_right (Nat.le_of_not_le hd), Nat.lt_succ_iff]
    refine exists_congr fun i => ?_
    have hn : (0 : Int) < ((y1 - y0).natAbs : Int) := by omega
    have h := major (b := x0) (d := x1 - x0) (i := i) hn x
    have habs : |(y1 : ℚ) - y0| = (((y1 - y0).natAbs : Int) : ℚ) := by
      rw [← Int.abs_eq_natAbs]
      push_cast
      rfl
    rw [habs]
    push_cast at h ⊢
    rw [← h]
    tauto

/-! ### Circles -/

theorem circleIterate_succ (r : Int) (k : Nat) : circleIterate r (k + 1) =
    if r + 1 < 2 * ((circleIterate r k).2.2 + 1 + 2 * ((circleIterate r k).2.1 + 1) - (circleIterate r k).1) then
      ((circleIterate r k).1 - 1, (circleIterate r k).2.1 + 1,
        (circleIterate r k).2.2 + 1 + 2 * ((circleIterate r k).2.1 + 1) + 1 - 2 * ((circleIterate r k).1 - 1))
    else ((circleIterate r k).1, (circleIterate r k).2.1 + 1,
      (circleIterate r k).2.2 + 1 + 2 * ((circleIterate r k).2.1 + 1)) := rfl

/-- A turn of the loop brings `dx` and `dy` closer. -/
theorem circleIterate_gap (r : Int) (k : Nat) :
    (circleIterate r (k + 1)).1 - (circleIterate r (k + 1)).2.1 < (circleIterate r k).1 - (circleIterate r k).2.1 := by
  rw [circleIterate_succ]
  split <;> simp only <;> omega

/-- With fuel enough for the gap, the loop from turn `k` on visits exactly the turns its condition lets it reach. -/
theorem mem_circleLoop {r : Int} (fuel k : Nat)
    (hk : ∀ j < k, (circleIterate r j).2.1 ≤ (circleIterate r j).1)
    (hf : (circleIterate r k).1 - (circleIterate r k).2.1 < fuel) {p : Point} :
    p ∈ circleLoop r fuel (circleIterate r k).1 (circleIterate r k).2.1 (circleIterate r k).2.2 ↔
      ∃ n ≥ k, (∀ j ≤ n, (circleIterate r j).2.1 ≤ (circleIterate r j).1) ∧
        p = ((circleIterate r n).1, (circleIterate r n).2.1) := by
  induction fuel generalizing k with
  | zero =>
    simp only [circleLoop, List.not_mem_nil, false_iff]
    rintro ⟨n, hn, hj, -⟩
    have := hj k hn
    omega
  | succ fuel ih =>
    by_cases hc : (circleIterate r k).2.1 ≤ (circleIterate r k).1
    · have hnext : ∀ j < k + 1, (circleIterate r j).2.1 ≤ (circleIterate r j).1 := by
        intro j hj
        rcases Nat.lt_succ_iff_lt_or_eq.1 hj with h | rfl
        · exact hk j h
        · exact hc
      have hgap := circleIterate_gap r k
      have ih' := ih (k + 1) hnext (by omega)
      have hloop : circleLoop r (fuel + 1) (circleIterate r k).1 (circleIterate r k).2.1 (circleIterate r k).2.2 =
          ((circleIterate r k).1, (circleIterate r k).2.1) ::
            circleLoop r fuel (circleIterate r (k + 1)).1 (circleIterate r (k + 1)).2.1
              (circleIterate r (k + 1)).2.2 := by
        rw [circleLoop, if_pos hc, circleIterate_succ]
        simp only
        split <;> rfl
      rw [hloop, List.mem_cons, ih']
      constructor
      · rintro (rfl | ⟨n, hn, hj, rfl⟩)
        · exact ⟨k, le_refl k, fun j hj => hnext j (by omega), rfl⟩
        · exact ⟨n, by omega, hj, rfl⟩
      · rintro ⟨n, hn, hj, rfl⟩
        rcases Nat.eq_or_lt_of_le hn with rfl | h
        · exact .inl rfl
        · exact .inr ⟨n, h, hj, rfl⟩
    · rw [circleLoop, if_neg hc]
      simp only [List.not_mem_nil, false_iff]
      rintro ⟨n, hn, hj, -⟩
      exact hc (hj k hn)

theorem mem_circleSteps {r dx dy : Int} : (dx, dy) ∈ circleSteps r ↔ CircleStep r dx dy := by
  have h := mem_circleLoop (r := r) (r + 1).toNat 0 (by simp) (by simp only [circleIterate]; omega) (p := (dx, dy))
  rw [circleSteps]
  refine h.trans ?_
  simp only [CircleStep, Prod.mk.injEq, ge_iff_le, Nat.zero_le, true_and]

theorem mem_circPoints {xc yc r x y : Int} : (x, y) ∈ circPoints xc yc r ↔ ∃ dx dy, CircleStep r dx dy ∧
    ((x = xc + dx ∨ x = xc - dx) ∧ (y = yc + dy ∨ y = yc - dy) ∨
      (x = xc + dy ∨ x = xc - dy) ∧ (y = yc + dx ∨ y = yc - dx)) := by
  simp only [circPoints, List.mem_flatMap, Prod.exists, mem_circleSteps, octants, List.mem_cons, Prod.mk.injEq,
    List.not_mem_nil, or_false]
  refine exists_congr fun dx => exists_congr fun dy => and_congr_right fun _ => ?_
  tauto

/-- In every pair the loop emits, `0 <= dy <= dx`. -/
theorem CircleStep.le {r dx dy : Int} (h : CircleStep r dx dy) : 0 ≤ dy ∧ dy ≤ dx := by
  obtain ⟨k, hk, rfl, rfl⟩ := h
  refine ⟨?_, hk k (le_refl k)⟩
  clear hk
  induction k with
  | zero => simp [circleIterate]
  | succ k ih =>
    rw [circleIterate_succ]
    split <;> simp only <;> omega

theorem mem_circFillPoints {xc yc r x y : Int} : (x, y) ∈ circFillPoints xc yc r ↔ ∃ dx dy, CircleStep r dx dy ∧
    (xc - dx ≤ x ∧ x ≤ xc + dx ∧ (y = yc - dy ∨ y = yc + dy) ∨
      (x = xc - dy ∨ x = xc + dy) ∧ yc - dx ≤ y ∧ y ≤ yc + dx) := by
  simp only [circFillPoints, List.mem_flatMap, Prod.exists, mem_circleSteps, stepSpans, List.mem_append, mem_hspan,
    mem_vspan]
  refine exists_congr fun dx => exists_congr fun dy => and_congr_right fun h => ?_
  have := h.le
  omega

end Sys2Proof.Machine
end

