-- ==== Sys2Proof/Laws/Sprites.lean ====
section
/-! SUPPORT. What a sprite blit does to a pixel, and a map blit as one sprite blit. -/

namespace Sys2Proof.Machine

/-! ### The sprite pixel write -/

theorem extract_primary (c : Nibble) : (c.setWidth 32 <<< 16 : Word).extractLsb' 16 4 = c := by
  revert c
  decide

/-- The color-bits word of a sprite pixel has the color as primary and no pattern (R240). -/
theorem pixelColor_sprite (c : Nibble) (x y : Int) : pixelColor (c.setWidth 32 <<< 16) x y = some c := by
  have hi : patternIndex x y < 16 := by
    unfold patternIndex
    omega
  have hp : (c.setWidth 32 <<< 16 : Word).getLsbD (patternIndex x y) = false := by
    simp [BitVec.getLsbD_shiftLeft, hi]
  unfold pixelColor
  rw [hp, if_neg (by simp)]
  congr 1
  exact extract_primary c

theorem screenRead_sprWrite {x y : Int} (h : inSquare x y) (s : State) (x' y' : Int) (c : Nibble) (m : Memory) :
    screenRead (sprWrite s x' y' c m) x y =
      if x = x' ∧ y = y' ∧ s.clip.contains x y = true ∧ isTransparent s c = false then lookup s.dpal c
      else screenRead m x y := by
  unfold sprWrite
  cases ht : isTransparent s c with
  | true => simp
  | false =>
    rw [if_neg (by simp), screenRead_pixelWrite h, pixelColor_sprite]
    simp

/-- A sprite blit leaves the sheet alone. -/
theorem gfxRead_sprWrite (s : State) (x y : Int) (c : Nibble) (m : Memory) (u v : Int) :
    gfxRead (sprWrite s x y c m) u v = gfxRead m u v :=
  gfxRead_congr (fun a ha => sprWrite_read (by omega) s x y c m) u v

/-! ### Blits -/

/-- A pixel after a blit whose copies to it all take the sheet pixel `(u, v)`. -/
theorem screenRead_blit {x y : Int} (h : inSquare x y) (s : State) {u v : Int} {cs : List Copy}
    (hcs : ∀ c ∈ cs, c.x = x → c.y = y → c.u = u ∧ c.v = v) (m : Memory) :
    screenRead (blit s cs m) x y =
      if (∃ c ∈ cs, c.x = x ∧ c.y = y) ∧ s.clip.contains x y = true ∧ isTransparent s (gfxRead m u v) = false
      then lookup s.dpal (gfxRead m u v) else screenRead m x y := by
  induction cs generalizing m with
  | nil => simp [blit]
  | cons c cs ih =>
    rw [blit_cons, ih (fun c' hc' => hcs c' (List.mem_cons_of_mem _ hc')), gfxRead_sprWrite, screenRead_sprWrite h]
    by_cases hc : c.x = x ∧ c.y = y
    · obtain ⟨hu, hv⟩ := hcs c (List.mem_cons_self ..) hc.1 hc.2
      rw [hu, hv]
      have hex : ∃ c' ∈ c :: cs, c'.x = x ∧ c'.y = y := ⟨c, List.mem_cons_self .., hc⟩
      by_cases hw : s.clip.contains x y = true ∧ isTransparent s (gfxRead m u v) = false
      · rw [if_pos (⟨hc.1.symm, hc.2.symm, hw⟩ : x = c.x ∧ y = c.y ∧ _), if_pos (⟨hex, hw⟩ : _ ∧ _)]
        split <;> rfl
      · rw [if_neg (fun hh => hw hh.2), if_neg (fun hh => hw hh.2.2), if_neg (fun hh => hw hh.2)]
    · have hiff : (∃ c' ∈ c :: cs, c'.x = x ∧ c'.y = y) ↔ ∃ c' ∈ cs, c'.x = x ∧ c'.y = y := by
        simp [hc]
      have hother : ¬(x = c.x ∧ y = c.y ∧ s.clip.contains x y = true ∧ isTransparent s (gfxRead m c.u c.v) = false) :=
        fun hh => hc ⟨hh.1.symm, hh.2.1.symm⟩
      simp only [hiff, if_neg hother]

/-- A command whose meaning is a blit of copies writes exactly the copies' pixels, if two copies to one pixel take the same
sheet pixel. -/
theorem blits_of_blit {i : Instr} {s : State} {cs : List Copy} {P : Int → Int → Int → Int → Prop}
    (h : exec i s = .next (s.setMem (blit s cs s.mem)))
    (hP : ∀ x y u v, (⟨x, y, u, v⟩ : Copy) ∈ cs ↔ P x y u v)
    (hcs : ∀ x y u v u' v', P x y u v → P x y u' v' → u = u' ∧ v = v') : Blits i P s := by
  refine ⟨_, h, rfl, ?_, ?_, fun a ha => blit_read ha s cs s.mem⟩
  · intro x y u v hs hp
    have hall : ∀ c ∈ cs, c.x = x → c.y = y → c.u = u ∧ c.v = v := by
      rintro ⟨x', y', u', v'⟩ hc rfl rfl
      exact hcs _ _ _ _ _ _ ((hP _ _ _ _).1 hc) hp
    show screenRead (blit s cs s.mem) x y = _
    rw [screenRead_blit hs s hall, afterSprWrite]
    have hex : ∃ c ∈ cs, c.x = x ∧ c.y = y := ⟨_, (hP _ _ _ _).2 hp, rfl, rfl⟩
    simp only [hex, true_and]
  · intro x y hs hn
    have hnone : ∀ c ∈ cs, c.x = x → c.y = y → c.u = 0 ∧ c.v = 0 := by
      rintro ⟨x', y', u', v'⟩ hc rfl rfl
      exact absurd ((hP _ _ _ _).1 hc) (hn u' v')
    show screenRead (blit s cs s.mem) x y = _
    rw [screenRead_blit hs s hnone, if_neg]
    rintro ⟨⟨⟨x', y', u', v'⟩, hc, rfl, rfl⟩, -⟩
    exact hn u' v' ((hP _ _ _ _).1 hc)

theorem mem_spanCopies {x0 y0 w h : Int} {su sv : Int → Int} {x y u v : Int} :
    (⟨x, y, u, v⟩ : Copy) ∈ spanCopies x0 y0 w h su sv ↔
      ∃ i j : Int, 0 ≤ i ∧ i < w ∧ 0 ≤ j ∧ j < h ∧ x = x0 + i ∧ y = y0 + j ∧ u = su i ∧ v = sv j := by
  simp only [spanCopies, List.mem_flatMap, List.mem_map, mem_intRange, Copy.mk.injEq]
  constructor
  · rintro ⟨j, hj, i, hi, rfl, rfl, rfl, rfl⟩
    exact ⟨i, j, hi.1, by omega, hj.1, by omega, rfl, rfl, rfl, rfl⟩
  · rintro ⟨i, j, h1, h2, h3, h4, rfl, rfl, rfl, rfl⟩
    exact ⟨j, by omega, i, by omega, rfl, rfl, rfl, rfl⟩

/-! ### The map blit -/

theorem blit_append (s : State) (cs cs' : List Copy) (m : Memory) : blit s (cs ++ cs') m = blit s cs' (blit s cs m) :=
  List.foldl_append

/-- The copies of one cell of MAP, from the map and the flags of memory `m`. -/
def tileCopies (m : Memory) (l : Byte) (cx cy x y : Int) : List Copy :=
  if tileDrawn m l (mapRead m cx cy) then
    spanCopies x y 8 8 (fun u => spriteX (mapRead m cx cy).toNat + u) (fun v => spriteY (mapRead m cx cy).toNat + v)
  else []

theorem drawTile_eq_blit (s : State) (l : Byte) (cx cy x y : Int) (m : Memory) :
    drawTile s l cx cy x y m = blit s (tileCopies m l cx cy x y) m := by
  unfold drawTile tileCopies
  simp only
  split <;> rfl

/-- Memories that agree below SCREEN draw the same tiles. -/
theorem tileCopies_congr {m m' : Memory} (h : ∀ a < 0x6000, m.read a = m'.read a) (l : Byte) (cx cy x y : Int) :
    tileCopies m l cx cy x y = tileCopies m' l cx cy x y := by
  have hm := mapRead_congr h cx cy
  have hf : ∀ t : Byte, tileDrawn m l t = tileDrawn m' l t := by
    intro t
    unfold tileDrawn
    rw [h (flagAddr t.toNat) (by have := t.isLt; unfold flagAddr; omega)]
  unfold tileCopies
  rw [hm, hf]

/-- A fold of cells is one blit of all their copies, read from the memory before the command. -/
theorem foldl_drawTile {α : Type} (s : State) (l : Byte) (pos : α → Int × Int × Int × Int) (ts : List α) (m : Memory) :
    ts.foldl (fun m t => drawTile s l (pos t).1 (pos t).2.1 (pos t).2.2.1 (pos t).2.2.2 m) m =
      blit s (ts.flatMap fun t => tileCopies m l (pos t).1 (pos t).2.1 (pos t).2.2.1 (pos t).2.2.2) m := by
  have gen : ∀ (ts : List α) (m' : Memory), (∀ a < 0x6000, m'.read a = m.read a) →
      ts.foldl (fun m t => drawTile s l (pos t).1 (pos t).2.1 (pos t).2.2.1 (pos t).2.2.2 m) m' =
        blit s (ts.flatMap fun t => tileCopies m l (pos t).1 (pos t).2.1 (pos t).2.2.1 (pos t).2.2.2) m' := by
    intro ts
    induction ts with
    | nil => exact fun m' _ => rfl
    | cons t ts ih =>
      intro m' h
      rw [List.foldl_cons, List.flatMap_cons, blit_append, drawTile_eq_blit, tileCopies_congr h]
      exact ih _ fun a ha => by rw [blit_read (by omega), h a ha]
  exact gen ts m fun _ _ => rfl

/-- MAP is one blit. -/
theorem execMap_eq (s : State) : execMap s = .next (s.setMem (blit s
    ((mapCells (argInt 4 s) (argInt 5 s)).flatMap fun t => tileCopies s.mem (byteValue (readArg 6 s))
      (argInt 0 s + t.1) (argInt 1 s + t.2) (argX 2 s + 8 * t.1) (argY 3 s + 8 * t.2)) s.mem)) := by
  have h := foldl_drawTile s (byteValue (readArg 6 s))
    (fun t : Int × Int => (argInt 0 s + t.1, argInt 1 s + t.2, argX 2 s + 8 * t.1, argY 3 s + 8 * t.2))
    (mapCells (argInt 4 s) (argInt 5 s)) s.mem
  unfold execMap
  simp only
  rw [← h]

theorem mem_mapCells {cw ch ti tj : Int} : (ti, tj) ∈ mapCells cw ch ↔ 0 ≤ ti ∧ ti < cw ∧ 0 ≤ tj ∧ tj < ch := by
  simp only [mapCells, List.mem_flatMap, List.mem_map, mem_intRange, Prod.mk.injEq]
  constructor
  · rintro ⟨j, hj, i, hi, rfl, rfl⟩
    omega
  · intro h
    exact ⟨tj, by omega, ti, by omega, rfl, rfl⟩

end Sys2Proof.Machine
end

