-- ==== Sys2Proof/Laws/Text.lean ====
section
/-! SUPPORT. The text layout: the recursion of `layout` and the position of each byte agree. -/

namespace Sys2Proof.Machine

/-- The advance of the bytes of `l` since its last newline. -/
def sinceNewline (l : List Byte) : Nat := ((l.reverse.takeWhile (· != 0x0a)).map adv).sum

/-- A newline byte, or any byte when one follows, adds nothing to the advance; a byte no newline follows adds its own. -/
theorem sinceNewline_cons (b : Byte) (l : List Byte) :
    sinceNewline (b :: l) = sinceNewline l + (if 0x0a ∈ l ∨ b = 0x0a then 0 else adv b) := by
  unfold sinceNewline
  rw [List.reverse_cons, List.takeWhile_append]
  by_cases hl : (0x0a : Byte) ∈ l
  · have hlen : (l.reverse.takeWhile (· != 0x0a)).length ≠ l.reverse.length := by
      intro h
      have hall := List.takeWhile_eq_self_iff.1
        ((List.takeWhile_prefix (fun b : Byte => b != 0x0a) (l := l.reverse)).eq_of_length h) 0x0a (by simpa using hl)
      simp at hall
    rw [if_neg hlen, if_pos (.inl hl), Nat.add_zero]
  · have hall : l.reverse.takeWhile (· != 0x0a) = l.reverse := by
      rw [List.takeWhile_eq_self_iff]
      intro c hc
      simp only [bne_iff_ne, ne_eq]
      rintro rfl
      exact hl (by simpa using hc)
    rw [hall, if_pos rfl]
    by_cases hb : b = 0x0a
    · simp [hb]
    · rw [if_neg (not_or.2 ⟨hl, hb⟩), List.takeWhile_cons_of_pos (by simpa using hb), List.map_append, List.sum_append]
      rfl

/-- The glyphs of the layout from pen position `(px, py)` on: byte `k`, unless it is a newline, at the place its
predecessors give it. -/
theorem mem_layout {x0 px py : Int} {bs : List Byte} {g : Glyph} :
    g ∈ layout adv x0 px py bs ↔ ∃ (k : Nat) (b : Byte), bs[k]? = some b ∧ b ≠ 0x0a ∧
      g = ⟨b, (if 0x0a ∈ bs.take k then x0 else px) + (sinceNewline (bs.take k) : Int) - (if b = 0x2c then 1 else 0),
        py + 6 * ((bs.take k).count 0x0a : Nat)⟩ := by
  induction bs generalizing px py with
  | nil => simp [layout]
  | cons c bs ih =>
    have head : ∀ (P : Nat → Byte → Prop), (∃ k b, (c :: bs)[k]? = some b ∧ P k b) ↔
        P 0 c ∨ ∃ k b, bs[k]? = some b ∧ P (k + 1) b := by
      intro P
      constructor
      · rintro ⟨k, b, hk, hp⟩
        cases k with
        | zero =>
          rw [List.getElem?_cons_zero, Option.some.injEq] at hk
          exact .inl (hk ▸ hp)
        | succ k => exact .inr ⟨k, b, by simpa using hk, hp⟩
      · rintro (hp | ⟨k, b, hk, hp⟩)
        · exact ⟨0, c, rfl, hp⟩
        · exact ⟨k + 1, b, by simpa using hk, hp⟩
    rw [head (fun k b => b ≠ 0x0a ∧ g = ⟨b, (if 0x0a ∈ (c :: bs).take k then x0 else px) +
      (sinceNewline ((c :: bs).take k) : Int) - (if b = 0x2c then 1 else 0),
      py + 6 * (((c :: bs).take k).count 0x0a : Nat)⟩)]
    by_cases hc : c = 0x0a
    · subst hc
      rw [layout, if_pos rfl, ih]
      simp only [ne_eq, not_true_eq_false, false_and, false_or, List.take_succ_cons]
      refine exists_congr fun k => exists_congr fun b => and_congr_right fun _ => and_congr_right fun _ => ?_
      rw [sinceNewline_cons, List.count_cons_self,
        show ∀ n : Nat, py + 6 + 6 * (n : Int) = py + 6 * ((n + 1 : Nat) : Int) from fun n => by push_cast; ring]
      simp only [or_true, if_true, List.mem_cons, true_or, ite_self, Nat.add_zero]
    · have tail : (∃ k b, bs[k]? = some b ∧ b ≠ 0x0a ∧ g = ⟨b, (if 0x0a ∈ bs.take k then x0 else px + adv c) +
            (sinceNewline (bs.take k) : Int) - (if b = 0x2c then 1 else 0), py + 6 * ((bs.take k).count 0x0a : Nat)⟩) ↔
          ∃ k b, bs[k]? = some b ∧ b ≠ 0x0a ∧ g = ⟨b, (if 0x0a ∈ (c :: bs).take (k + 1) then x0 else px) +
            (sinceNewline ((c :: bs).take (k + 1)) : Int) - (if b = 0x2c then 1 else 0),
            py + 6 * (((c :: bs).take (k + 1)).count 0x0a : Nat)⟩ := by
        refine exists_congr fun k => exists_congr fun b => and_congr_right fun _ => and_congr_right fun _ => ?_
        rw [List.take_succ_cons, sinceNewline_cons, List.count_cons_of_ne hc]
        simp only [List.mem_cons, Ne.symm hc, false_or, hc, or_false]
        split
        · simp
        · push_cast
          rw [show px + adv c + (sinceNewline (bs.take k) : Int) = px + (sinceNewline (bs.take k) + adv c) by ring]
      rw [← tail, ← ih, layout, if_neg hc]
      simp only [List.take_zero, List.not_mem_nil, if_false, List.count_nil, ne_eq, hc, not_false_eq_true, true_and,
        show sinceNewline [] = 0 from rfl, Nat.cast_zero, add_zero, mul_zero]
      split
      · simp
      · simp

/-- The pixels a string writes are those of its bytes' glyphs, each at its place. -/
theorem mem_textPoints {bs : List Byte} {x0 y0 x y : Int} :
    (x, y) ∈ textPoints Config.font adv bs x0 y0 ↔ TextPixel bs x0 y0 x y := by
  simp only [textPoints, List.mem_flatMap, mem_layout, TextPixel, glyphPoints, List.mem_map, List.mem_filter,
    List.mem_finRange, true_and, ite_self, Prod.mk.injEq]
  constructor
  · rintro ⟨g, ⟨k, b, hk, hb, rfl⟩, gy, gx, hf, rfl, rfl⟩
    exact ⟨k, b, gx, gy, hk, hb, hf, rfl, rfl⟩
  · rintro ⟨k, b, gx, gy, hk, hb, hf, rfl, rfl⟩
    exact ⟨_, ⟨k, b, hk, hb, rfl⟩, gy, gx, hf, rfl, rfl⟩

end Sys2Proof.Machine
end

