-- ==== Sys2Proof/Machine/HostView.lean ====
section
/-! DEFINITION. What the spec says of the host's view of values the block returns: the two text formats of a fix32 word
(40_fixed_point.md rules R149 and R150), the `stat` views of the channel records (46_audio.md rule R293) and the error kind a
fault maps to (60_exceptions.md rule R305). No command uses these. -/

namespace Sys2Proof.Machine

/-- A lowercase hexadecimal digit (R149). -/
def hexDigit (n : Nat) : Char := if n < 10 then Char.ofNat (48 + n) else Char.ofNat (87 + n)

/-- `h(x)`: exactly four hexadecimal digits (R149). -/
def hex4 (n : Nat) : List Char := [hexDigit (n / 4096 % 16), hexDigit (n / 256 % 16), hexDigit (n / 16 % 16), hexDigit (n % 16)]

/-- `Hex(v)` (R149). -/
def hexFormat (v : Word) : List Char := ['0', 'x'] ++ hex4 (u32 v / 65536) ++ ['.'] ++ hex4 (u32 v % 65536)

/-- A decimal digit. -/
def decDigit (n : Nat) : Char := Char.ofNat (48 + n % 10)

/-- The decimal digits of a number below 100000, without leading zeros; `I` of R150 is at most 32768. -/
def decimal5 (n : Nat) : List Char :=
  (if 10000 ≤ n then [decDigit (n / 10000)] else []) ++ (if 1000 ≤ n then [decDigit (n / 1000)] else []) ++
    (if 100 ≤ n then [decDigit (n / 100)] else []) ++ (if 10 ≤ n then [decDigit (n / 10)] else []) ++ [decDigit n]

/-- `pad4(F)`: four digits with leading zeros (R150). -/
def pad4 (n : Nat) : List Char := [decDigit (n / 1000), decDigit (n / 100), decDigit (n / 10), decDigit n]

/-- `round_half_even(p / q)` for `q > 0` (R150). -/
def roundHalfEven (p q : Nat) : Nat :=
  let n := p / q
  let r := p % q
  if 2 * r < q then n else if q < 2 * r then n + 1 else if n % 2 = 0 then n else n + 1

/-- `trim` (R150): trailing zero digits go, and the point too if no digit remains. -/
def trimFraction (ds : List Char) : List Char :=
  match (ds.reverse.dropWhile (· == '0')).reverse with
  | [] => []
  | kept => '.' :: kept

/-- `Dec(v)` (R150). -/
def decFormat (v : Word) : List Char :=
  let q := roundHalfEven ((s32 v).natAbs * 10000) 65536
  (if s32 v < 0 then ['-'] else []) ++ decimal5 (q / 10000) ++ trimFraction (pad4 (q % 10000))

/-- `stat(16 + k)`: the sfx index on channel `k`, as a word, `-1` if idle (R293). -/
def statSfx (k : Fin 4) (s : State) : Word := s.channels[k].sfx.signExtend 32

/-- `stat(20 + k)`: the row of channel `k` (R293). -/
def statRow (k : Fin 4) (s : State) : Word := s.channels[k].row.setWidth 32

/-- Whether a recorded fault is the source's BadMemoryAccess (R300, R305); the other two causes have no source
counterpart. -/
def Fault.isBadMemoryAccess (f : Fault) : Bool := f == .badMemoryAccess

end Sys2Proof.Machine
end

