-- ==== Sys2Proof/Tests/Slice0.lean ====
section
/-! SUPPORT. The model's own tests. Every expected value comes from the spec: words from the encoding of 30_encoding.md rules
R91 to R95, results from the examples and corner cases of the command rules and from 95_test_vectors.md. The theorems named
`witness_` show, for each statement of Obligations.lean with hypotheses, states and operands that meet them. -/

namespace Sys2Proof.Tests

open Sys2Proof Sys2Proof.Machine

/-! ### Ill-formed words -/

/-- R96: an opcode the map does not list. -/
theorem test_wf_unknown_opcode : (⟨0x1a, false, false, false, 0⟩ : CommandFields).wf = false := by decide

/-- R91: a reserved bit set. -/
theorem test_wf_reserved_bits : (⟨0x01, false, false, false, 1⟩ : CommandFields).wf = false := by decide

/-- R92: `C` set on an opcode that does not allow it. -/
theorem test_wf_pen_flag : (⟨0x41, true, false, false, 0⟩ : CommandFields).wf = false := by decide

/-- R92: `FX` set on an opcode that does not allow it. -/
theorem test_wf_flip_x_flag : (⟨0x40, false, true, false, 0⟩ : CommandFields).wf = false := by decide

/-- R92: `FY` set on an opcode that does not allow it. -/
theorem test_wf_flip_y_flag : (⟨0x52, false, false, true, 0⟩ : CommandFields).wf = false := by decide

/-- Every illegal range of R96, at its ends. -/
theorem test_decode_gaps : ([0x00, 0x1a, 0x1f, 0x27, 0x2f, 0x39, 0x3f, 0x4a, 0x4f, 0x5b, 0x5f, 0x62, 0x6f, 0x72,
    0xff] : List Word).map decode = List.replicate 15 (.error .unknownOpcode) := by rfl

/-- R96: each reserved bit at the ends of its field. -/
theorem test_decode_reserved : decode 0x00000801 = .error .reservedBits ∧ decode 0x80000001 = .error .reservedBits := by
  decide

/-- R92: each flag on an opcode that does not allow it. -/
theorem test_decode_flags : decode 0x00000101 = .error .flagNotAllowed ∧ decode 0x00000240 = .error .flagNotAllowed ∧
    decode 0x00000460 = .error .flagNotAllowed ∧ decode 0x00000150 = .error .flagNotAllowed := by decide

/-! ### Every constructor's word -/

theorem test_decode_alu : ∀ p ∈ ([
    (0x00000001, .fadd), (0x00000002, .fsub), (0x00000003, .fmul), (0x00000004, .fdiv), (0x00000005, .fneg),
    (0x00000006, .fabs), (0x00000007, .fflr), (0x00000008, .fceil), (0x00000009, .fmin), (0x0000000a, .fmax),
    (0x0000000b, .fmid), (0x0000000c, .feq), (0x0000000d, .flt), (0x0000000e, .fle), (0x0000000f, .ftoi),
    (0x00000010, .band), (0x00000011, .bor), (0x00000012, .bxor), (0x00000013, .bnot), (0x00000014, .shl),
    (0x00000015, .shr), (0x00000016, .lshr), (0x00000017, .rotl), (0x00000018, .rotr), (0x00000019, .fsgn)] : List (Word × Instr)), decode p.1 = .ok p.2 := by decide

theorem test_decode_memory : ∀ p ∈ ([
    (0x00000020, .peek), (0x00000021, .peek4), (0x00000022, .poke), (0x00000023, .poke4), (0x00000024, .memcpy),
    (0x00000025, .memset), (0x00000026, .reload)] : List (Word × Instr)), decode p.1 = .ok p.2 := by decide

theorem test_decode_state : ∀ p ∈ ([
    (0x00000030, .camera), (0x00000031, .clip), (0x00000032, .cliprst), (0x00000033, .pal), (0x00000034, .palt),
    (0x00000035, .palrst), (0x00000036, .color), (0x00000037, .fillp), (0x00000038, .cursor)] : List (Word × Instr)), decode p.1 = .ok p.2 := by decide

theorem test_decode_primitives : ∀ p ∈ ([
    (0x00000040, .pset false), (0x00000140, .pset true), (0x00000041, .pget), (0x00000042, .hline false),
    (0x00000142, .hline true), (0x00000043, .vline false), (0x00000143, .vline true), (0x00000044, .line false),
    (0x00000144, .line true), (0x00000045, .rect false), (0x00000145, .rect true), (0x00000046, .rectfill false),
    (0x00000146, .rectfill true), (0x00000047, .circ false), (0x00000147, .circ true), (0x00000048, .circfill false),
    (0x00000148, .circfill true), (0x00000049, .cls)] : List (Word × Instr)), decode p.1 = .ok p.2 := by decide

theorem test_decode_sprites : ∀ p ∈ ([
    (0x00000050, .spr false false), (0x00000450, .spr false true), (0x00000250, .spr true false),
    (0x00000650, .spr true true), (0x00000051, .sspr false false), (0x00000451, .sspr false true),
    (0x00000251, .sspr true false), (0x00000651, .sspr true true), (0x00000052, .map), (0x00000053, .sget),
    (0x00000054, .sset), (0x00000055, .mget), (0x00000056, .mset), (0x00000057, .fget), (0x00000058, .fgetb),
    (0x00000059, .fset), (0x0000005a, .fsetb)] : List (Word × Instr)), decode p.1 = .ok p.2 := by decide

theorem test_decode_text : ∀ p ∈ ([
    (0x00000060, .print false), (0x00000160, .print true), (0x00000061, .printc false), (0x00000161, .printc true)] : List (Word × Instr)), decode p.1 = .ok p.2 := by decide

theorem test_decode_audio : ∀ p ∈ ([
    (0x00000070, .wave), (0x00000071, .chset)] : List (Word × Instr)), decode p.1 = .ok p.2 := by decide

/-- The word of the opcode table's numbering is the command word, and the next step runs it (R90, R97). -/
theorem test_fetch_word : decodeTableWord 32 0x250 = some (.spr true false) ∧
    step (State.reset.withFetchWord 32 0x36) = .next { State.reset with pen := 0 } := ⟨by decide, rfl⟩

/-! ### One command on a small state -/

/-- The state after reset with every ARG register and TBUF byte written, ARG0 on holding the given words, and pen 0. -/
def ready (ws : List Word) : State :=
  { State.reset with
    args := Vector.ofFn fun i => ws[i.val]?.getD 0
    argWritten := Vector.replicate 8 true
    tbufWritten := Vector.replicate 256 true
    pen := 0 }

/-- The same with a memory. -/
def readyMem (ws : List Word) (m : Memory) : State := { ready ws with mem := m }

/-- The RESULT after a command. -/
def resultOf : Result → Option Word
  | .next t => some t.result
  | _ => none

/-- A byte of memory after a command. -/
def byteOfMem (a : Nat) : Result → Option Byte
  | .next t => some (t.mem.read a)
  | _ => none

/-- Pixels of a screen row after a command. -/
def rowOf (y : Int) (xs : List Int) : Result → Option (List Nibble)
  | .next t => some (xs.map fun x => screenRead t.mem x y)
  | _ => none

/-- The fault record after a command. -/
def faultOf : Result → Option (Option Fault × Word)
  | .next t => some (t.fault, t.faddr)
  | _ => none

/-- What a host read answers last. -/
def replyOf : Result → Option (Option Reply)
  | .next t => some t.replies.getLast?
  | _ => none

/-! Fixed point: the vectors AL1 to AL65. -/

theorem test_fadd_wraps : resultOf (exec .fadd (ready [0x7fffffff, 0x00000001])) = some 0x80000000 := by decide

theorem test_fsub_wraps : resultOf (exec .fsub (ready [0x80000000, 0x00000001])) = some 0x7fffffff := by decide

theorem test_fsub_order : resultOf (exec .fsub (ready [0x00010000, 0x00028000])) = some 0xfffe8000 := by decide

theorem test_fmul_rounds_down : resultOf (exec .fmul (ready [0xffffffff, 0x00000001])) = some 0xffffffff := by decide

theorem test_fmul_wraps : resultOf (exec .fmul (ready [0x80000000, 0x80000000])) = some 0x00000000 := by decide

theorem test_fdiv_saturates : resultOf (exec .fdiv (ready [0x80000000, 0xffff0000])) = some 0x7fffffff := by decide

theorem test_fdiv_truncates : resultOf (exec .fdiv (ready [0xffff0000, 0x00030000])) = some 0xffffaaab := by decide

theorem test_fneg_wraps : resultOf (exec .fneg (ready [0x80000000])) = some 0x80000000 := by decide

theorem test_fabs_wraps : resultOf (exec .fabs (ready [0x80000000])) = some 0x80000000 := by decide

theorem test_fabs_negative : resultOf (exec .fabs (ready [0xfffd8000])) = some 0x00028000 := by decide

theorem test_fflr_negative : resultOf (exec .fflr (ready [0xffffffff])) = some 0xffff0000 := by decide

theorem test_fceil_wraps : resultOf (exec .fceil (ready [0x7fff8000])) = some 0x80000000 := by decide

theorem test_fceil_up : resultOf (exec .fceil (ready [0x00014000])) = some 0x00020000 := by decide

theorem test_fmin_signed : resultOf (exec .fmin (ready [0x80000000, 0x7fffffff])) = some 0x80000000 := by decide

theorem test_fmax_signed : resultOf (exec .fmax (ready [0x00010000, 0xfffe0000])) = some 0x00010000 := by decide

theorem test_fmid_last : resultOf (exec .fmid (ready [0x00050000, 0x00010000, 0x00030000])) = some 0x00030000 := by decide

theorem test_fmid_first : resultOf (exec .fmid (ready [0x00030000, 0x00050000, 0x00010000])) = some 0x00030000 := by decide

theorem test_feq_differs : resultOf (exec .feq (ready [0x00010000, 0x00010001])) = some 0x00000000 := by decide

theorem test_feq_same : resultOf (exec .feq (ready [0x00010000, 0x00010000])) = some 0x00000001 := by decide

theorem test_flt_signed : resultOf (exec .flt (ready [0x80000000, 0x00000000])) = some 0x00000001 := by decide

theorem test_fle_equal : resultOf (exec .fle (ready [0x00020000, 0x00020000])) = some 0x00000001 := by decide

theorem test_ftoi_truncates : resultOf (exec .ftoi (ready [0xfffe8000])) = some 0xffffffff := by decide

theorem test_ftoi_least : resultOf (exec .ftoi (ready [0x80000000])) = some 0xffff8000 := by decide

theorem test_band_fraction : resultOf (exec .band (ready [0x00018000, 0x00014000])) = some 0x00010000 := by decide

theorem test_bor_fraction : resultOf (exec .bor (ready [0x00010000, 0x00008000])) = some 0x00018000 := by decide

theorem test_bxor_bits : resultOf (exec .bxor (ready [0x00030000, 0x00010000])) = some 0x00020000 := by decide

theorem test_bnot_bits : resultOf (exec .bnot (ready [0x00010000])) = some 0xfffeffff := by decide

theorem test_shl_by_32 : resultOf (exec .shl (ready [0x00010000, 0x00200000])) = some 0x00000000 := by decide

theorem test_shl_negative : resultOf (exec .shl (ready [0x00010000, 0xffff0000])) = some 0x00008000 := by decide

theorem test_shr_by_31 : resultOf (exec .shr (ready [0x80000000, 0x001f0000])) = some 0xffffffff := by decide

theorem test_shr_by_40 : resultOf (exec .shr (ready [0xffff0000, 0x00280000])) = some 0xffffffff := by decide

theorem test_lshr_zero_fills : resultOf (exec .lshr (ready [0xffff0000, 0x00010000])) = some 0x7fff8000 := by decide

theorem test_lshr_by_32 : resultOf (exec .lshr (ready [0xffff0000, 0x00200000])) = some 0x00000000 := by decide

theorem test_rotl_by_4 : resultOf (exec .rotl (ready [0x80000001, 0x00040000])) = some 0x00000018 := by decide

theorem test_rotl_negative : resultOf (exec .rotl (ready [0x80000001, 0xffff0000])) = some 0xc0000000 := by decide

theorem test_rotr_by_4 : resultOf (exec .rotr (ready [0x00000001, 0x00040000])) = some 0x10000000 := by decide

theorem test_fsgn_zero : resultOf (exec .fsgn (ready [0x00000000])) = some 0x00010000 := by decide

theorem test_fsgn_negative : resultOf (exec .fsgn (ready [0xfffc8000])) = some 0xffff0000 := by decide

/-! Memory commands: the vectors M1 to M23. -/

theorem test_peek_outside : resultOf (exec .peek (readyMem [fixOf 0x8000] [(0x7fff, 9)])) = some 0 := by decide

theorem test_peek_negative_address : resultOf (exec .peek (readyMem [fixOf 0x7020] [(0x7020, 7)])) = some 7 := by decide

theorem test_peek4_wraps :
    resultOf (exec .peek4 (readyMem [fixOf (-2)] [(0, 0x11), (1, 0x22)])) = some 0x22110000 := by decide

theorem test_peek4_top :
    resultOf (exec .peek4 (readyMem [fixOf 0x7ffe] [(0x7ffe, 0xaa), (0x7fff, 0xbb)])) = some 0x0000bbaa := by decide

theorem test_poke_low_byte : byteOfMem 0x6000 (exec .poke (ready [fixOf 0x6000, fixOf 300])) = some 0x2c := by decide

theorem test_poke_outside :
    faultOf (exec .poke (ready [fixOf (-1), fixOf 1])) = some (some .badMemoryAccess, 0x0000ffff) := by decide

theorem test_poke4_little_endian : exec .poke4 (ready [fixOf 0x7ffc, 0xa1b2c3d4]) =
    .next { ready [fixOf 0x7ffc, 0xa1b2c3d4] with
      mem := [(0x7ffc, 0xd4), (0x7ffd, 0xc3), (0x7ffe, 0xb2), (0x7fff, 0xa1)] } := by rfl

theorem test_poke4_outside : exec .poke4 (ready [fixOf 0x7ffd, 0xffffffff]) =
    .next { ready [fixOf 0x7ffd, 0xffffffff] with fault := some .badMemoryAccess, faddr := 0x00008000 } := by rfl

theorem test_memcpy_overlap :
    (match exec .memcpy (readyMem [fixOf 0x101, fixOf 0x100, fixOf 3] [(0x100, 1), (0x101, 2), (0x102, 3), (0x103, 4)]) with
      | .next t => t.mem
      | _ => []) = [(0x100, 1), (0x101, 1), (0x102, 2), (0x103, 3)] := by decide

theorem test_memcpy_source_wraps :
    byteOfMem 0x201 (exec .memcpy (readyMem [fixOf 0x200, fixOf 0xffff, fixOf 2] [(0, 7)])) = some 7 := by decide

theorem test_memset_row : byteOfMem 0x603f (exec .memset (ready [fixOf 0x6000, fixOf 0x11, fixOf 64])) = some 0x11 := by
  decide

theorem test_memset_outside :
    faultOf (exec .memset (ready [fixOf 0x6000, fixOf 0, fixOf 0x2001])) = some (some .badMemoryAccess, 0x8000) := by decide

theorem test_reload_outside :
    faultOf (exec .reload (ready [fixOf 0x7fff, fixOf 0, fixOf 2])) = some (some .badMemoryAccess, 0x8000) := by decide

/-- R167: every address at or above 0x8000 is at or past CODE_START and reads 0. -/
theorem test_reload_past_code : byteOfMem 0x20 (exec .reload (readyMem [fixOf 0x20, fixOf 0x8000, fixOf 1] [(0x20, 5)])) =
    some 0 := by
  have h : ¬0x8000 < Config.codeStart.val := by omega
  show some (Memory.read (Memory.fill 0x20 1 (fun k => RomImage.readSource _ (0x8000 + k)) _) 0x20) = some 0
  rw [Memory.read_fill, if_pos (by decide)]
  simp [RomImage.readSource, h]

/-! Rendering state: the vectors DS1 to DS20, as the host reads them. -/

/-- The word a register reads as after a command. -/
def registerAfter (r : Register) : Result → Option Word
  | .next t => some (r.word t)
  | _ => none

theorem test_reset_registers : (Register.clip.word State.reset, Register.dpalLo.word State.reset,
    Register.dpalHi.word State.reset, Register.spalHi.word State.reset, Register.transp.word State.reset,
    (Register.channel 3).word State.reset, Register.status.word State.reset) =
    (0x80800000, 0x76543210, 0xfedcba98, 0xfedcba98, 0x00000001, 0x0000ffff, 0) := by decide

theorem test_camera_truncates :
    registerAfter .camera (exec .camera (ready [0xfffe8000, fixOf 300])) = some 0x012cffff := by decide

theorem test_clip_clamps :
    registerAfter .clip (exec .clip (ready [fixOf (-10), fixOf (-10), fixOf 20, fixOf 20])) = some 0x0a0a0000 := by decide

theorem test_clip_negative_width :
    registerAfter .clip (exec .clip (ready [fixOf 50, fixOf 50, fixOf (-5), fixOf 10])) = some 0x3c2d3232 := by decide

theorem test_cliprst : registerAfter .clip (exec .cliprst { ready [] with clip := ⟨20, 20, 30, 30⟩ }) = some 0x80800000 := by
  decide

theorem test_pal_masks : registerAfter .dpalLo (exec .pal (ready [fixOf 17, fixOf 18, fixOf 0])) = some 0x76543220 := by
  decide

theorem test_pal_screen :
    registerAfter .spalHi (exec .pal (ready [fixOf 15, fixOf 0, fixOf 1])) = some 0x0edcba98 := by decide

theorem test_palt_any_nonzero :
    registerAfter .transp (exec .palt (ready [fixOf 5, 0x00000001])) = some 0x00000021 := by decide

theorem test_palrst : (match exec .palrst { ready [] with fillp := 0x5a5a, transp := Vector.replicate 16 true } with
    | .next t => some (Register.fillp.word t, Register.transp.word t)
    | _ => none) = some (0, 0x00000001) := by decide

theorem test_color_sentinel : registerAfter .pen (exec .color (ready [0x01000000])) = some 0x01000000 := by decide

theorem test_fillp_whole : registerAfter .fillp (exec .fillp (ready [0xdeadbeef])) = some 0xdeadbeef := by decide

theorem test_cursor_unconverted : registerAfter .cursorX (exec .cursor (ready [0x00038000, 0xfffe0000])) = some 0x00038000 :=
  by decide

/-! Primitives: the vectors PX1 to PX17, HL1 to HL3, LN1 to LN14, RC1 to RC11 and CI1 to CI10. -/

theorem test_color_bits : colorBits (ready []) 0x00000087 = 0x00870000 ∧ colorBits (ready []) 0x01123456 = 0x00123456 := by
  decide

theorem test_pixel_write_pattern :
    screenRead (pixelWrite fullClip 0x00700001 0 0 []) 0 0 = 7 ∧
    screenRead (pixelWrite fullClip 0x00700001 1 0 [(0x6000, 0xff)]) 1 0 = 0 := by decide

theorem test_pset_byte : byteOfMem 0x7020 (exec (.pset true) (ready [fixOf 64, fixOf 64, 7])) = some 0x07 := by decide

theorem test_pset_transparent_secondary :
    rowOf 0 [0] (exec (.pset true) { readyMem [0, 0, 0x37] [(0x6000, 0x22)] with fillp := 0x0100ffff }) = some [2] := by
  decide

theorem test_pget_odd_column : resultOf (exec .pget (readyMem [fixOf 1, 0] [(0x6000, 0x5a)])) = some 5 := by decide

theorem test_pget_outside_clip :
    resultOf (exec .pget { readyMem [fixOf 5, fixOf 5] [(0x6142, 0x33)] with clip := ⟨20, 20, 30, 30⟩ }) = some 0 := by
  decide

theorem test_hline_swapped : (match exec (.hline true) (ready [fixOf 5, fixOf 2, 0, 9]) with
    | .next t => t.mem
    | _ => []) = [(0x6001, 0x99), (0x6002, 0x99)] := by decide

theorem test_vline_high_nibbles : (match exec (.vline true) (ready [fixOf 3, 0, fixOf 2, 5]) with
    | .next t => t.mem
    | _ => []) = [(0x6001, 0x50), (0x6041, 0x50), (0x6081, 0x50)] := by decide

theorem test_line_half_up : linePoints 0 0 2 1 = [(0, 0), (1, 1), (2, 1)] := by decide

theorem test_line_half_down : linePoints 0 0 4 (-2) = [(0, 0), (1, -1), (2, -1), (3, -2), (4, -2)] := by decide

theorem test_rect_border : (match exec (.rect true) (ready [0, 0, fixOf 3, fixOf 2, 1]) with
    | .next t => t.mem
    | _ => []) = [(0x6000, 0x11), (0x6001, 0x11), (0x6040, 0x01), (0x6041, 0x10), (0x6080, 0x11), (0x6081, 0x11)] := by
  decide

theorem test_rectfill_pattern :
    rowOf 1 [0, 1, 2, 3] (exec (.rectfill true) { ready [0, 0, fixOf 3, fixOf 3, 0x87] with fillp := 0x5a5a }) =
      some [8, 7, 8, 7] := by decide

theorem test_circle_steps : circleSteps 5 = [(5, 0), (5, 1), (5, 2), (4, 3)] ∧ circleSteps (-1) = [] ∧
    circleSteps 4 = [(4, 0), (4, 1), (3, 2)] := by decide

theorem test_circ_no_centre : rowOf 10 [9, 10, 11] (exec (.circ true) (ready [fixOf 10, fixOf 10, fixOf 1, 8])) =
    some [8, 0, 8] := by decide

set_option maxRecDepth 100000 in
theorem test_circfill_corners : rowOf 8 [8, 9, 10, 11, 12] (exec (.circfill true)
    (ready [fixOf 10, fixOf 10, fixOf 2, 8])) = some [0, 8, 8, 8, 0] := by decide

/-- The color goes to both nibbles, from the first byte of SCREEN to its last (R215, vector PX17). -/
theorem test_cls_both_nibbles : byteOfMem 0x6000 (exec .cls (ready [fixOf 0x1a])) = some 0xaa ∧
    byteOfMem 0x7fff (exec .cls (ready [fixOf 0x1a])) = some 0xaa := by
  constructor
  · show some (Memory.read (Memory.fill 0x6000 0x2000 _ _) 0x6000) = some 0xaa
    rw [Memory.read_fill, if_pos (by decide)]
    rfl
  · show some (Memory.read (Memory.fill 0x6000 0x2000 _ _) 0x7fff) = some 0xaa
    rw [Memory.read_fill, if_pos (by decide)]
    rfl

/-! Sprites, sheet, map and flags: the vectors S1 to S15 and the examples of R243 to R251. -/

/-- The first row of sprite 1: colors 1 to 8 (sheet pixels 8 to 15 of row 0). -/
def spriteRow : Memory := [(4, 0x21), (5, 0x43), (6, 0x65), (7, 0x87)]

theorem test_spr_partial : rowOf 0 [0, 1, 2, 3, 4]
    (exec (.spr false false) (readyMem [fixOf 1, 0, 0, 0x00008000, 0x00004000] spriteRow)) = some [1, 2, 3, 4, 0] := by decide

theorem test_spr_flip : rowOf 0 [0, 1, 2, 3]
    (exec (.spr true false) (readyMem [fixOf 1, 0, 0, 0x00008000, 0x00002000] spriteRow)) = some [4, 3, 2, 1] := by decide

theorem test_sspr_halves : rowOf 0 [0, 1, 2, 3]
    (exec (.sspr false false) (readyMem [fixOf 8, 0, fixOf 8, fixOf 8, 0, 0, fixOf 4, fixOf 1] spriteRow)) =
      some [1, 3, 5, 7] := by decide

theorem test_sspr_flip_before_scaling : rowOf 0 [0, 1, 2, 3]
    (exec (.sspr true false) (readyMem [fixOf 8, 0, fixOf 8, fixOf 8, 0, 0, fixOf 4, fixOf 1] spriteRow)) =
      some [7, 5, 3, 1] := by decide

set_option maxRecDepth 100000 in
theorem test_map_draws_tile : rowOf 0 [0, 7, 8]
    (exec .map (readyMem [0, 0, 0, 0, fixOf 1, fixOf 1, 0] (spriteRow ++ [(0x2000, 1)]))) = some [1, 8, 0] := by decide

theorem test_map_layer_skips : rowOf 0 [0, 7]
    (exec .map (readyMem [0, 0, 0, 0, fixOf 1, fixOf 1, fixOf 2] (spriteRow ++ [(0x2000, 1), (0x3001, 0x05)]))) =
      some [0, 0] := by decide

theorem test_sget_outside : resultOf (exec .sget (readyMem [fixOf 128, 0] spriteRow)) = some 0 := by decide

theorem test_sset_high_nibble : byteOfMem 4 (exec .sset (ready [fixOf 9, 0, fixOf 5])) = some 0x50 := by decide

theorem test_mget_lower_half : resultOf (exec .mget (readyMem [fixOf 5, fixOf 40] [(0x1405, 0x21)])) = some 0x21 := by decide

theorem test_mset_upper_half : byteOfMem 0x2000 (exec .mset (ready [0, 0, fixOf 257])) = some 0x01 := by decide

theorem test_mset_outside : exec .mset (ready [fixOf 128, 0, fixOf 1]) = .next (ready [fixOf 128, 0, fixOf 1]) := by rfl

theorem test_fget_outside : resultOf (exec .fget (readyMem [fixOf 256] [(0x3100, 9)])) = some 0 := by decide

theorem test_fgetb_bits : resultOf (exec .fgetb (readyMem [fixOf 2, fixOf 7] [(0x3002, 0x81)])) = some 1 ∧
    resultOf (exec .fgetb (readyMem [fixOf 2, fixOf 1] [(0x3002, 0x81)])) = some 0 := by decide

theorem test_fset_byte : byteOfMem 0x3002 (exec .fset (ready [fixOf 2, fixOf 0x81])) = some 0x81 := by decide

theorem test_fsetb_clears : byteOfMem 0x3002 (exec .fsetb (readyMem [fixOf 2, 0, 0] [(0x3002, 0x81)])) = some 0x80 := by
  decide

/-! Text: the layout for stated advances, and the cursor of PRINTC (R273, R276). -/

/-- "a,b", a newline and a wide byte, with `ADV_CTRL = 0` and `ADV_9A = 8`: the comma is drawn one pixel left. -/
theorem test_layout_comma_newline : layout (advance 0 8) 10 10 20 [0x61, 0x2c, 0x62, 0x0a, 0xa0] =
    [⟨0x61, 10, 20⟩, ⟨0x2c, 13, 20⟩, ⟨0x62, 18, 20⟩, ⟨0xa0, 10, 26⟩] := by decide

theorem test_print_bad_length :
    faultOf (exec (.print true) (ready [fixOf 257, 0, 0, 7])) = some (some .badOperand, 0) := by decide

theorem test_print_takes_pen : registerAfter .pen (exec (.print true) (ready [0, 0, 0, 7])) = some 7 := by decide

theorem test_printc_empty_moves_cursor :
    registerAfter .cursorY (exec (.printc false) { ready [0] with cursorY := fixOf 116 }) = some (fixOf 122) := by decide

theorem test_printc_scroll_cursor : (scrollIfLow { ready [0] with cursorY := 0x00748000 }).cursorY = 0x006e8000 := by decide

/-! Audio: the examples of R291 and R292. -/

theorem test_wave_saw : resultOf (exec .wave (ready [fixOf 2, 0x0000c000])) = some 0x00008000 := by decide

theorem test_wave_bad_id : faultOf (exec .wave (ready [fixOf 8, 0])) = some (some .badOperand, 0) := by decide

theorem test_chset_register :
    registerAfter (.channel 2) (exec .chset (ready [fixOf 2, fixOf 5, fixOf (-1)])) = some 0xffff0005 := by decide

theorem test_chset_bad_channel : faultOf (exec .chset (ready [fixOf 4, 0, 0])) = some (some .badOperand, 0) := by decide

/-! ### The host's side -/

/-- R303: a command after a fault is dropped. -/
theorem test_dropped : step (presentCommand 0x49 { ready [] with fault := some .badOperand }) =
    .next { ready [] with fault := some .badOperand } := by rfl

/-- R33: STATUS reads 0x00000101 after BAD_MEMORY_ACCESS (vector M4). -/
theorem test_status_word : statusWord { ready [] with fault := some .badMemoryAccess } = 0x00000101 := by decide

/-- R47: a TBUF write packs little-endian, and the word reads back. -/
theorem test_tbuf_read_back : replyOf (stepRead 0x1fc (writeTbuf 63 0xa1b2c3d4 State.reset)) =
    some (some (.word 0xa1b2c3d4)) := by decide +revert

/-- R40: the refused accesses. -/
theorem test_refused_accesses : step ((ready []).withAccesses [.read 8 0]) = .refused .wrongWidth ∧
    step ((ready []).withAccesses [.read 32 2]) = .refused .misaligned ∧
    step ((ready []).withAccesses [.read 32 0x30]) = .refused .unlistedOffset ∧
    step ((ready []).withAccesses [.read 32 0x20]) = .refused .writeOnlyRegister ∧
    step ((ready []).withAccesses [.write 32 0x24 0]) = .refused .readOnlyRegister ∧
    step ((ready []).withAccesses [.overlapping]) = .refused .overlappingAccesses := ⟨rfl, rfl, rfl, rfl, rfl, rfl⟩

/-- R332: which commands read a register or text byte not written since reset: the pen operand counts only when `C = 1`, and a
text byte only below the length. -/
theorem test_reads_unwritten : readsUnwritten (.write 32 0x20 0x36) State.reset = true ∧
    readsUnwritten (.write 32 0x20 0x140) (writeArg 1 0 (writeArg 0 0 State.reset)) = true ∧
    readsUnwritten (.write 32 0x20 0x040) (writeArg 1 0 (writeArg 0 0 State.reset)) = false ∧
    readsUnwritten (.write 32 0x20 0x61) (writeArg 0 (fixOf 1) State.reset) = true ∧
    readsUnwritten (.write 32 0x20 0x61) (writeArg 0 (fixOf 0) State.reset) = false := by decide

/-- Log 1: a read of RESULT before any command has returned a value answers what State holds. -/
theorem test_read_before_written : step (State.reset.withAccesses [.read 32 0x24]) =
    .next { State.reset with replies := [.word 0] } := rfl

/-- R149, R150: the two text formats. -/
theorem test_formats : hexFormat 0xfffe8000 = "0xfffe.8000".toList ∧ decFormat 0x00000800 = "0.0312".toList ∧
    decFormat 0x80000000 = "-32768".toList ∧ decFormat 0xffffffff = "-0".toList ∧
    decFormat 0x12345678 = "4660.3378".toList := by decide

/-- R99, R100: a line of the assembly language. -/
theorem test_assembler_line : commandLine (.pset true) [some (Literal.decimal 64 0).word, none, some (Literal.raw 7).word] =
    [.write 32 0 0x00400000, .write 32 8 7, .write 32 0x20 0x140] := by decide

/-! ### Witnesses -/

/-- Every command's operands are written in a `ready` state. -/
theorem ready_operandsWritten (i : Instr) (ws : List Word) : operandsWritten i (ready ws) = true := by
  have h : tbufRead i (ready ws) ≤ 256 := by
    cases i <;> simp only [tbufRead, Config.tbufSize, Nat.zero_le] <;> split <;> omega
  simp only [operandsWritten, Bool.and_eq_true, List.all_eq_true, List.mem_range]
  refine ⟨fun k _ => by simp [ready], fun k hk => ?_⟩
  have : k < 256 := by omega
  simp [ready, this]

theorem witness_LegalWords : State.reset.fault = none ∧ (∀ i, decode 0x0000001a ≠ .ok i) := by
  have h : decode 0x0000001a = .error .unknownOpcode := by rfl
  exact ⟨rfl, fun i => by rw [h]; simp⟩

theorem witness_StepRunsTheDecodedCommand : (State.reset.fault = none ∧ decode 0x00000471 = .error .flagNotAllowed ∧
    decode 0x00000551 = .error .flagNotAllowed ∧ decode 0x00000651 = .ok (.sspr true true)) ∧
    operandsWritten (.sspr true true) (ready []) = true ∧ operandsWritten (.sspr true true) State.reset = false ∧
    { State.reset with fault := some .badOperand }.fault ≠ none ∧ State.reset.inbox = [] := by
  exact ⟨⟨rfl, rfl, rfl, rfl⟩, ready_operandsWritten _ _, by decide, by decide, rfl⟩

theorem witness_CommandsDroppedWhileFaulted : { ready [7] with fault := some .illegalCommand }.fault = some .illegalCommand ∧
    Register.tbuf 63 ≠ .cmd := by decide

theorem witness_TbufWords : (∀ k : Fin 256, k.val / 4 = 63 → (writeTbuf 63 5 State.reset).tbufWritten[k] = true) ∧
    State.reset.tbufWritten[(255 : Fin 256)] = false ∧ (writeTbuf 63 5 State.reset).tbufWritten[(251 : Fin 256)] = false := by
  refine ⟨fun k hk => ?_, by decide, by decide⟩
  obtain ⟨k, h⟩ := k
  have : k = 252 ∨ k = 253 ∨ k = 254 ∨ k = 255 := by simp only at hk; omega
  rcases this with rfl | rfl | rfl | rfl <;> rfl

theorem witness_StatusRegister : (0xffffffff : Word).getLsbD 0 = true ∧ (0xfffffffe : Word).getLsbD 0 = false ∧
    (ready []).fault = none ∧ { ready [] with fault := some .badMemoryAccess }.fault = some .badMemoryAccess := by decide

theorem witness_RegisterPacking : State.reset.clip.bounded ∧ { State.reset with clip := ⟨128, 0, 0, 128⟩ }.clip.bounded := by
  decide

/-- Each clause of R40 at the ends of the ranges of the register map. -/
theorem witness_RegisterAccessRules :
    (∀ o ∈ [0x030, 0x03c, 0x05c, 0x070, 0x07c, 0x090, 0x0fc, 0x200], listedOffset o = false) ∧
    (∀ o ∈ [0x024, 0x02c, 0x040, 0x058, 0x060, 0x06c, 0x080, 0x08c],
      o % 4 = 0 ∧ listedOffset o = true ∧ writableOffset o = false) ∧
    (∃ t, step ((ready []).withAccesses [.read 32 0x1fc]) = .next t) ∧
    ∃ t, step ((ready []).withAccesses [.write 32 0x01c 5]) = .next t :=
  ⟨by decide, by decide, ⟨_, rfl⟩, ⟨_, rfl⟩⟩

/-- Both sides of the reads R22 and R23 speak of. -/
theorem witness_RegisterMap : (0x1fc % 4 = 0 ∧ listedOffset 0x1fc = true ∧ (Register.tbuf 63).offset = 0x1fc) ∧
    Register.result ≠ .cmd ∧ readsUnwritten (.read 32 0x01c) State.reset = true ∧
    readsUnwritten (.read 32 0x01c) (writeArg 7 0 State.reset) = false := by decide

theorem witness_DisplayPortReads : 0x6000 ≤ 0x6000 ∧ 0x6000 < 0x8000 ∧ 0x6000 ≤ 0x7fff ∧ 0x7fff < 0x8000 := by decide

/-- A POKE at 0x8000, which faults. -/
def faulting : State := ready [fixOf (-0x8000), 1]

/-- The state after it. -/
def faulted : State := { faulting with fault := some .badMemoryAccess, faddr := 0x8000 }

theorem witness_FaultRecordIsSticky : step (presentCommand 0x49 faulted) = .next faulted ∧
    faulted.fault = some .badMemoryAccess ∧ ¬ResetNext (presentCommand 0x49 faulted) ∧
    (∀ w rest, (presentCommand 0x49 faulted).inbox = .write 32 0x028 w :: rest → w.getLsbD 0 = false) ∧
    (1 : Word).getLsbD 0 = true ∧ ∃ t, exec .cliprst faulted = .next t := by
  refine ⟨rfl, rfl, ?_, ?_, by decide, ⟨_, rfl⟩⟩
  · simp [ResetNext, presentCommand]
  · simp [presentCommand]

theorem witness_FaultedCommandOnlyRecords : faulting.fault = none ∧ exec .poke faulting = .next faulted ∧
    faulted.fault ≠ none := ⟨rfl, rfl, by decide⟩

/-- Both ends of each operand range, and of a destination run that touches the end of memory. -/
theorem witness_FaultCauses :
    (operandInRange .wave (ready [fixOf 7]) = true ∧ operandInRange .wave (ready [fixOf 8]) = false ∧
      operandInRange .wave (ready [fixOf (-1)]) = false ∧ operandInRange .chset (ready [fixOf 3]) = true ∧
      operandInRange .chset (ready [fixOf 4]) = false ∧ operandInRange (.print true) (ready [fixOf 256]) = true ∧
      operandInRange (.printc false) (ready [fixOf 257]) = false) ∧
    destination .poke4 (ready [fixOf 0x7ffc]) = (0x7ffc, 4) ∧ destination .poke4 (ready [fixOf 0x7ffd]) = (0x7ffd, 4) ∧
    (∀ a, 0x7ffc ≤ a → a < 0x7ffc + 4 → a < 0x8000) ∧
    (0x7ffd ≤ 0x8000 ∧ 0x8000 < 0x7ffd + 4 ∧ ∀ b, 0x7ffd ≤ b → b < 0x8000 → b < 0x8000) ∧
    destination .memset (ready [fixOf (-1), 0, 0]) = (0xffff, 0) ∧
    { ready [] with fault := some .badOperand }.fault = some .badOperand := by
  refine ⟨by decide, by decide, by decide, by omega, ⟨by omega, by omega, fun b _ h => h⟩, by decide, rfl⟩

theorem witness_EveryCommandCompletes : operandsWritten (.sspr true true) (ready []) = true ∧
    operandsWritten (.printc true) (ready [fixOf 256]) = true := ⟨ready_operandsWritten _ _, ready_operandsWritten _ _⟩

theorem witness_CommandsKeepHostRegisters : ∃ t, exec .cliprst (ready []) = .next t := ⟨_, rfl⟩

theorem witness_OnlyReturningCommandsWriteResult : (ready []).fault = none ∧
    (∃ t, exec .cliprst (ready []) = .next t ∧ returnsValue .cliprst = false) ∧
    ∃ t, exec .fadd (ready []) = .next t ∧ returnsValue .fadd = true ∧ t.fault = none :=
  ⟨rfl, ⟨_, rfl, rfl⟩, ⟨_, rfl, rfl, rfl⟩⟩

theorem witness_AluReadsOperandsWritesResult : isAlu .fsgn = true ∧ isAlu .fadd = true ∧
    operandsWritten .fadd (ready [1, 2]) = true ∧ operandsWritten .fadd (ready [1, 2, 3]) = true ∧
    ∀ k ∈ argsRead .fadd, readArg k (ready [1, 2, 3]) = readArg k (ready [1, 2]) := by decide

theorem witness_DrawsWriteOnlyTheScreen : isDraw (.pset true) = true ∧ hasPen (.pset true) = true ∧
    (ready [0, 0, 7]).fault = none ∧ (∀ c, Instr.pset true ≠ .printc c) ∧ (2 : Fin 8).val = plainOperands (.pset true) ∧
    operandInRange (.print true) (ready [fixOf 256]) = true ∧
    ∃ t, exec (.pset true) (ready [0, 0, 7]) = .next t ∧ t.fault = none :=
  ⟨rfl, rfl, rfl, by simp, rfl, by decide, ⟨_, rfl, rfl⟩⟩

/-- A pixel just past the open edge of a clip, and a PRINTC at the last cursor row that does not scroll. -/
theorem witness_NothingIsDrawnOutsideTheClip :
    isDraw (.pset true) = true ∧ Instr.pset true ≠ .cls ∧ (∀ c, Instr.pset true ≠ .printc c) ∧
    (∃ t, exec (.pset true) { ready [fixOf 30, fixOf 20, 7] with clip := ⟨20, 20, 30, 30⟩ } = .next t) ∧ inSquare 30 20 ∧
    ¬((20 : Int) ≤ 30 ∧ (30 : Int) < 30 ∧ (20 : Int) ≤ 20 ∧ (20 : Int) < 30) ∧
    s32 { ready [0] with cursorY := fixOf 116 }.cursorY ≤ 116 * 65536 := by
  exact ⟨rfl, by simp, by simp, ⟨_, rfl⟩, by decide, by decide, by decide⟩

theorem witness_StateChangesOnlyByItsWriters : step (presentCommand 0x30 (ready [fixOf 1])) =
    .next { ready [fixOf 1] with cameraX := 1 } ∧ ¬ResetNext (presentCommand 0x30 (ready [fixOf 1])) ∧
    Memory.wf [(0x7fff, 1)] := ⟨rfl, by simp [ResetNext, presentCommand], by decide⟩

/-- A PRINT of one byte that differs only in what it does not read; a command whose operands are not written; and two states
that differ in an unwritten register, whose next access does not read it. -/
theorem witness_WrittenMarksDoNotAct :
    (∀ k ∈ argsRead (.print false), (ready [fixOf 1, 2, 3, 9]).args[k] = readArg k (ready [fixOf 1, 2, 3])) ∧
    tbufRead (.print false) (ready [fixOf 1, 2, 3]) = 1 ∧
    (∀ k : Fin 256, k.val < 1 → (writeTbuf 1 5 (ready [])).tbuf[k] = (ready [fixOf 1, 2, 3]).tbuf[k]) ∧
    (State.reset.fault = none ∧ decode 0x36 = .ok .color ∧ operandsWritten .color State.reset = false) ∧
    SameButUnwritten (presentCommand 0x32 State.reset)
      { presentCommand 0x32 State.reset with args := Vector.replicate 8 5, result := 5 } ∧
    (presentCommand 0x32 State.reset).readsWritten ∧ ∃ t, step (presentCommand 0x32 State.reset) = .next t := by
  refine ⟨by decide, by decide, fun k hk => ?_, ⟨rfl, rfl, by decide⟩,
    ⟨rfl, fun k hk => ?_, fun h => (by cases h), fun _ _ => rfl⟩, fun a rest h => ?_, ⟨_, rfl⟩⟩
  · obtain rfl : k = 0 := Fin.ext (by simp only [Fin.val_zero]; omega)
    rfl
  · simp [presentCommand, State.reset] at hk
  · cases h
    decide

theorem witness_EveryStepKeepsInvariant : State.reset.Inv ∧ step State.reset = .next State.reset :=
  ⟨⟨by decide, by decide, by decide, trivial⟩, rfl⟩

/-- An operand below 0, one not below 0, and one at each end of the range. -/
theorem witness_OperandCoercions : 0 ≤ s32 0x7fffffff ∧ s32 0x80000000 < 0 ∧ s32 0xffffffff < 0 := by decide

theorem witness_WrappingArithmetic : ∀ i ∈ [Instr.fadd, .fsub, .fneg, .fabs],
    operandsWritten i (ready [0x80000000, 1]) = true := fun _ _ => ready_operandsWritten _ _

theorem witness_FmulRoundsDown : operandsWritten .fmul (ready [0xffffffff, 1]) = true := ready_operandsWritten _ _

theorem witness_FdivSaturates : operandsWritten .fdiv (ready [0, 0]) = true ∧
    (s32 (readArg 1 (ready [0, 0])) = 0 ∧ 0 ≤ s32 (readArg 0 (ready [0, 0]))) ∧
    (s32 (readArg 1 (ready [0xffffffff, 0])) = 0 ∧ s32 (readArg 0 (ready [0xffffffff, 0])) < 0) ∧
    s32 (readArg 1 (ready [5, 0xffffffff])) ≠ 0 := by decide

theorem witness_FloorAndCeiling : ∀ i ∈ [Instr.fflr, .fceil], operandsWritten i (ready [0xffffffff]) = true :=
  fun _ _ => ready_operandsWritten _ _

theorem witness_SignedSelection : ∀ i ∈ [Instr.fmin, .fmax, .fmid], operandsWritten i (ready [3, 0x80000000, 3]) = true :=
  fun _ _ => ready_operandsWritten _ _

theorem witness_ComparisonAndConversion : (∀ i ∈ [Instr.feq, .flt, .fle, .ftoi, .fsgn],
    operandsWritten i (ready [0x80000000, 0]) = true) ∧ s32 (readArg 0 (ready [0x80000000])) < 0 ∧
    0 ≤ s32 (readArg 0 (ready [0])) := ⟨fun _ _ => ready_operandsWritten _ _, by decide, by decide⟩

theorem witness_BitwiseOnEveryBit : ∀ i ∈ [Instr.band, .bor, .bxor, .bnot], operandsWritten i (ready [5, 3]) = true :=
  fun _ _ => ready_operandsWritten _ _

/-- Counts 0 (where both clauses hold and agree), 32, 32767, -1 and -32768. -/
theorem witness_ShiftsMoveBits : (∀ i ∈ [Instr.shl, .shr, .lshr], operandsWritten i (ready [5, fixOf 32]) = true) ∧
    intOf (readArg 1 (ready [5, 0])) = 0 ∧ intOf (readArg 1 (ready [5, fixOf 32])) = 32 ∧
    intOf (readArg 1 (ready [5, 0x7fffffff])) = 32767 ∧ intOf (readArg 1 (ready [5, fixOf (-1)])) = -1 ∧
    intOf (readArg 1 (ready [5, 0x80000000])) = -32768 :=
  ⟨fun _ _ => ready_operandsWritten _ _, by decide, by decide, by decide, by decide, by decide⟩

theorem witness_RotatesMoveBits : ∀ i ∈ [Instr.rotl, .rotr], operandsWritten i (ready [5, fixOf (-1)]) = true :=
  fun _ _ => ready_operandsWritten _ _

/-- The last address of memory and the first outside. -/
theorem witness_PeekReads : (∀ i ∈ [Instr.peek, .peek4], operandsWritten i (ready [fixOf 0x7fff]) = true) ∧
    addrOf (readArg 0 (ready [fixOf 0x7fff])) = 0x7fff ∧ addrOf (readArg 0 (ready [fixOf (-0x8000)])) = 0x8000 :=
  ⟨fun _ _ => ready_operandsWritten _ _, by decide, by decide⟩

/-- The last place each store fits, and the first where it does not. -/
theorem witness_PokeStores : (∀ i ∈ [Instr.poke, .poke4], operandsWritten i (ready [fixOf 0x7ffc, 1]) = true) ∧
    addrOf (readArg 0 (ready [fixOf 0x7fff])) < 0x8000 ∧ 0x8000 ≤ addrOf (readArg 0 (ready [fixOf (-0x8000)])) ∧
    addrOf (readArg 0 (ready [fixOf 0x7ffc])) + 3 < 0x8000 ∧ 0x8000 ≤ addrOf (readArg 0 (ready [fixOf 0x7ffd])) + 3 :=
  ⟨fun _ _ => ready_operandsWritten _ _, by decide, by decide, by decide, by decide⟩

/-- An empty run at the last address, a run that ends with memory, and one a byte longer. -/
theorem witness_RunStores : (∀ i ∈ [Instr.memcpy, .memset, .reload], operandsWritten i (ready [fixOf 0x7ff0, 0, fixOf 16]) =
      true) ∧
    (0xffff = addrOf (readArg 0 (ready [fixOf (-1), 0, 0])) ∧ 0 = addrOf (readArg 2 (ready [fixOf (-1), 0, 0]))) ∧
    (0x7ff0 = addrOf (readArg 0 (ready [fixOf 0x7ff0, 0, fixOf 16])) ∧
      16 = addrOf (readArg 2 (ready [fixOf 0x7ff0, 0, fixOf 16])) ∧ 0x7ff0 + 16 ≤ 0x8000) ∧
    17 = addrOf (readArg 2 (ready [fixOf 0x7ff0, 0, fixOf 17])) ∧ 0x8000 < 0x7ff0 + 17 :=
  ⟨fun _ _ => ready_operandsWritten _ _, by decide, by decide, by decide, by decide⟩

/-- The first and the last cell the sheet and the map share. -/
theorem witness_MapSharesSheetStorage : ((0 : Int) ≤ 0 ∧ (0 : Int) < 128 ∧ (32 : Int) ≤ 32 ∧ (32 : Int) < 64) ∧
    (0 : Int) ≤ 127 ∧ (127 : Int) < 128 ∧ (32 : Int) ≤ 63 ∧ (63 : Int) < 64 := by decide

/-- The corners of the square, in an even and an odd column. -/
theorem witness_PixelViewsWriteOneNibble : (inSquare 0 0 ∧ (0 : Int) % 2 = 0 ∧ (0 : Int) = 64 * 0 + 0 / 2) ∧
    (inSquare 127 127 ∧ (127 : Int) % 2 = 1 ∧ (0x1fff : Int) = 64 * 127 + 127 / 2 ∧
      (0x7fff : Int) = 0x6000 + 64 * 127 + 127 / 2) ∧ ¬inSquare 128 0 ∧ ¬inSquare 0 (-1) := by decide

theorem witness_RenderingRegisterCommands : ∀ i ∈ [Instr.camera, .clip, .color, .fillp, .cursor],
    operandsWritten i (ready [fixOf (-10), fixOf 20, fixOf 300, 1]) = true := fun _ _ => ready_operandsWritten _ _

theorem witness_PaletteCommands : (∀ i ∈ [Instr.pal, .palt], operandsWritten i (ready [fixOf 17, 1, fixOf 1]) = true) ∧
    intOf (readArg 2 (ready [0, 0, fixOf 1])) = 1 ∧ intOf (readArg 2 (ready [0, 0, fixOf 2])) ≠ 1 :=
  ⟨fun _ _ => ready_operandsWritten _ _, by decide, by decide⟩

theorem witness_ColorBitsFields : (0x01123456 : Word).getLsbD 24 = true ∧ (0xfe123456 : Word).getLsbD 24 = false := by decide

/-- The closed and the open edge of a clip, and the three cases of the pattern bit at `(3, 3)`. -/
theorem witness_PixelWriteRule : (⟨3, 3, 4, 4⟩ : Clip).bounded ∧ (15 : Int) = 3 % 4 + 4 * (3 % 4) ∧
    ¬((3 : Int) ≤ 4 ∧ (4 : Int) < 4) ∧ (0x00007fff : Word).getLsbD 15 = false ∧
    ((0x00008000 : Word).getLsbD 15 = true ∧ (0x00008000 : Word).getLsbD 24 = false) ∧
    (0x01008000 : Word).getLsbD 15 = true ∧ (0x01008000 : Word).getLsbD 24 = true := by decide

theorem witness_PointsAndSpans : ∀ i ∈ [Instr.pset true, .hline false, .vline true],
    operandsWritten i (ready [fixOf 5, fixOf 2, 0, 9]) = true := fun _ _ => ready_operandsWritten _ _

/-- The first pixel of a clip and the first past it. -/
theorem witness_PgetReads : operandsWritten .pget (ready [fixOf 20, fixOf 21]) = true ∧ (⟨20, 20, 30, 30⟩ : Clip).bounded ∧
    20 = camX (ready []) (fixOf 20) ∧ 21 = camY (ready []) (fixOf 21) ∧ 30 = camX (ready []) (fixOf 30) := by decide

theorem witness_LineDraws : operandsWritten (.line true) (ready [0, 0, 0, 0, 7]) = true := ready_operandsWritten _ _

theorem witness_RectanglesDraw : operandsWritten (.rect true) (ready [fixOf 3, 0, 0, fixOf 2, 1]) = true ∧
    operandsWritten (.rectfill false) (ready [fixOf 3, 0, 0, fixOf 2]) = true ∧
    (0 : Int) = min (camX (ready []) (fixOf 3)) (camX (ready []) 0) := by decide

theorem witness_CirclesDraw : operandsWritten (.circ true) (ready [0, 0, fixOf 5, 1]) = true ∧
    operandsWritten (.circfill false) (ready [0, 0, fixOf (-1)]) = true ∧ intOf (fixOf (-1)) = -1 := by decide

theorem witness_ClsFillsTheScreen : operandsWritten .cls (ready [fixOf 0x1a]) = true ∧ 0x6000 ≤ 0x7fff ∧ 0x7fff < 0x8000 ∧
    ¬(0x6000 ≤ 0x5fff ∧ 0x5fff < 0x8000) := by decide

/-- A partial sprite, and one whose width wraps. -/
theorem witness_SprBlits : operandsWritten (.spr true false) (ready [fixOf 1, 0, 0, 0x8000, 0x4000]) = true ∧
    Wraps 0x00040000 (8 * s32 0x00008000) ∧ Wraps 0x00000000 (8 * s32 0x20000000) := by
  refine ⟨ready_operandsWritten _ _, ?_, ?_⟩ <;> unfold Wraps <;> decide

theorem witness_SsprBlits : operandsWritten (.sspr false true) (ready [0, 0, 0, 0, 0, 0, fixOf 4, fixOf (-1)]) = true ∧
    4 = intOf (fixOf 4) ∧ -1 = intOf (fixOf (-1)) := by decide

theorem witness_MapBlits : operandsWritten .map (ready [0, 0, 0, 0, fixOf 1, fixOf 1, fixOf 2]) = true ∧
    2 = byteValue (fixOf 2) := by decide

/-- The corners of the sheet, the two halves of the map, and the places just outside. -/
theorem witness_SheetAndMapCells : (∀ i ∈ [Instr.sget, .sset, .mget, .mset],
      operandsWritten i (ready [fixOf 127, fixOf 31, 1]) = true) ∧
    (127 = intOf (fixOf 127) ∧ inSquare 127 31 ∧ inMap 127 31 ∧ inMap 127 32 ∧ inMap 127 63) ∧ ¬inSquare 128 0 ∧
    ¬inMap 0 64 ∧ ¬inMap (-1) 0 := ⟨fun _ _ => ready_operandsWritten _ _, by decide, by decide, by decide, by decide⟩

/-- The last sprite and flag and the first outside. -/
theorem witness_SpriteFlags : (∀ i ∈ [Instr.fget, .fgetb, .fset, .fsetb],
      operandsWritten i (ready [fixOf 255, fixOf 7, 1]) = true) ∧ 255 = intOf (fixOf 255) ∧ 7 = intOf (fixOf 7) ∧
    256 = intOf (fixOf 256) ∧ -1 = intOf (fixOf (-1)) ∧ 8 = intOf (fixOf 8) :=
  ⟨fun _ _ => ready_operandsWritten _ _, by decide, by decide, by decide, by decide, by decide⟩

/-- The lengths 0, 256, 257 and -1, and a byte of each range of R271. -/
theorem witness_PrintDraws : (operandsWritten (.print true) (ready [fixOf 256, 0, 0, 7]) = true ∧
    operandsWritten (.print false) (ready [fixOf 257]) = true) ∧ 0 = intOf (readArg 0 (ready [0])) ∧
    256 = intOf (readArg 0 (ready [fixOf 256])) ∧ 257 = intOf (readArg 0 (ready [fixOf 257])) ∧
    -1 = intOf (readArg 0 (ready [fixOf (-1)])) :=
  ⟨⟨ready_operandsWritten _ _, ready_operandsWritten _ _⟩, by decide, by decide, by decide, by decide⟩

/-- The lengths 0 and -1, and the cursor rows 116.0 and 116.5. -/
theorem witness_PrintcDraws : operandsWritten (.printc true) (ready [0, 7]) = true ∧
    0 = intOf (readArg 0 (ready [0])) ∧ -1 = intOf (readArg 0 (ready [fixOf (-1)])) ∧
    s32 { ready [] with cursorY := fixOf 116 }.cursorY ≤ 116 * 65536 ∧
    116 * 65536 < s32 { ready [] with cursorY := 0x00748000 }.cursorY := by decide

/-- The ids 0, 2, 3, 7, 8 and -1. -/
theorem witness_WaveReturns : operandsWritten .wave (ready [fixOf 7, 0x12348000]) = true ∧
    0x8000 = u32 (readArg 1 (ready [fixOf 7, 0x12348000])) % 65536 ∧
    [0, 2, 3, 7, 8, -1].map (fun k => intOf (readArg 0 (ready [fixOf k]))) = [0, 2, 3, 7, 8, -1] := by decide

/-- The channels 0, 3, 4 and -1. -/
theorem witness_ChsetWrites : operandsWritten .chset (ready [fixOf 3, fixOf 5, fixOf (-1)]) = true ∧
    [0, 3, 4, -1].map (fun k => intOf (readArg 0 (ready [fixOf k]))) = [0, 3, 4, -1] := by decide

end Sys2Proof.Tests
end

section
/-! PROOFS. The operand coercions (00_scope.md rules R12 and R14), each as arithmetic on the operand's word. -/

namespace Sys2Proof.Machine

/-! ### `Int(v)` as a rounding of the rational value -/

theorem intOf_eq_floor {v : Word} (h : 0 ≤ s32 v) : intOf v = ⌊(s32 v : ℚ) / 65536⌋ :=
  (intOf_of_nonneg h).trans (floor_intDiv (s32 v) 65536).symm

theorem intOf_eq_ceil {v : Word} (h : s32 v < 0) : intOf v = ⌈(s32 v : ℚ) / 65536⌉ :=
  (intOf_of_neg h).trans (ceil_intDiv (s32 v) 65536).symm

/-! ### The residues of `Int(v)` and `Bool(v)` -/

theorem addrOf_cast (v : Word) : (addrOf v : Int) = intOf v % 0x10000 :=
  Int.toNat_of_nonneg (Int.emod_nonneg _ (by decide))

theorem toNat_ofInt_cast (w : Nat) (n : Int) : ((BitVec.ofInt w n).toNat : Int) = n % (2 ^ w : Nat) := by
  have hpos : ((2 ^ w : Nat) : Int) ≠ 0 := Int.natCast_ne_zero.2 (Nat.two_pow_pos w).ne'
  rw [BitVec.toNat_ofInt, Int.toNat_of_nonneg (Int.emod_nonneg _ hpos)]

theorem byteValue_cast (v : Word) : ((byteValue v).toNat : Int) = intOf v % 0x100 := toNat_ofInt_cast 8 (intOf v)

theorem colOf_cast (v : Word) : ((colOf v).toNat : Int) = intOf v % 0x10 := toNat_ofInt_cast 4 (intOf v)

theorem boolOf_eq_true_iff (v : Word) : boolOf v = true ↔ v ≠ 0 := bne_iff_ne

/-! ### The camera -/

/-- A camera coordinate has 16 bits, so its fix32 value does not wrap. -/
theorem s32_fixOf_toInt (c : BitVec 16) : s32 (fixOf c.toInt) = 65536 * c.toInt := by
  have hlo : -2 ^ (16 - 1) ≤ c.toInt := BitVec.le_toInt c
  have hhi : c.toInt < 2 ^ (16 - 1) := BitVec.toInt_lt
  unfold fixOf
  rw [s32_wrap32 (by omega) (by omega), mul_comm]

theorem camX_eq (s : State) (v : Word) : camX s v = intOf (wrap32 (s32 v - 65536 * s.cameraX.toInt)) := by
  unfold camX
  rw [s32_fixOf_toInt]

theorem camY_eq (s : State) (v : Word) : camY s v = intOf (wrap32 (s32 v - 65536 * s.cameraY.toInt)) := by
  unfold camY
  rw [s32_fixOf_toInt]

/-- Settles O27: each coercion by its own lemma; for the camera the subtraction is exact before its one wrap. -/
theorem operandCoercions : Obligations.OperandCoercions := by
  intro v s
  obtain ⟨hlo, hhi⟩ := intOf_bounds v
  exact ⟨hlo, hhi, intOf_eq_floor, intOf_eq_ceil, addrOf_cast v, byteValue_cast v, colOf_cast v, boolOf_eq_true_iff v,
    ⟨_, wraps_wrap32 _, camX_eq s v⟩, ⟨_, wraps_wrap32 _, camY_eq s v⟩⟩

end Sys2Proof.Machine
end

section
/-! PROOFS. Everything one step can do, said once (`step_effect`), which command changes which piece of state (the lemmas
`Effect.…_writer`), and from these the frames and the invariant of the machine (10_state.md). -/

namespace Sys2Proof.Machine

/-! ### What a command changes -/

theorem effect_of_exec {i : Instr} {s t : State} (h : exec i s = .next t) : Effect s i t := by
  obtain ⟨t', h', e⟩ := exec_effect i s
  cases h'.symm.trans h
  exact e

section Writers

variable {s t : State} {i : Instr}

theorem Effect.keeps_host_registers (e : Effect s i t) :
    t.args = s.args ∧ t.argWritten = s.argWritten ∧ t.tbuf = s.tbuf ∧ t.tbufWritten = s.tbufWritten ∧ t.rom = s.rom ∧
      t.inbox = s.inbox ∧ t.replies = s.replies := by
  cases e <;> exact ⟨rfl, rfl, rfl, rfl, rfl, rfl, rfl⟩

theorem Effect.mem_writer (e : Effect s i t) (h : t.mem ≠ s.mem) : (isDraw i || isStore i) = true := by
  cases e with
  | stored hi => simp [hi]
  | drew hi => simp [hi]
  | printed => rfl
  | _ => exact absurd rfl h

theorem Effect.result_writer (e : Effect s i t) (h : t.result ≠ s.result ∨ t.resultWritten ≠ s.resultWritten) :
    returnsValue i = true := by
  cases e with
  | returned hi => exact hi
  | _ => simp at h

theorem Effect.pen_writer (e : Effect s i t) (h : t.pen ≠ s.pen) : i = .color ∨ hasPen i = true := by
  cases e with
  | setPen => exact .inl rfl
  | drew _ _ _ _ hpen => exact .inr (by_contra fun hn => h (hpen (Bool.eq_false_iff.2 hn)))
  | printed c =>
    cases c with
    | true => exact .inr rfl
    | false => exact absurd rfl h
  | _ => exact absurd rfl h

theorem Effect.fillp_writer (e : Effect s i t) (h : t.fillp ≠ s.fillp) : i = .fillp ∨ i = .palrst := by
  cases e with
  | setPattern => exact .inl rfl
  | resetPalettes => exact .inr rfl
  | _ => exact absurd rfl h

theorem Effect.clip_writer (e : Effect s i t) (h : t.clip ≠ s.clip) : i = .clip ∨ i = .cliprst := by
  cases e with
  | setClip hi => exact hi
  | _ => exact absurd rfl h

theorem Effect.camera_writer (e : Effect s i t) (h : t.cameraX ≠ s.cameraX ∨ t.cameraY ≠ s.cameraY) : i = .camera := by
  cases e with
  | moveCamera => rfl
  | _ => simp at h

theorem Effect.cursorX_writer (e : Effect s i t) (h : t.cursorX ≠ s.cursorX) : i = .cursor := by
  cases e with
  | moveCursor => rfl
  | _ => exact absurd rfl h

theorem Effect.cursorY_writer (e : Effect s i t) (h : t.cursorY ≠ s.cursorY) : i = .cursor ∨ ∃ c, i = .printc c := by
  cases e with
  | moveCursor => exact .inl rfl
  | printed c => exact .inr ⟨c, rfl⟩
  | _ => exact absurd rfl h

theorem Effect.palette_writer (e : Effect s i t) (h : t.dpal ≠ s.dpal ∨ t.spal ≠ s.spal) : i = .pal ∨ i = .palrst := by
  cases e with
  | setPalette => exact .inl rfl
  | resetPalettes => exact .inr rfl
  | _ => simp at h

theorem Effect.transp_writer (e : Effect s i t) (h : t.transp ≠ s.transp) : i = .palt ∨ i = .palrst := by
  cases e with
  | setTransparency => exact .inl rfl
  | resetPalettes => exact .inr rfl
  | _ => exact absurd rfl h

theorem Effect.channels_writer (e : Effect s i t) (h : t.channels ≠ s.channels) : i = .chset := by
  cases e with
  | setChannel => rfl
  | _ => exact absurd rfl h

/-- A command that returns a value returns it or faults. -/
theorem Effect.returned_or_faulted (e : Effect s i t) (h : returnsValue i = true) :
    (∃ w, t = s.setResult w) ∨ t.fault ≠ none := by
  cases e with
  | returned _ w => exact .inl ⟨w, rfl⟩
  | faulted k a => exact .inr (by simp)
  | stored hi => simp [not_returnsValue_of_isStore hi] at h
  | drew hi => simp [not_returnsValue_of_isDraw hi] at h
  | setClip hi => rcases hi with rfl | rfl <;> cases h
  | _ => cases h

/-- A draw other than CLS, and other than a PRINTC that scrolls, leaves the pixels outside the clip. -/
theorem Effect.keeps_clipped_pixel (e : Effect s i t) (hdraw : isDraw i = true) (hcls : i ≠ .cls)
    (hscroll : (∀ c, i ≠ .printc c) ∨ s32 s.cursorY ≤ 116 * 65536) {x y : Int} (hs : inSquare x y)
    (hc : s.clip.contains x y = false) : screenRead t.mem x y = screenRead s.mem x y := by
  cases e with
  | drew _ _ _ _ _ _ _ _ clipped => exact clipped hcls x y hs hc
  | printed c _ _ _ _ clipped => exact clipped (hscroll.resolve_left fun h => h c rfl) x y hs hc
  | stored hi => exact absurd hi (by simp [not_isStore_of_isDraw hdraw])
  | _ => rfl

theorem Effect.keeps_inv (e : Effect s i t) (h : s.Inv) : t.Inv := by
  obtain ⟨hmem, hclip, hfault, hrom⟩ := h
  cases e with
  | stored _ m wf => exact ⟨wf hmem, hclip, hfault, hrom⟩
  | drew _ _ _ _ _ _ wf => exact ⟨wf hmem, hclip, hfault, hrom⟩
  | printed _ _ _ wf => exact ⟨wf hmem, hclip, hfault, hrom⟩
  | setClip _ _ hc => exact ⟨hmem, hc, hfault, hrom⟩
  | faulted _ _ hk => exact ⟨hmem, hclip, hk, hrom⟩
  | _ => exact ⟨hmem, hclip, hfault, hrom⟩

end Writers

/-! ### What a step changes -/

/-- The access is a read: of a register by the host, or through the display port. -/
def HostAccess.IsRead (a : HostAccess) : Prop :=
  (∃ width o, a = .read width o) ∨ (∃ addr, a = .displayByte addr) ∨ ∃ i, a = .displayPalette i

/-- What a step can do to a state, by the access that is next. -/
inductive StepEffect (s : State) : State → Prop where
  | idle (h : s.inbox = []) : StepEffect s s
  | wroteArg {rest : List HostAccess} (i : Fin 8) (w : Word) (h : s.inbox = .write 32 (4 * i.val) w :: rest) :
      StepEffect s (writeArg i w { s with inbox := rest })
  | wroteTbuf {rest : List HostAccess} (j : Fin 64) (w : Word) (h : s.inbox = .write 32 (0x100 + 4 * j.val) w :: rest) :
      StepEffect s (writeTbuf j w { s with inbox := rest })
  | clearedFault {rest : List HostAccess} (w : Word) (h : s.inbox = .write 32 0x028 w :: rest) (hw : w.getLsbD 0 = true) :
      StepEffect s (State.clearFault { s with inbox := rest })
  /-- A write of STATUS with bit 0 clear (R33), or of CMD while a fault is recorded (R303). -/
  | ignored {rest : List HostAccess} {a : HostAccess} (h : s.inbox = a :: rest) : StepEffect s { s with inbox := rest }
  | rejected {rest : List HostAccess} (w : Word) (h : s.inbox = .write 32 0x020 w :: rest) (hf : s.fault = none) :
      StepEffect s (State.raiseFault .illegalCommand 0 { s with inbox := rest })
  | performed {rest : List HostAccess} {w : Word} {i : Instr} {t : State} (h : s.inbox = .write 32 0x020 w :: rest)
      (hf : s.fault = none) (hd : decode w = .ok i) (e : Effect { s with inbox := rest } i t) : StepEffect s t
  | loaded {rest : List HostAccess} (image : Memory) (h : s.inbox = .loadRom image :: rest) (wf : image.wf) :
      StepEffect s { s with inbox := rest, rom := .replaced image }
  | answered {rest : List HostAccess} {a : HostAccess} (r : Reply) (h : s.inbox = a :: rest) (ha : a.IsRead) :
      StepEffect s (State.reply r { s with inbox := rest })
  | reset {rest : List HostAccess} (h : s.inbox = .reset :: rest) :
      StepEffect s (State.afterReset { s with inbox := rest })

theorem writeStatus_of_set {w : Word} (h : w.getLsbD 0 = true) (s : State) : writeStatus w s = s.clearFault := if_pos h

theorem writeStatus_of_clear {w : Word} (h : w.getLsbD 0 = false) (s : State) : writeStatus w s = s :=
  if_neg (Bool.eq_false_iff.1 h)

theorem hostWrite_effect {s t : State} {rest : List HostAccess} {width o : Nat} {w : Word}
    (hin : s.inbox = .write width o w :: rest) (h : hostWrite width o w { s with inbox := rest } = .next t) :
    StepEffect s t := by
  rcases hostWrite_cases width o w { s with inbox := rest } with
    ⟨i, rfl, rfl, hw⟩ | ⟨rfl, rfl, hw⟩ | ⟨rfl, rfl, hw⟩ | ⟨j, rfl, rfl, hw⟩ | ⟨r, hw⟩
  · cases hw.symm.trans h
    exact .wroteArg i w hin
  · rcases issue_cases w { s with inbox := rest } with ⟨-, hi⟩ | ⟨hf, -, hi⟩ | ⟨i, hf, hd, hi⟩
    · cases (hw.trans hi).symm.trans h
      exact .ignored hin
    · cases (hw.trans hi).symm.trans h
      exact .rejected w hin hf
    · exact .performed hin hf hd (effect_of_exec ((hw.trans hi).symm.trans h))
  · cases hw.symm.trans h
    by_cases hb : w.getLsbD 0 = true
    · rw [writeStatus_of_set hb]
      exact .clearedFault w hin hb
    · rw [writeStatus_of_clear (Bool.eq_false_iff.2 hb)]
      exact .ignored hin
  · cases hw.symm.trans h
    exact .wroteTbuf j w hin
  · cases hw.symm.trans h

theorem loadRom_next {image : Memory} {s t : State} (h : loadRom image s = .next t) :
    image.wf ∧ t = { s with rom := .replaced image } := by
  by_cases hwf : image.wf
  · cases (loadRom_wf hwf s).symm.trans h
    exact ⟨hwf, rfl⟩
  · cases (if_neg hwf : loadRom image s = .refused .malformedRomImage).symm.trans h

theorem displayByte_next {a : Nat} {s t : State} (h : displayByte a s = .next t) :
    t = s.reply (.screenByte (s.mem.read a)) := by
  unfold displayByte at h
  split at h
  · cases h
    rfl
  · cases h

/-- Everything a step can do. -/
theorem step_effect {s t : State} (h : step s = .next t) : StepEffect s t := by
  cases hin : s.inbox with
  | nil =>
    cases (step_idle hin).symm.trans h
    exact .idle hin
  | cons a rest =>
    rw [step_serve hin] at h
    cases a with
    | write width o w => exact hostWrite_effect hin h
    | read width o =>
      rcases hostRead_cases width o { s with inbox := rest } with ⟨v, hr⟩ | ⟨r, hr⟩
      · cases hr.symm.trans h
        exact .answered _ hin (.inl ⟨width, o, rfl⟩)
      · cases hr.symm.trans h
    | overlapping => cases h
    | loadRom image =>
      obtain ⟨hwf, rfl⟩ := loadRom_next h
      exact .loaded image hin hwf
    | reset =>
      cases h
      exact .reset hin
    | displayByte addr =>
      cases displayByte_next h
      exact .answered _ hin (.inr (.inl ⟨addr, rfl⟩))
    | displayPalette i =>
      cases h
      exact .answered _ hin (.inr (.inr ⟨i, rfl⟩))

/-- Memory, RESULT and the rendering state are as before. -/
structure SameRendering (s t : State) : Prop where
  mem : t.mem = s.mem
  result : t.result = s.result
  resultWritten : t.resultWritten = s.resultWritten
  pen : t.pen = s.pen
  fillp : t.fillp = s.fillp
  clip : t.clip = s.clip
  cameraX : t.cameraX = s.cameraX
  cameraY : t.cameraY = s.cameraY
  cursorX : t.cursorX = s.cursorX
  cursorY : t.cursorY = s.cursorY
  dpal : t.dpal = s.dpal
  spal : t.spal = s.spal
  transp : t.transp = s.transp
  channels : t.channels = s.channels

section Steps

variable {s t : State}

/-- Only a performed command touches memory, RESULT or the rendering state. -/
theorem StepEffect.performed_or_sameRendering (e : StepEffect s t) (hr : ¬ResetNext s) :
    (∃ i, Issued i s ∧ Effect { s with inbox := s.inbox.tail } i t) ∨ SameRendering s t := by
  cases e with
  | @performed rest w i _ h hf hd e => exact .inl ⟨i, ⟨hf, w, rest, h, hd⟩, by rwa [h]⟩
  | @reset rest h => exact absurd ⟨rest, h⟩ hr
  | _ => exact .inr (by constructor <;> rfl)

/-- What only commands of the kind `P` change is changed by a step only if it performs such a command. -/
theorem StepEffect.issued_of_change {P : Instr → Prop} {changed : Prop} (e : StepEffect s t) (hr : ¬ResetNext s)
    (host : SameRendering s t → ¬changed)
    (cmd : ∀ i, Effect { s with inbox := s.inbox.tail } i t → changed → P i) (hc : changed) : ∃ i, Issued i s ∧ P i := by
  rcases e.performed_or_sameRendering hr with ⟨i, hi, ei⟩ | hs
  · exact ⟨i, hi, cmd i ei hc⟩
  · exact absurd hc (host hs)

theorem StepEffect.issued_only_of_change {j : Instr} {changed : Prop} (e : StepEffect s t) (hr : ¬ResetNext s)
    (host : SameRendering s t → ¬changed)
    (cmd : ∀ i, Effect { s with inbox := s.inbox.tail } i t → changed → i = j) (hc : changed) : Issued j s := by
  obtain ⟨_, hi, rfl⟩ := e.issued_of_change hr host cmd hc
  exact hi

theorem StepEffect.inbox_eq_tail (e : StepEffect s t) : t.inbox = s.inbox.tail := by
  cases e with
  | idle h => rw [h, List.tail_nil]
  | performed h _ _ e =>
    obtain ⟨-, -, -, -, -, hin, -⟩ := e.keeps_host_registers
    rw [hin, h, List.tail_cons]
  | wroteArg _ _ h => simp [h]
  | wroteTbuf _ _ h => simp [h]
  | clearedFault _ h => simp [h]
  | ignored h => simp [h]
  | rejected _ h => simp [h]
  | loaded _ h => simp [h]
  | answered _ h => simp [h]
  | reset h => simp [h, State.afterReset]

theorem StepEffect.fault_writer (e : StepEffect s t) (hr : ¬ResetNext s) (hc : t.fault ≠ s.fault ∨ t.faddr ≠ s.faddr) :
    (s.fault = none ∧ ∃ (w : Word) (rest : List HostAccess), s.inbox = .write 32 0x020 w :: rest) ∨
      ∃ (w : Word) (rest : List HostAccess), s.inbox = .write 32 0x028 w :: rest ∧ w.getLsbD 0 = true := by
  cases e with
  | clearedFault w h hw => exact .inr ⟨w, _, h, hw⟩
  | rejected w h hf => exact .inl ⟨hf, w, _, h⟩
  | performed h hf => exact .inl ⟨hf, _, _, h⟩
  | reset h => exact absurd ⟨_, h⟩ hr
  | _ => simp at hc

theorem readArg_writeArg_other {i k : Fin 8} (h : k ≠ i) (w : Word) (s : State) :
    readArg k (writeArg i w s) = readArg k s :=
  Vector.getElem_set_ne i.isLt k.isLt fun hv => h (Fin.ext hv.symm)

theorem argWritten_writeArg_other {i k : Fin 8} (h : k ≠ i) (w : Word) (s : State) :
    (writeArg i w s).argWritten[k] = s.argWritten[k] :=
  Vector.getElem_set_ne i.isLt k.isLt fun hv => h (Fin.ext hv.symm)

theorem StepEffect.arg_writer (e : StepEffect s t) (hr : ¬ResetNext s) {k : Fin 8}
    (hc : readArg k t ≠ readArg k s ∨ t.argWritten[k] ≠ s.argWritten[k]) :
    ∃ (w : Word) (rest : List HostAccess), s.inbox = .write 32 (4 * k.val) w :: rest := by
  cases e with
  | wroteArg i w h =>
    by_cases hk : k = i
    · exact ⟨w, _, hk ▸ h⟩
    · rw [readArg_writeArg_other hk, argWritten_writeArg_other hk] at hc
      simp [readArg] at hc
  | performed _ _ _ e =>
    obtain ⟨ha, haw, -⟩ := e.keeps_host_registers
    simp [readArg, ha, haw] at hc
  | reset h => exact absurd ⟨_, h⟩ hr
  | _ => simp [readArg] at hc

/-- The four bytes of one text word leave those of the others. -/
theorem getElem_setWord_other {α : Type} (v : Vector α 256) {j : Fin 64} {k : Fin 256} (h : k.val / 4 ≠ j.val)
    {a b c d : α} :
    ((((v.set (4 * j.val) a (by omega)).set (4 * j.val + 1) b (by omega)).set (4 * j.val + 2) c (by omega)).set
      (4 * j.val + 3) d (by omega))[k] = v[k] := by
  simp only [Fin.getElem_fin]
  rw [Vector.getElem_set_ne _ _ (by omega), Vector.getElem_set_ne _ _ (by omega), Vector.getElem_set_ne _ _ (by omega),
    Vector.getElem_set_ne _ _ (by omega)]

theorem tbuf_writeTbuf_other {j : Fin 64} {k : Fin 256} (h : k.val / 4 ≠ j.val) (w : Word) (s : State) :
    (writeTbuf j w s).tbuf[k] = s.tbuf[k] :=
  getElem_setWord_other s.tbuf h

theorem tbufWritten_writeTbuf_other {j : Fin 64} {k : Fin 256} (h : k.val / 4 ≠ j.val) (w : Word) (s : State) :
    (writeTbuf j w s).tbufWritten[k] = s.tbufWritten[k] :=
  getElem_setWord_other s.tbufWritten h

theorem StepEffect.tbuf_writer (e : StepEffect s t) (hr : ¬ResetNext s) {k : Fin 256}
    (hc : t.tbuf[k] ≠ s.tbuf[k] ∨ t.tbufWritten[k] ≠ s.tbufWritten[k]) :
    ∃ (w : Word) (rest : List HostAccess), s.inbox = .write 32 (0x100 + 4 * (k.val / 4)) w :: rest := by
  cases e with
  | wroteTbuf j w h =>
    by_cases hk : k.val / 4 = j.val
    · exact ⟨w, _, by rw [hk, h]⟩
    · rw [tbuf_writeTbuf_other hk, tbufWritten_writeTbuf_other hk] at hc
      simp at hc
  | performed _ _ _ e =>
    obtain ⟨-, -, hb, hbw, -⟩ := e.keeps_host_registers
    simp [hb, hbw] at hc
  | reset h => exact absurd ⟨_, h⟩ hr
  | _ => simp at hc

theorem StepEffect.rom_writer (e : StepEffect s t) (hc : t.rom ≠ s.rom) :
    ∃ (image : Memory) (rest : List HostAccess), s.inbox = .loadRom image :: rest := by
  cases e with
  | loaded image h => exact ⟨image, _, h⟩
  | performed _ _ _ e =>
    obtain ⟨-, -, -, -, hrom, -⟩ := e.keeps_host_registers
    exact absurd hrom hc
  | _ => exact absurd rfl hc

theorem StepEffect.replies_writer (e : StepEffect s t) (hc : t.replies ≠ s.replies) :
    ∃ (a : HostAccess) (rest : List HostAccess), s.inbox = a :: rest ∧ a.IsRead := by
  cases e with
  | answered _ h ha => exact ⟨_, _, h, ha⟩
  | performed _ _ _ e =>
    obtain ⟨-, -, -, -, -, -, hrep⟩ := e.keeps_host_registers
    exact absurd hrep hc
  | _ => exact absurd rfl hc

theorem reset_inv : State.reset.Inv :=
  ⟨⟨.nil, by simp [State.reset]⟩, by decide, rfl, trivial⟩

theorem StepEffect.keeps_inv (e : StepEffect s t) (h : s.Inv) : t.Inv := by
  obtain ⟨hmem, hclip, hfault, hrom⟩ := h
  cases e with
  | clearedFault => exact ⟨hmem, hclip, rfl, hrom⟩
  | rejected => exact ⟨hmem, hclip, rfl, hrom⟩
  | performed _ _ _ e => exact e.keeps_inv ⟨hmem, hclip, hfault, hrom⟩
  | loaded _ _ wf => exact ⟨hmem, hclip, hfault, wf⟩
  | reset => exact ⟨reset_inv.mem, reset_inv.clip, reset_inv.fault, hrom⟩
  | _ => exact ⟨hmem, hclip, hfault, hrom⟩

end Steps

/-! ### The statements -/

/-- Settles O23: only a performed command touches memory, RESULT or the rendering state, and `Effect` says which command
touches which; every other piece is read off the accesses of `StepEffect`. -/
theorem stateChangesOnlyByItsWriters : Obligations.StateChangesOnlyByItsWriters := by
  refine ⟨fun s t h hr => ?_, fun s image wf => ?_⟩
  · have e := step_effect h
    exact ⟨
      e.issued_of_change hr (fun hs hc => hc hs.mem) fun _ => Effect.mem_writer,
      e.issued_of_change hr (fun hs hc => hc.elim (· hs.result) (· hs.resultWritten)) fun _ => Effect.result_writer,
      e.issued_of_change hr (fun hs hc => hc hs.pen) fun _ => Effect.pen_writer,
      e.issued_of_change hr (fun hs hc => hc hs.fillp) fun _ => Effect.fillp_writer,
      e.issued_of_change hr (fun hs hc => hc hs.clip) fun _ => Effect.clip_writer,
      e.issued_only_of_change hr (fun hs hc => hc.elim (· hs.cameraX) (· hs.cameraY)) fun _ => Effect.camera_writer,
      e.issued_only_of_change hr (fun hs hc => hc hs.cursorX) fun _ => Effect.cursorX_writer,
      e.issued_of_change hr (fun hs hc => hc hs.cursorY) fun _ => Effect.cursorY_writer,
      e.issued_of_change hr (fun hs hc => hc.elim (· hs.dpal) (· hs.spal)) fun _ => Effect.palette_writer,
      e.issued_of_change hr (fun hs hc => hc hs.transp) fun _ => Effect.transp_writer,
      e.issued_only_of_change hr (fun hs hc => hc hs.channels) fun _ => Effect.channels_writer,
      e.fault_writer hr, fun _ => e.arg_writer hr, fun _ => e.tbuf_writer hr, e.rom_writer, e.inbox_eq_tail,
      e.replies_writer⟩
  · exact ⟨{ s with rom := .replaced image }, loadRom_wf wf s, rfl, read_replaced image⟩

/-- Settles O24: each step effect keeps each part of the invariant. -/
theorem everyStepKeepsInvariant : Obligations.EveryStepKeepsInvariant :=
  fun _ _ h hstep => (step_effect hstep).keeps_inv h

/-- Settles O25: the reset state has no byte listed, the full clip, no fault and the presented image. -/
theorem resetMeetsInvariant : Obligations.ResetMeetsInvariant := reset_inv

/-- Settles O18: no effect of a command touches them. -/
theorem commandsKeepHostRegisters : Obligations.CommandsKeepHostRegisters :=
  fun _ _ _ h => (effect_of_exec h).keeps_host_registers

/-- Settles O19: the effects that change RESULT or its mark are those of a returned value. -/
theorem onlyReturningCommandsWriteResult : Obligations.OnlyReturningCommandsWriteResult := by
  intro i s t _ h
  have e := effect_of_exec h
  refine ⟨fun hi => ?_, fun hi hf => ?_⟩
  · have hsame : ¬(t.result ≠ s.result ∨ t.resultWritten ≠ s.resultWritten) :=
      fun hc => Bool.eq_false_iff.1 hi (e.result_writer hc)
    simpa only [not_or, not_not] using hsame
  · rcases e.returned_or_faulted hi with ⟨w, rfl⟩ | hfault
    · rfl
    · exact absurd hf hfault

theorem Clip.contains_eq_true_iff (c : Clip) (x y : Int) :
    c.contains x y = true ↔ c.aaX ≤ x ∧ x < c.bbX ∧ c.aaY ≤ y ∧ y < c.bbY := by
  simp only [Clip.contains, Bool.and_eq_true, decide_eq_true_eq, and_assoc]

/-- Settles O22: every draw goes through the clip, but for CLS and the scroll of PRINTC. -/
theorem nothingIsDrawnOutsideTheClip : Obligations.NothingIsDrawnOutsideTheClip := by
  intro i s t x y hdraw hcls hscroll h hs hout
  have hc : s.clip.contains x y = false := Bool.eq_false_iff.2 ((s.clip.contains_eq_true_iff x y).not.2 hout)
  exact (effect_of_exec h).keeps_clipped_pixel hdraw hcls hscroll hs hc

end Sys2Proof.Machine
end

section
/-! PROOFS. The host's side of the register map (10_state.md rules R33 and R40 to R46): the layout of the packed words, and
which accesses are refused. -/

namespace Sys2Proof.Machine

/-! ### Packed words -/

/-- A bit of words put together by `or`. -/
theorem getLsbD_foldl_or (g : Nat → Word) (l : List Nat) (w : Word) (i : Nat) :
    (l.foldl (fun w k => w ||| g k) w).getLsbD i = (w.getLsbD i || l.any fun k => (g k).getLsbD i) := by
  induction l generalizing w with
  | nil => simp
  | cons k l ih => rw [List.foldl_cons, ih, BitVec.getLsbD_or, List.any_cons, Bool.or_assoc]

/-- A bit that among the words put together only the `k`-th can have set. -/
theorem getLsbD_foldl_or_range {g : Nat → Word} {i k : Nat} {b : Bool}
    (h : ∀ j, (g j).getLsbD i = (decide (j = k) && b)) (n : Nat) :
    ((List.range n).foldl (fun w j => w ||| g j) 0).getLsbD i = (decide (k < n) && b) := by
  rw [getLsbD_foldl_or, Bool.eq_iff_iff]
  simp [h]

/-- A nibble shifted to bits `[4j+3:4j]` shows in the bits `[4k+3:4k]` only when `j` is `k`. -/
theorem getLsbD_shifted_nibble (c : Nibble) (j : Nat) {k i : Nat} (hk : k < 8) (hi : i < 4) :
    ((c.setWidth 32 : Word) <<< (4 * j)).getLsbD (4 * k + i) = (decide (j = k) && c.getLsbD i) := by
  rw [BitVec.getLsbD_shiftLeft, BitVec.getLsbD_setWidth]
  rcases lt_trichotomy j k with h | rfl | h
  · rw [BitVec.getLsbD_of_ge c _ (by omega), decide_eq_false (by omega : ¬j = k)]
    simp
  · rw [Nat.add_sub_cancel_left, decide_eq_true (by omega : 4 * j + i < 32), decide_eq_true (by omega : i < 32)]
    simp
  · rw [decide_eq_true (by omega : 4 * k + i < 4 * j), decide_eq_false (by omega : ¬j = k)]
    simp

/-- Entry `lo + k` of a packed palette is in bits `[4k+3:4k]` (R43). -/
theorem extractLsb'_packPalette (p : Vector Nibble 16) {lo k : Nat} (hk : k < 8) (h : lo + k < 16) :
    (packPalette p lo).extractLsb' (4 * k) 4 = p[lo + k] := by
  refine BitVec.eq_of_getLsbD_eq fun i hi => ?_
  have hbit (j : Nat) : (((p[lo + j]?.getD 0).setWidth 32 : Word) <<< (4 * j)).getLsbD (4 * k + i) =
      (decide (j = k) && p[lo + k].getLsbD i) := by
    rw [getLsbD_shifted_nibble _ j hk hi]
    by_cases hj : j = k
    · simp [hj, h]
    · simp [hj]
  unfold packPalette
  rw [BitVec.getLsbD_extractLsb', getLsbD_foldl_or_range hbit]
  simp [hi, hk]

/-- The two words of a palette (R43). -/
theorem packPalette_halves (p : Vector Nibble 16) {k : Nat} (hk : k < 8) :
    (packPalette p 0).extractLsb' (4 * k) 4 = p[k] ∧ (packPalette p 8).extractLsb' (4 * k) 4 = p[8 + k] :=
  ⟨(extractLsb'_packPalette p hk (by omega)).trans (by simp only [Nat.zero_add]),
    extractLsb'_packPalette p hk (by omega)⟩

theorem getLsbD_ite_one_shiftLeft (b : Bool) (k : Nat) {i : Nat} (hi : i < 32) :
    (if b then (1 : Word) <<< k else 0).getLsbD i = (decide (k = i) && b) := by
  cases b with
  | false => simp
  | true =>
    show (BitVec.twoPow 32 k).getLsbD i = _
    rw [BitVec.getLsbD_twoPow]
    by_cases hk : k = i <;> simp [hk, hi]

/-- TRANSP as the `or` of its flags' bits. -/
theorem packTransp_eq_foldl_or (t : Vector Bool 16) :
    packTransp t = (List.range 16).foldl (fun w k => w ||| if t[k]?.getD false then (1 : Word) <<< k else 0) 0 := by
  unfold packTransp
  congr 1
  funext w k
  split <;> simp

/-- Flag `c` is in bit `c` of TRANSP, and there is no other bit (R44). -/
theorem getLsbD_packTransp (t : Vector Bool 16) {c : Nat} (hc : c < 32) : (packTransp t).getLsbD c = t[c]?.getD false := by
  have hbit (k : Nat) : (if t[k]?.getD false then (1 : Word) <<< k else 0).getLsbD c =
      (decide (k = c) && t[c]?.getD false) := by
    rw [getLsbD_ite_one_shiftLeft _ _ hc]
    by_cases hk : k = c <;> simp [hk]
  rw [packTransp_eq_foldl_or, getLsbD_foldl_or_range hbit]
  by_cases h : c < 16 <;> simp [h]

theorem extractLsb'_packTransp (t : Vector Bool 16) : (packTransp t).extractLsb' 16 16 = 0 := by
  refine BitVec.eq_of_getLsbD_eq fun i hi => ?_
  rw [BitVec.getLsbD_extractLsb', getLsbD_packTransp t (by omega)]
  simp

/-- The bounds of a clip inside the screen are the four bytes of its word (R41). -/
theorem bytes_packClip {c : Clip} (h : c.bounded) :
    ((packClip c).extractLsb' 0 8).toNat = c.aaX ∧ ((packClip c).extractLsb' 8 8).toNat = c.aaY ∧
      ((packClip c).extractLsb' 16 8).toNat = c.bbX ∧ ((packClip c).extractLsb' 24 8).toNat = c.bbY := by
  obtain ⟨haX, haY, hbX, hbY⟩ := h
  unfold packClip
  refine ⟨?_, ?_, ?_, ?_⟩
  · rw [BitVec.extractLsb'_append_eq_of_add_le (by decide), BitVec.extractLsb'_append_eq_of_add_le (by decide),
      BitVec.extractLsb'_append_eq_right, BitVec.toNat_ofNat]
    omega
  · rw [BitVec.extractLsb'_append_eq_of_add_le (by decide), BitVec.extractLsb'_append_eq_of_add_le (by decide),
      BitVec.extractLsb'_append_eq_left, BitVec.toNat_ofNat]
    omega
  · rw [BitVec.extractLsb'_append_eq_of_add_le (by decide), BitVec.extractLsb'_append_eq_left, BitVec.toNat_ofNat]
    omega
  · rw [BitVec.extractLsb'_append_eq_left, BitVec.toNat_ofNat]
    omega

/-! ### Reads -/

theorem readsAs_offset {r : Register} (hr : r ≠ .cmd) (s : State) : ReadsAs r.offset (r.word s) s :=
  hostRead_offset hr s

/-- Settles O8: each register reads as its packed word, whose fields stand where the rules say. -/
theorem registerPacking : Obligations.RegisterPacking := by
  intro s
  refine ⟨fun hb => ⟨_, readsAs_offset (r := .clip) (by simp) s, bytes_packClip hb⟩,
    ⟨_, readsAs_offset (r := .camera) (by simp) s, BitVec.extractLsb'_append_eq_right,
      BitVec.extractLsb'_append_eq_left⟩,
    ⟨_, readsAs_offset (r := .transp) (by simp) s, ?_, fun c => ?_⟩,
    ⟨_, _, readsAs_offset (r := .dpalLo) (by simp) s, readsAs_offset (r := .dpalHi) (by simp) s,
      fun _ => packPalette_halves s.dpal⟩,
    ⟨_, _, readsAs_offset (r := .spalLo) (by simp) s, readsAs_offset (r := .spalHi) (by simp) s,
      fun _ => packPalette_halves s.spal⟩,
    fun k => ⟨_, readsAs_offset (r := .channel k) (by simp) s, BitVec.extractLsb'_append_eq_right,
      BitVec.extractLsb'_append_eq_left⟩⟩
  · exact extractLsb'_packTransp s.transp
  · exact (getLsbD_packTransp s.transp (by omega)).trans (by simp)

/-! ### STATUS -/

/-- The fields of the STATUS word (R46), for each recorded cause. -/
theorem statusWord_fields (s : State) :
    (statusWord s).extractLsb' 16 16 = 0 ∧ (statusWord s).extractLsb' 1 7 = 0 ∧
      (s.fault = none → (statusWord s).getLsbD 0 = false ∧ (statusWord s).extractLsb' 8 8 = 0x00) ∧
      (s.fault = some .badMemoryAccess → (statusWord s).getLsbD 0 = true ∧ (statusWord s).extractLsb' 8 8 = 0x01) ∧
      (s.fault = some .illegalCommand → (statusWord s).getLsbD 0 = true ∧ (statusWord s).extractLsb' 8 8 = 0x02) ∧
      (s.fault = some .badOperand → (statusWord s).getLsbD 0 = true ∧ (statusWord s).extractLsb' 8 8 = 0x03) := by
  unfold statusWord
  cases s.fault with
  | none => decide
  | some k => cases k <;> decide

/-- Settles O7: STATUS reads as its word, and a write of it clears the record or does nothing. -/
theorem statusRegister : Obligations.StatusRegister := by
  intro s
  refine ⟨⟨_, readsAs_offset (r := .status) (by simp) s, statusWord_fields s⟩, fun w => ⟨fun hw => ?_, fun hw => ?_⟩⟩
  · rw [stepWrite_eq, hostWrite_status, writeStatus_of_set hw]
    rfl
  · rw [stepWrite_eq, hostWrite_status, writeStatus_of_clear hw]

/-! ### Refused accesses -/

theorem listedOffset_offset (r : Register) : listedOffset r.offset = true := by
  cases r with
  | arg i => fin_cases i <;> rfl
  | channel k => fin_cases k <;> rfl
  | tbuf j => fin_cases j <;> rfl
  | _ => rfl

/-- An access of another width, a misaligned one or one at an unlisted offset reaches no register. -/
theorem addressed_error {width o : Nat} (h : width ≠ 32 ∨ o % 4 ≠ 0 ∨ listedOffset o = false) :
    ∃ e, addressed width o = .error e := by
  cases ha : addressed width o with
  | error e => exact ⟨e, rfl⟩
  | ok r =>
    obtain ⟨rfl, rfl⟩ := addressed_ok ha
    simp [offset_mod_four, listedOffset_offset] at h

theorem hostRead_of_error {width o : Nat} {e : Refusal} (h : addressed width o = .error e) (s : State) :
    hostRead width o s = .refused e := by
  unfold hostRead
  rw [h]

theorem hostWrite_of_error {width o : Nat} {e : Refusal} (h : addressed width o = .error e) (w : Word) (s : State) :
    hostWrite width o w s = .refused e := by
  unfold hostWrite
  rw [h]

theorem writableOffset_arg (i : Fin 8) : writableOffset (4 * i.val) = true := by
  fin_cases i <;> rfl

theorem writableOffset_tbuf (j : Fin 64) : writableOffset (0x100 + 4 * j.val) = true := by
  fin_cases j <;> rfl

/-- A write at an offset not marked writable is refused. -/
theorem hostWrite_readOnly {o : Nat} (h : writableOffset o = false) (width : Nat) (w : Word) (s : State) :
    ∃ e, hostWrite width o w s = .refused e := by
  rcases hostWrite_cases width o w s with ⟨i, -, rfl, -⟩ | ⟨-, rfl, -⟩ | ⟨-, rfl, -⟩ | ⟨j, -, rfl, -⟩ | hr
  · exact absurd (writableOffset_arg i) (Bool.eq_false_iff.1 h)
  · cases h
  · cases h
  · exact absurd (writableOffset_tbuf j) (Bool.eq_false_iff.1 h)
  · exact hr

/-- A write other than of CMD changes ARG, TBUF and the fault record alone. -/
theorem hostWrite_frame {width o : Nat} {w : Word} {s t : State} (h : hostWrite width o w s = .next t) (ho : o ≠ 0x020) :
    t = { s with args := t.args, argWritten := t.argWritten, tbuf := t.tbuf, tbufWritten := t.tbufWritten,
                 fault := t.fault, faddr := t.faddr } := by
  rcases hostWrite_cases width o w s with ⟨i, -, -, hw⟩ | ⟨-, hcmd, -⟩ | ⟨-, -, hw⟩ | ⟨j, -, -, hw⟩ | ⟨e, hw⟩
  · cases hw.symm.trans h
    rfl
  · exact absurd hcmd ho
  · cases hw.symm.trans h
    unfold writeStatus
    split <;> rfl
  · cases hw.symm.trans h
    rfl
  · cases hw.symm.trans h

/-- Settles O9: an access is refused where it reaches no register or one it may not use; a served one changes what
`hostRead_cases` and `hostWrite_frame` say. -/
theorem registerAccessRules : Obligations.RegisterAccessRules := by
  intro s width o w
  refine ⟨fun hbad => ?_, fun _ _ hro => hostWrite_readOnly hro 32 w s, ⟨_, rfl⟩, fun t h => ?_, fun t h ho => ?_⟩
  · obtain ⟨e, he⟩ := addressed_error hbad
    exact ⟨⟨e, hostRead_of_error he s⟩, e, hostWrite_of_error he w s⟩
  · rcases hostRead_cases width o s with ⟨v, hv⟩ | ⟨e, he⟩
    · cases hv.symm.trans h
      exact ⟨v, rfl⟩
    · cases he.symm.trans h
  · exact hostWrite_frame h ho

end Sys2Proof.Machine
end

section
/-! PROOFS. Memory seen three ways (10_state.md rules R62 to R71): the byte a pixel write changes, the map rows that are also
the sprite sheet, and the display port. -/

namespace Sys2Proof.Machine

/-! ### Nibbles by column parity -/

theorem nibbleOf_even {x : Nat} (h : x % 2 = 0) (b : Byte) : nibbleOf x b = b.extractLsb' 0 4 := if_pos h

theorem nibbleOf_odd {x : Nat} (h : x % 2 = 1) (b : Byte) : nibbleOf x b = b.extractLsb' 4 4 :=
  if_neg fun h0 => absurd (h0.symm.trans h) (by decide)

theorem setNibble_even {x : Nat} (h : x % 2 = 0) (c : Nibble) (b : Byte) :
    (setNibble x c b).extractLsb' 0 4 = c ∧ (setNibble x c b).extractLsb' 4 4 = b.extractLsb' 4 4 :=
  ⟨nibbleOf_setNibble_same (y := 0) h c b, nibbleOf_setNibble_other (y := 1) (by omega) c b⟩

theorem setNibble_odd {x : Nat} (h : x % 2 = 1) (c : Nibble) (b : Byte) :
    (setNibble x c b).extractLsb' 4 4 = c ∧ (setNibble x c b).extractLsb' 0 4 = b.extractLsb' 0 4 :=
  ⟨nibbleOf_setNibble_same (y := 1) h c b, nibbleOf_setNibble_other (y := 0) (by omega) c b⟩

/-! ### The byte of a pixel write -/

theorem eq_gfxAddr_iff {x y : Int} (h : inSquare x y) (a : Nat) :
    a = gfxAddr x.toNat y.toNat ↔ (a : Int) = 64 * y + x / 2 := by
  unfold gfxAddr
  omega

theorem eq_screenAddr_iff {x y : Int} (h : inSquare x y) (a : Nat) :
    a = screenAddr x.toNat y.toNat ↔ (a : Int) = 0x6000 + 64 * y + x / 2 := by
  unfold screenAddr
  omega

/-- A nibble write at the one address where `P` holds. -/
theorem Memory.read_writeNibble_of_iff {a k : Nat} {P : Prop} [Decidable P] (h : a = k ↔ P) (m : Memory) (x : Nat)
    (c : Nibble) : (m.writeNibble k x c).read a = if P then setNibble x c (m.read a) else m.read a := by
  rw [Memory.read_writeNibble]
  by_cases hp : P
  · rw [if_pos hp, if_pos (h.2 hp), h.2 hp]
  · rw [if_neg hp, if_neg (mt h.1 hp)]

/-- `GfxWrite` changes at most the byte `64 y + x / 2` (R65, R66). -/
theorem read_gfxWrite (m : Memory) (x y : Int) (c : Nibble) (a : Nat) :
    (gfxWrite x y c m).read a =
      if inSquare x y ∧ (a : Int) = 64 * y + x / 2 then setNibble x.toNat c (m.read a) else m.read a := by
  unfold gfxWrite
  by_cases hs : inSquare x y
  · rw [if_pos hs]
    exact Memory.read_writeNibble_of_iff ((eq_gfxAddr_iff hs a).trans (and_iff_right hs).symm) m _ c
  · rw [if_neg hs, if_neg fun h => hs h.1]

/-- `ScreenWrite` changes at most the byte `0x6000 + 64 y + x / 2` (R64, R66). -/
theorem read_screenWrite (m : Memory) (x y : Int) (c : Nibble) (a : Nat) :
    (screenWrite x y c m).read a =
      if inSquare x y ∧ (a : Int) = 0x6000 + 64 * y + x / 2 then setNibble x.toNat c (m.read a) else m.read a := by
  unfold screenWrite
  by_cases hs : inSquare x y
  · rw [if_pos hs]
    exact Memory.read_writeNibble_of_iff ((eq_screenAddr_iff hs a).trans (and_iff_right hs).symm) m _ c
  · rw [if_neg hs, if_neg fun h => hs h.1]

/-- Settles O41: `read_gfxWrite` and `read_screenWrite` name the one byte, and the column's parity its nibble. -/
theorem pixelViewsWriteOneNibble : Obligations.PixelViewsWriteOneNibble := by
  intro m x y c a
  refine ⟨fun hs ha => ?_, fun h => ?_, fun hs ha => ?_, fun h => ?_⟩
  · rw [read_gfxWrite, if_pos ⟨hs, ha⟩]
    exact ⟨fun _ => setNibble_even (by omega) c _, fun _ => setNibble_odd (by omega) c _⟩
  · rw [read_gfxWrite, if_neg h]
  · rw [read_screenWrite, if_pos ⟨hs, ha⟩]
    exact ⟨fun _ => setNibble_even (by omega) c _, fun _ => setNibble_odd (by omega) c _⟩
  · rw [read_screenWrite, if_neg h]

/-! ### The shared half of the map and the sprite sheet -/

/-- Both pixels of a pair (`x / 2 = cx mod 64`) lie in the byte of the map cell (R69): a sheet row is 64 bytes, a map row
128. -/
theorem gfxAddr_eq_mapAddr {x cx cy : Nat} (hcy : 32 ≤ cy) (hx : x / 2 = cx % 64) :
    gfxAddr x (64 + 2 * (cy - 32) + cx / 64) = mapAddr cx cy := by
  rw [gfxAddr, mapAddr, if_neg (by omega : ¬cy < 32)]
  omega

theorem gfxRead_eq_nibbleOf_mapRead {x cx cy : Int} (h : inMap cx cy) (hcy : 32 ≤ cy) (hx : x / 2 = cx % 64)
    (m : Memory) : gfxRead m x (64 + 2 * (cy - 32) + cx / 64) = nibbleOf x.toNat (mapRead m cx cy) := by
  have hrow : (64 + 2 * (cy - 32) + cx / 64).toNat = 64 + 2 * (cy.toNat - 32) + cx.toNat / 64 := by omega
  rw [gfxRead, mapRead, if_pos (by omega : inSquare x _), if_pos h, hrow,
    gfxAddr_eq_mapAddr (by omega) (by omega)]

/-- Settles O40: the cell's two sheet pixels are nibbles of its byte, the even column the low one. -/
theorem mapSharesSheetStorage : Obligations.MapSharesSheetStorage := by
  intro m cx cy hx0 hx hy0 hy
  have hmap : inMap cx cy := ⟨hx0, hx, by omega, hy⟩
  constructor
  · rw [gfxRead_eq_nibbleOf_mapRead hmap hy0 (by omega), nibbleOf_even (by omega)]
  · rw [gfxRead_eq_nibbleOf_mapRead hmap hy0 (by omega), nibbleOf_odd (by omega)]

/-! ### The display port -/

theorem displayByte_of_screen {a : Nat} (hlo : 0x6000 ≤ a) (hhi : a < 0x8000) (s : State) :
    displayByte a s = .next (s.reply (.screenByte (s.mem.read a))) := if_pos ⟨hlo, hhi⟩

/-- Settles O11: the port's accesses are served by one reply each. -/
theorem displayPortReads : Obligations.DisplayPortReads := by
  intro s
  refine ⟨fun a hlo hhi => ?_, fun i => ?_⟩
  · rw [step_withAccesses]
    exact displayByte_of_screen hlo hhi s
  · rw [step_withAccesses]
    rfl

end Sys2Proof.Machine
end

section
/-! PROOFS. The command words (30_encoding.md rules R90 to R97): the decoder answers a command exactly on the words that
carry a command's own fields, which are the words with well formed fields. -/

namespace Sys2Proof

/-! ### Words and their fields -/

theorem fields_statement (i : Instr) : Laws.Fields.Statement i :=
  open Laws.Fields in
  i.casesOn fadd fsub fmul fdiv fneg fabs fflr fceil fmin fmax fmid feq flt fle ftoi band bor bxor bnot shl shr lshr rotl
    rotr fsgn peek peek4 poke poke4 memcpy memset reload camera clip cliprst pal palt palrst color fillp cursor pset pget
    hline vline line rect rectfill circ circfill cls spr sspr map sget sset mget mset fget fgetb fset fsetb print printc
    wave chset

theorem Instr.wf_fields (i : Instr) : i.fields.wf = true := (fields_statement i).1

@[simp] theorem ofWord_encode (i : Instr) : CommandFields.ofWord (encode i) = i.fields := (fields_statement i).2

theorem ofBool_getLsbD (w : Word) (k : Nat) : BitVec.ofBool (w.getLsbD k) = w.extractLsb' k 1 := by
  ext j hj
  obtain rfl : j = 0 := by omega
  simp

/-- The five fields are all 32 bits of the word (R91). -/
@[simp] theorem CommandFields.toWord_ofWord (w : Word) : (CommandFields.ofWord w).toWord = w := by
  unfold CommandFields.toWord CommandFields.ofWord
  simp only [ofBool_getLsbD]
  rw [BitVec.extractLsb'_append_extractLsb'_eq_extractLsb' (by rfl),
    BitVec.extractLsb'_append_extractLsb'_eq_extractLsb' (by rfl),
    BitVec.extractLsb'_append_extractLsb'_eq_extractLsb' (by rfl),
    BitVec.extractLsb'_append_extractLsb'_eq_extractLsb' (by rfl)]
  exact BitVec.extractLsb'_eq_self

/-! ### Well formed fields (R92, R94) -/

theorem CommandFields.ofWord_op_toNat (w : Word) : (CommandFields.ofWord w).op.toNat = w.toNat % 256 := by
  simp [CommandFields.ofWord]

theorem CommandFields.knownOpcode_iff (f : CommandFields) : f.knownOpcode = true ↔
    ∃ r ∈ [(0x01, 0x19), (0x20, 0x26), (0x30, 0x38), (0x40, 0x49), (0x50, 0x5a), (0x60, 0x61), (0x70, 0x71)],
      r.1 ≤ f.op.toNat ∧ f.op.toNat ≤ r.2 := by
  simp [knownOpcode, or_assoc]

theorem CommandFields.allowsC_iff (f : CommandFields) : f.allowsC = true ↔
    f.op.toNat ∈ [0x40, 0x42, 0x43, 0x44, 0x45, 0x46, 0x47, 0x48, 0x60, 0x61] := by
  simp only [allowsC, Bool.or_eq_true, Bool.and_eq_true, beq_iff_eq, decide_eq_true_eq, List.mem_cons, List.not_mem_nil,
    or_false]
  omega

theorem CommandFields.allowsFlip_iff (f : CommandFields) : f.allowsFlip = true ↔ f.op.toNat ∈ [0x50, 0x51] := by
  simp [allowsFlip]

theorem CommandFields.flagsAllowed_iff (f : CommandFields) : f.flagsAllowed = true ↔
    (f.c = true → f.allowsC = true) ∧ (f.fx = true → f.allowsFlip = true) ∧ (f.fy = true → f.allowsFlip = true) := by
  unfold flagsAllowed
  cases f.c <;> cases f.fx <;> cases f.fy <;> simp

theorem CommandFields.wf_iff (f : CommandFields) :
    f.wf = true ↔ f.knownOpcode = true ∧ f.rsv = 0 ∧ f.flagsAllowed = true := by
  simp [wf, reservedZero, and_assoc]

/-! ### The rows of the opcode map -/

/-- A decoder's answer is right for the fields: they are those of the command it names, or it rejects and they are ill
formed. -/
def CommandFields.Answers (f : CommandFields) : Except DecodeError Instr → Prop
  | .ok i => i.fields = f
  | .error _ => f.wf ≠ true

/-- One row of the opcode map with the flags it allows (R92), of which `plainRow`, `penRow` and `flipRow` are the three
kinds. -/
def flagRow (pen flip : Bool) (i : Bool → Bool → Bool → Instr) (f : CommandFields) : Except DecodeError Instr :=
  if (!f.c || pen) && (!f.fx || flip) && (!f.fy || flip) then .ok (i f.c f.fx f.fy) else .error .flagNotAllowed

theorem plainRow_eq_flagRow (i : Instr) (f : CommandFields) : plainRow i f = flagRow false false (fun _ _ _ => i) f := by
  unfold plainRow flagRow
  cases f.c <;> cases f.fx <;> cases f.fy <;> rfl

theorem penRow_eq_flagRow (i : Bool → Instr) (f : CommandFields) :
    penRow i f = flagRow true false (fun c _ _ => i c) f := by
  unfold penRow flagRow
  cases f.c <;> cases f.fx <;> cases f.fy <;> rfl

theorem flipRow_eq_flagRow (i : Bool → Bool → Instr) (f : CommandFields) :
    flipRow i f = flagRow false true (fun _ fx fy => i fx fy) f := by
  unfold flipRow flagRow
  cases f.c <;> cases f.fx <;> cases f.fy <;> rfl

/-- A row answers rightly when its command has the row's opcode and the row allows the flags which that opcode allows. -/
theorem answers_flagRow {pen flip : Bool} {op : BitVec 8} {i : Bool → Bool → Bool → Instr} {f : CommandFields}
    (hi : ∀ c fx fy, (i c fx fy).fields = ⟨op, pen && c, flip && fx, flip && fy, 0⟩)
    (hpen : CommandFields.allowsC ⟨op, false, false, false, 0⟩ = pen)
    (hflip : CommandFields.allowsFlip ⟨op, false, false, false, 0⟩ = flip)
    (hop : f.op = op) (hrsv : f.rsv = 0) : f.Answers (flagRow pen flip i f) := by
  subst hop
  have hC : f.allowsC = pen := hpen
  have hF : f.allowsFlip = flip := hflip
  have hcond : ((!f.c || pen) && (!f.fx || flip) && (!f.fy || flip)) = f.flagsAllowed := by
    rw [← hC, ← hF]
    rfl
  unfold flagRow
  rw [hcond]
  split
  case isTrue h =>
    obtain ⟨hc, hfx, hfy⟩ := f.flagsAllowed_iff.1 h
    rw [hC] at hc
    rw [hF] at hfx hfy
    show (i f.c f.fx f.fy).fields = f
    rw [hi, Bool.and_eq_right_iff_imp.2 hc, Bool.and_eq_right_iff_imp.2 hfx, Bool.and_eq_right_iff_imp.2 hfy, ← hrsv]
  case isFalse h =>
    intro hwf
    obtain ⟨-, -, hflags⟩ := f.wf_iff.1 hwf
    exact h hflags

/-- Each row of the opcode map carries the flags R92 gives its opcode, and an opcode without a row is in none of the ranges
of R95. -/
theorem answers_decodeFields {f : CommandFields} (hrsv : f.rsv = 0) : f.Answers (decodeFields f) := by
  unfold decodeFields
  simp only [plainRow_eq_flagRow, penRow_eq_flagRow, flipRow_eq_flagRow]
  split
  case h_67 =>
    intro hwf
    obtain ⟨hknown, -, -⟩ := f.wf_iff.1 hwf
    simp only [CommandFields.knownOpcode, Bool.or_eq_true, Bool.and_eq_true, decide_eq_true_eq, or_assoc] at hknown
    generalize f.op.toNat = n at *
    rcases hknown with h | h | h | h | h | h | h <;> obtain ⟨hlo, hhi⟩ := h <;> interval_cases n <;> contradiction
  all_goals exact answers_flagRow (fun _ _ _ => rfl) rfl rfl (BitVec.eq_of_toNat_eq ‹_›) hrsv

theorem answers_decode (w : Word) : (CommandFields.ofWord w).Answers (decode w) := by
  unfold decode
  dsimp only
  split
  case isTrue h => exact answers_decodeFields h
  case isFalse h =>
    intro hwf
    obtain ⟨-, hrsv, -⟩ := (CommandFields.wf_iff _).1 hwf
    exact h hrsv

/-! ### Decoding and encoding -/

theorem decodeFields_fields (i : Instr) : decodeFields i.fields = .ok i := by
  cases i <;> rfl

@[simp] theorem decode_encode (i : Instr) : decode (encode i) = .ok i := by
  obtain ⟨-, hrsv, -⟩ := (CommandFields.wf_iff _).1 i.wf_fields
  unfold decode
  dsimp only
  rw [ofWord_encode, if_pos hrsv, decodeFields_fields]

theorem encode_of_decode {w : Word} {i : Instr} (h : decode w = .ok i) : encode i = w := by
  have hfields : i.fields = CommandFields.ofWord w := by
    have := answers_decode w
    rwa [h] at this
  rw [encode, hfields, CommandFields.toWord_ofWord]

/-- Settles O1: a decoded command has the word's own fields (`answers_decode`), and a command's word decodes to it. -/
theorem decodeExactlyInvertsEncode : Obligations.DecodeExactlyInvertsEncode := by
  intro w i
  constructor
  · exact encode_of_decode
  · rintro rfl
    exact decode_encode i

theorem decode_ok_iff_wf (w : Word) : (∃ i, decode w = .ok i) ↔ (CommandFields.ofWord w).wf = true := by
  constructor
  · rintro ⟨i, hi⟩
    rw [← encode_of_decode hi, ofWord_encode]
    exact i.wf_fields
  · intro hwf
    have hanswers := answers_decode w
    cases hd : decode w with
    | ok i => exact ⟨i, rfl⟩
    | error e =>
      rw [hd] at hanswers
      exact absurd hwf hanswers

end Sys2Proof

namespace Sys2Proof.Machine

/-- Settles O2: the words with well formed fields decode, and `issue_illegal` is what any other does. -/
theorem legalWords : Obligations.LegalWords := by
  intro w
  refine ⟨?_, fun s hs hw => ?_⟩
  · rw [decode_ok_iff_wf, CommandFields.wf_iff, CommandFields.knownOpcode_iff, CommandFields.flagsAllowed_iff,
      CommandFields.allowsC_iff, CommandFields.allowsFlip_iff, CommandFields.ofWord_op_toNat]
    rfl
  · rw [stepWrite_eq, hostWrite_cmd, issue_illegal hs hw]
    rfl

/-- Settles O3: the legal samples are the words of their commands, and the decoder rejects the others. -/
theorem sampleWordsDecode : Obligations.SampleWordsDecode := by
  unfold Obligations.SampleWordsDecode
  decide

/-- Settles O4: a CMD write is `issue`, with the two cases of a recorded fault, and an empty inbox leaves the block idle. -/
theorem stepRunsTheDecodedCommand : Obligations.StepRunsTheDecodedCommand := by
  intro s w i
  rw [stepWrite_eq, hostWrite_cmd]
  exact ⟨fun hs hd _ => issue_legal hs hd, issue_faulted, step_idle⟩

end Sys2Proof.Machine
end

section
/-! PROOFS. The fixed-point ALU (40_fixed_point.md rules R122 to R148): every command returns one word, which its operand
registers determine, and what that word is as an integer or bit by bit. -/

namespace Sys2Proof.Machine

/-! ### What an ALU command reads (R122) -/

/-- The command returns, from any state, a word that the registers its row names determine. -/
def ReturnsFromOperands (i : Instr) : Prop :=
  ∀ s : State, ∃ w, exec i s = .next (s.setResult w) ∧
    ∀ s' : State, (∀ k ∈ argsRead i, readArg k s' = readArg k s) → exec i s' = .next (s'.setResult w)

section Arity

variable {i : Instr}

theorem returnsFromOperands_of_one (f : Word → Word) (hexec : ∀ s, exec i s = returnWord (f (readArg 0 s)) s)
    (h0 : 0 ∈ argsRead i) : ReturnsFromOperands i :=
  fun s => ⟨_, hexec s, fun s' hargs => by rw [hexec, hargs 0 h0, returnWord]⟩

theorem returnsFromOperands_of_two (f : Word → Word → Word)
    (hexec : ∀ s, exec i s = returnWord (f (readArg 0 s) (readArg 1 s)) s)
    (hread : 0 ∈ argsRead i ∧ 1 ∈ argsRead i) : ReturnsFromOperands i := by
  obtain ⟨h0, h1⟩ := hread
  exact fun s => ⟨_, hexec s, fun s' hargs => by rw [hexec, hargs 0 h0, hargs 1 h1, returnWord]⟩

theorem returnsFromOperands_of_three (f : Word → Word → Word → Word)
    (hexec : ∀ s, exec i s = returnWord (f (readArg 0 s) (readArg 1 s) (readArg 2 s)) s)
    (hread : 0 ∈ argsRead i ∧ 1 ∈ argsRead i ∧ 2 ∈ argsRead i) : ReturnsFromOperands i := by
  obtain ⟨h0, h1, h2⟩ := hread
  exact fun s => ⟨_, hexec s, fun s' hargs => by rw [hexec, hargs 0 h0, hargs 1 h1, hargs 2 h2, returnWord]⟩

end Arity

/-- Each command of the ALU is a function of one, two or three operand words. -/
theorem returnsFromOperands_of_isAlu {i : Instr} (h : isAlu i = true) : ReturnsFromOperands i := by
  cases i with
  | fadd => exact returnsFromOperands_of_two (fun a b => wrap32 (s32 a + s32 b)) (fun _ => rfl) (by decide)
  | fsub => exact returnsFromOperands_of_two (fun a b => wrap32 (s32 a - s32 b)) (fun _ => rfl) (by decide)
  | fmul => exact returnsFromOperands_of_two fmul (fun _ => rfl) (by decide)
  | fdiv => exact returnsFromOperands_of_two fdiv (fun _ => rfl) (by decide)
  | fneg => exact returnsFromOperands_of_one (fun a => wrap32 (-s32 a)) (fun _ => rfl) (by decide)
  | fabs => exact returnsFromOperands_of_one (fun a => if s32 a < 0 then wrap32 (-s32 a) else a) (fun _ => rfl) (by decide)
  | fflr => exact returnsFromOperands_of_one (fun a => a &&& 0xffff0000) (fun _ => rfl) (by decide)
  | fceil =>
    exact returnsFromOperands_of_one (fun a => wrap32 (u32 a + 0xffff) &&& 0xffff0000) (fun _ => rfl) (by decide)
  | fmin => exact returnsFromOperands_of_two fmin (fun _ => rfl) (by decide)
  | fmax => exact returnsFromOperands_of_two fmax (fun _ => rfl) (by decide)
  | fmid => exact returnsFromOperands_of_three fmid (fun _ => rfl) (by decide)
  | feq => exact returnsFromOperands_of_two (fun a b => boolWord (a == b)) (fun _ => rfl) (by decide)
  | flt => exact returnsFromOperands_of_two (fun a b => boolWord (s32 a < s32 b)) (fun _ => rfl) (by decide)
  | fle => exact returnsFromOperands_of_two (fun a b => boolWord (s32 a ≤ s32 b)) (fun _ => rfl) (by decide)
  | ftoi => exact returnsFromOperands_of_one (fun a => wrap32 (intOf a)) (fun _ => rfl) (by decide)
  | band => exact returnsFromOperands_of_two (· &&& ·) (fun _ => rfl) (by decide)
  | bor => exact returnsFromOperands_of_two (· ||| ·) (fun _ => rfl) (by decide)
  | bxor => exact returnsFromOperands_of_two (· ^^^ ·) (fun _ => rfl) (by decide)
  | bnot => exact returnsFromOperands_of_one (· ^^^ 0xffffffff) (fun _ => rfl) (by decide)
  | shl => exact returnsFromOperands_of_two (fun a b => shl a (intOf b)) (fun _ => rfl) (by decide)
  | shr => exact returnsFromOperands_of_two (fun a b => sar a (intOf b)) (fun _ => rfl) (by decide)
  | lshr => exact returnsFromOperands_of_two (fun a b => lshr a (intOf b)) (fun _ => rfl) (by decide)
  | rotl => exact returnsFromOperands_of_two (fun a b => rotl a (intOf b)) (fun _ => rfl) (by decide)
  | rotr => exact returnsFromOperands_of_two (fun a b => rotl a (-intOf b)) (fun _ => rfl) (by decide)
  | fsgn =>
    exact returnsFromOperands_of_one (fun a => if s32 a < 0 then 0xffff0000 else 0x00010000) (fun _ => rfl) (by decide)
  | _ => cases h

/-- Settles O20: every ALU command returns a word its operand registers determine. -/
theorem aluReadsOperandsWritesResult : Obligations.AluReadsOperandsWritesResult := by
  intro i s hi _
  obtain ⟨w, hw, hsame⟩ := returnsFromOperands_of_isAlu hi s
  exact ⟨w, hw, fun s' _ hargs => hsame s' hargs⟩

/-! ### Wrapping arithmetic (R124, R125, R128, R129) -/

/-- The word FABS returns: only a negative operand is negated, and then wrapped. -/
theorem wraps_fabs (a : Word) : Wraps (if s32 a < 0 then wrap32 (-s32 a) else a) |s32 a| := by
  split
  case isTrue h =>
    rw [abs_of_neg h]
    exact wraps_wrap32 _
  case isFalse h =>
    rw [abs_of_nonneg (not_lt.1 h)]
    exact wraps_s32 a

/-- Settles O28: each command wraps the exact result. -/
theorem wrappingArithmetic : Obligations.WrappingArithmetic :=
  ⟨by decide, by decide, by decide, by decide, fun _ =>
    ⟨fun _ => ⟨_, rfl, wraps_wrap32 _⟩, fun _ => ⟨_, rfl, wraps_wrap32 _⟩, fun _ => ⟨_, rfl, wraps_wrap32 _⟩,
      fun _ => ⟨_, rfl, wraps_fabs _⟩⟩⟩

/-! ### Multiplication and division (R126, R127) -/

theorem wraps_fmul (a b : Word) : Wraps (fmul a b) ⌊((s32 a : ℚ) * s32 b) / 65536⌋ := by
  have hfloor : ⌊((s32 a : ℚ) * s32 b) / 65536⌋ = s32 a * s32 b / 65536 := by
    rw [← Int.cast_mul]
    exact floor_intDiv (s32 a * s32 b) 65536
  rw [hfloor]
  exact wraps_wrap32 _

/-- Settles O29: the integer quotient FMUL wraps is the floor of the rational one. -/
theorem fmulRoundsDown : Obligations.FmulRoundsDown :=
  ⟨by decide, fun _ _ => ⟨_, rfl, wraps_fmul _ _⟩⟩

theorem fdiv_zero_of_nonneg {a b : Word} (hb : s32 b = 0) (ha : 0 ≤ s32 a) : fdiv a b = 0x7fffffff := by
  rw [fdiv, if_pos hb, if_pos ha]

theorem fdiv_zero_of_neg {a b : Word} (hb : s32 b = 0) (ha : s32 a < 0) : fdiv a b = 0x80000000 := by
  rw [fdiv, if_pos hb, if_neg (not_le.2 ha)]

/-- The quotient is clamped to the signed range; what lies in the range does not wrap. -/
theorem s32_fdiv {b : Word} (hb : s32 b ≠ 0) (a : Word) :
    s32 (fdiv a b) = max (-2 ^ 31) (min (2 ^ 31 - 1) ((s32 a * 65536).tdiv (s32 b))) := by
  rw [fdiv, if_neg hb]
  dsimp only
  generalize (s32 a * 65536).tdiv (s32 b) = q
  split_ifs with hhigh hlow
  · rw [show s32 0x7fffffff = 2 ^ 31 - 1 by decide]
    omega
  · rw [show s32 0x80000000 = -2 ^ 31 by decide]
    omega
  · rw [s32_wrap32 (by omega) (by omega)]
    omega

/-- Settles O30: the two answers for a zero divisor, and the clamped quotient for any other. -/
theorem fdivSaturates : Obligations.FdivSaturates :=
  ⟨by decide, fun _ _ => ⟨_, rfl, fdiv_zero_of_nonneg, fdiv_zero_of_neg, fun hb => s32_fdiv hb _⟩⟩

/-! ### Floor and ceiling (R130, R131) -/

/-- Masking with `0xffff0000` shifts the low half out. -/
theorem and_highMask (a : Word) : a &&& (0xffff0000 : Word) = a >>> 16 <<< 16 := by
  rw [BitVec.shiftLeft_ushiftRight, show BitVec.allOnes 32 <<< 16 = 0xffff0000 by decide]

theorem extractLsb'_low_and_highMask (a : Word) : (a &&& 0xffff0000).extractLsb' 0 16 = 0 := by
  rw [and_highMask]
  ext j hj
  simp [hj]

theorem extractLsb'_high_and_highMask (a : Word) : (a &&& 0xffff0000).extractLsb' 16 16 = a.extractLsb' 16 16 := by
  rw [and_highMask]
  ext j hj
  simp [show 16 + j < 32 by omega]

theorem u32_and_highMask (a : Word) : u32 (a &&& 0xffff0000) = 65536 * (u32 a / 65536) := by
  have ha : a.toNat < 2 ^ 32 := a.isLt
  rw [and_highMask]
  unfold u32
  rw [BitVec.toNat_shiftLeft, BitVec.toNat_ushiftRight, Nat.shiftRight_eq_div_pow, Nat.shiftLeft_eq]
  omega

theorem wraps_floor (a : Word) : Wraps (a &&& 0xffff0000) (65536 * ⌊(s32 a : ℚ) / 65536⌋) := by
  have hu : (u32 a : Int) = s32 a % 2 ^ 32 := wraps_s32 a
  rw [show ⌊(s32 a : ℚ) / 65536⌋ = s32 a / 65536 from floor_intDiv (s32 a) 65536, Wraps, u32_and_highMask]
  omega

theorem wraps_ceil (a : Word) :
    Wraps (wrap32 (u32 a + 0xffff) &&& 0xffff0000) (65536 * ⌈(s32 a : ℚ) / 65536⌉) := by
  have hu : (u32 a : Int) = s32 a % 2 ^ 32 := wraps_s32 a
  have hsum : (u32 (wrap32 (u32 a + 0xffff)) : Int) = (u32 a + 0xffff) % 2 ^ 32 := wraps_wrap32 _
  rw [show ⌈(s32 a : ℚ) / 65536⌉ = -((-s32 a) / 65536) from ceil_intDiv (s32 a) 65536, Wraps, u32_and_highMask]
  omega

/-- Settles O31: the mask keeps the high half, which is the floor of the word, or of the word plus `0xffff` for FCEIL. -/
theorem floorAndCeiling : Obligations.FloorAndCeiling :=
  ⟨by decide, by decide, fun _ =>
    ⟨fun _ => ⟨_, rfl, extractLsb'_low_and_highMask _, extractLsb'_high_and_highMask _, wraps_floor _⟩,
      fun _ => ⟨_, rfl, extractLsb'_low_and_highMask _, wraps_ceil _⟩⟩⟩

/-! ### Selection (R132, R133, R134) -/

@[simp] theorem s32_fmin (a b : Word) : s32 (fmin a b) = min (s32 a) (s32 b) := by
  rw [fmin, apply_ite s32, min_def]

@[simp] theorem s32_fmax (a b : Word) : s32 (fmax a b) = max (s32 a) (s32 b) := by
  rw [fmax, apply_ite s32, max_comm, max_def]

theorem s32_fmid (a b c : Word) :
    s32 (fmid a b c) = max (min (s32 a) (s32 b)) (min (max (s32 a) (s32 b)) (s32 c)) := by
  simp [fmid]

theorem s32_fmid_mem (a b c : Word) : s32 (fmid a b c) ∈ [s32 a, s32 b, s32 c] := by
  simp only [List.mem_cons, List.not_mem_nil, or_false, s32_fmid]
  omega

/-- A predicate that holds of two of three words counts two. -/
theorem two_le_countP {p : Word → Bool} {a b c : Word}
    (h : (p a = true ∧ p b = true) ∨ (p a = true ∧ p c = true) ∨ (p b = true ∧ p c = true)) :
    2 ≤ [a, b, c].countP p := by
  rcases h with ⟨h1, h2⟩ | ⟨h1, h2⟩ | ⟨h1, h2⟩ <;> simp [List.countP_cons, h1, h2]

/-- Settles O32: `s32` turns the selections into minima and maxima of integers, and the median lies above and below two of
the three. -/
theorem signedSelection : Obligations.SignedSelection := by
  refine ⟨by decide, by decide, by decide, fun s => ⟨fun _ => ⟨_, rfl, s32_fmin _ _⟩, fun _ => ⟨_, rfl, s32_fmax _ _⟩,
    fun _ => ⟨_, rfl, s32_fmid_mem _ _ _, two_le_countP ?_, two_le_countP ?_⟩⟩⟩
  · simp only [decide_eq_true_eq, s32_fmid]
    omega
  · simp only [decide_eq_true_eq, s32_fmid]
    omega

/-! ### Comparison and conversion (R135 to R138, R148) -/

theorem returnBool_eq (b : Bool) (s : State) :
    returnBool b s = .next (s.setResult (if b = true then 0x00000001 else 0x00000000)) := rfl

theorem returnBool_of_iff {b : Bool} {P : Prop} [Decidable P] (h : b = true ↔ P) (s : State) :
    returnBool b s = .next (s.setResult (if P then 0x00000001 else 0x00000000)) := by
  simp only [returnBool_eq, h]

theorem s32_wrap32_intOf (a : Word) : s32 (wrap32 (intOf a)) = intOf a := by
  obtain ⟨hlo, hhi⟩ := intOf_bounds a
  exact s32_wrap32 (by omega) (by omega)

/-- Settles O33: equal words have equal signed values, and the integer part of a word fits in a word. -/
theorem comparisonAndConversion : Obligations.ComparisonAndConversion := by
  refine ⟨by decide, by decide, by decide, by decide, by decide, fun s =>
    ⟨fun _ => returnBool_of_iff (beq_iff_eq.trans BitVec.toInt_inj.symm) s, fun _ => returnBool_of_iff decide_eq_true_iff s,
      fun _ => returnBool_of_iff decide_eq_true_iff s, fun _ => ⟨_, rfl, fun h => ?_, fun h => ?_⟩, fun _ => rfl⟩⟩
  · exact (s32_wrap32_intOf _).trans (intOf_eq_floor h)
  · exact (s32_wrap32_intOf _).trans (intOf_eq_ceil h)

/-! ### Bitwise commands (R139 to R142) -/

/-- The complement BNOT computes, bit by bit. -/
theorem getLsbD_bnot (a : Word) {j : Nat} (hj : j < 32) : (a ^^^ 0xffffffff).getLsbD j = !a.getLsbD j := by
  have hones : (0xffffffff : Word) = BitVec.allOnes 32 := by decide
  rw [hones, BitVec.xor_allOnes, BitVec.getLsbD_not, decide_eq_true hj, Bool.true_and]

/-- Settles O34: the library's bits of `&&&`, `|||` and `^^^`, and the bits of an exclusive or with all ones. -/
theorem bitwiseOnEveryBit : Obligations.BitwiseOnEveryBit :=
  ⟨by decide, by decide, by decide, by decide, fun _ =>
    ⟨fun _ => ⟨_, rfl, fun _ _ => BitVec.getLsbD_and⟩, fun _ => ⟨_, rfl, fun _ _ => BitVec.getLsbD_or⟩,
      fun _ => ⟨_, rfl, fun _ _ => BitVec.getLsbD_xor⟩, fun _ => ⟨_, rfl, fun _ hj => getLsbD_bnot _ hj⟩⟩⟩

/-! ### Shifts (R143, R144, R145) -/

theorem getLsbD_shiftLeft_of_lt (a : Word) (k : Nat) {j : Nat} (hj : j < 32) :
    (a <<< k).getLsbD j = (decide (k ≤ j) && a.getLsbD (j - k)) := by
  rw [BitVec.getLsbD_shiftLeft, decide_eq_true hj, Bool.true_and, ← decide_not]
  simp only [not_lt]

/-- Past the top of the word, an arithmetic right shift repeats the sign bit. -/
theorem getLsbD_sshiftRight_of_lt (a : Word) (k : Nat) {j : Nat} (hj : j < 32) :
    (a.sshiftRight k).getLsbD j = a.getLsbD (min (j + k) 31) := by
  rw [BitVec.getLsbD_sshiftRight, decide_eq_false (not_le.2 hj), Bool.not_false, Bool.true_and, add_comm k j]
  split
  case isTrue h => rw [min_eq_left (by omega)]
  case isFalse h => rw [min_eq_right (by omega), BitVec.msb_eq_getLsbD_last]

theorem getLsbD_ushiftRight_eq (a : Word) (k j : Nat) :
    (a >>> k).getLsbD j = (decide (j + k < 32) && a.getLsbD (j + k)) := by
  rw [BitVec.getLsbD_ushiftRight, add_comm k j]
  by_cases h : j + k < 32
  · rw [decide_eq_true h, Bool.true_and]
  · rw [BitVec.getLsbD_of_ge a _ (not_lt.1 h), Bool.and_false]

/-- Settles O35: for a signed count each command is one of the three shifts of the library, whose bits the lemmas above
give. -/
theorem shiftsMoveBits : Obligations.ShiftsMoveBits := by
  refine ⟨by decide, by decide, by decide, fun s k _ => ⟨fun _ => ⟨_, rfl, fun hk j hj => ?_, fun hk j hj => ?_⟩,
    fun _ => ⟨_, rfl, fun hk j hj => ?_, fun hk j hj => ?_⟩, fun _ => ⟨_, rfl, fun hk j hj => ?_, fun hk j hj => ?_⟩⟩⟩
  · rw [argInt_eq, hk, shl_natCast, getLsbD_shiftLeft_of_lt _ _ hj]
  · rw [argInt_eq, hk, shl_neg_natCast, getLsbD_sshiftRight_of_lt _ _ hj]
  · rw [argInt_eq, hk, sar_natCast, getLsbD_sshiftRight_of_lt _ _ hj]
  · rw [argInt_eq, hk, sar_neg_natCast, getLsbD_shiftLeft_of_lt _ _ hj]
  · rw [argInt_eq, hk, lshr_natCast, getLsbD_ushiftRight_eq]
  · rw [argInt_eq, hk, lshr_neg_natCast, getLsbD_shiftLeft_of_lt _ _ hj]

/-! ### Rotations (R146, R147) -/

/-- Settles O36: `getLsbD_rotl`, which ROTR uses with the count negated. -/
theorem rotatesMoveBits : Obligations.RotatesMoveBits := by
  refine ⟨by decide, by decide, fun s => ⟨fun _ => ⟨_, rfl, fun j hj => getLsbD_rotl _ _ hj⟩,
    fun _ => ⟨_, rfl, fun j hj => ?_⟩⟩⟩
  rw [getLsbD_rotl _ _ hj, sub_neg_eq_add, argInt_eq]

end Sys2Proof.Machine
end

section
/-! PROOFS. The memory commands (41_memory_commands.md rules R160 to R167): PEEK and PEEK4 return wrapped reads, and every
store is one run of bytes, which is written whole or faults. -/

namespace Sys2Proof.Machine

/-! ### Wrapped reads (R160, R161, R162) -/

theorem Memory.readWrapped_eq (m : Memory) (a : Nat) :
    m.readWrapped a = if a % 0x10000 < 0x8000 then m.read (a % 0x10000) else 0 := rfl

/-- Below MEM_SIZE no address wraps. -/
theorem Memory.readWrapped_of_lt {a : Nat} (h : a < 0x8000) (m : Memory) : m.readWrapped a = m.read a := by
  have hmod : a % 0x10000 = a := Nat.mod_eq_of_lt (by omega)
  rw [readWrapped_eq, hmod, if_pos h]

/-- An operand's address has 16 bits, so from MEM_SIZE on it reads 0 without wrapping. -/
theorem Memory.readWrapped_of_ge {a : Nat} (h : 0x8000 ≤ a) (h' : a < 0x10000) (m : Memory) : m.readWrapped a = 0 := by
  rw [readWrapped_eq, Nat.mod_eq_of_lt h', if_neg (not_lt.2 h)]

/-- Byte `k` of the word of four bytes is the `k`-th of them (R61). -/
theorem extractLsb'_wordOf (f : Nat → Byte) {k : Nat} (hk : k < 4) :
    (wordOf (f 0) (f 1) (f 2) (f 3)).extractLsb' (8 * k) 8 = f k := by
  unfold wordOf
  match k, hk with
  | 0, _ =>
    rw [BitVec.extractLsb'_append_eq_of_add_le (by decide), BitVec.extractLsb'_append_eq_of_add_le (by decide),
      BitVec.extractLsb'_append_eq_right]
  | 1, _ =>
    rw [BitVec.extractLsb'_append_eq_of_add_le (by decide), BitVec.extractLsb'_append_eq_of_add_le (by decide),
      BitVec.extractLsb'_append_eq_left]
  | 2, _ => rw [BitVec.extractLsb'_append_eq_of_add_le (by decide), BitVec.extractLsb'_append_eq_left]
  | 3, _ => rw [BitVec.extractLsb'_append_eq_left]

theorem u32_setWidth_byte (b : Byte) : u32 (b.setWidth 32) = b.toNat :=
  BitVec.toNat_setWidth_of_le (by decide)

/-- Settles O37: both commands return wrapped reads, PEEK4 four of them as the bytes of its word. -/
theorem peekReads : Obligations.PeekReads := by
  refine ⟨by decide, by decide, fun s => ⟨fun _ => ⟨_, rfl, fun h => ?_, fun h => ?_⟩, fun _ => ⟨_, rfl, fun k hk => ?_⟩⟩⟩
  · rw [u32_setWidth_byte, Memory.readWrapped_of_lt h]
  · rw [Memory.readWrapped_of_ge h (addrOf_lt _)]
    rfl
  · exact extractLsb'_wordOf (fun j => s.mem.readWrapped (addrOf (readArg 0 s) + j)) hk

/-! ### Runs of stored bytes (R160) -/

/-- A run that fits, as its bytes are read back: what POKE4, MEMCPY, MEMSET and RELOAD have in common (R164 to R167). -/
theorem storeRun_stores {d n : Nat} (h : n = 0 ∨ d + n ≤ 0x8000) (f : Nat → Byte) (s : State) :
    ∃ t, storeRun d n f s = .next t ∧ t = s.setMem t.mem ∧ (∀ k < n, t.mem.read (d + k) = f k) ∧
      ∀ a, a < d ∨ d + n ≤ a → t.mem.read a = s.mem.read a := by
  refine ⟨_, storeRun_ok h f s, rfl, fun k hk => ?_, fun a ha => ?_⟩
  · rw [State.setMem_mem, Memory.read_fill, if_pos (by omega), Nat.add_sub_cancel_left]
  · rw [State.setMem_mem, Memory.read_fill, if_neg (by omega)]

/-- A run of one byte is a write. -/
theorem storeRun_one {d : Nat} (h : d < 0x8000) (b : Byte) (s : State) :
    storeRun d 1 (fun _ => b) s = .next (s.setMem (s.mem.write d b)) :=
  storeRun_ok (.inr h) _ s

/-- Settles O38: POKE is a run of one byte and POKE4 a run of four. -/
theorem pokeStores : Obligations.PokeStores := by
  refine ⟨by decide, by decide, fun s => ⟨fun _ h => ?_, fun _ h => ?_, fun _ h => ?_, fun _ h => ?_⟩⟩
  · exact ⟨_, storeRun_one h _ s, rfl, Memory.read_write _ _ _⟩
  · have hfault := storeRun_fault Nat.one_pos (Nat.lt_succ_of_le h) (fun _ => byteValue (readArg 1 s)) s
    rwa [max_eq_left h] at hfault
  · exact storeRun_stores (.inr h) (byteOf (readArg 1 s)) s
  · exact storeRun_fault (by decide) (Nat.lt_succ_of_le h) (byteOf (readArg 1 s)) s

/-- MEMCPY, MEMSET and RELOAD differ in the bytes they store alone. -/
theorem exec_eq_storeRun {i : Instr} (hi : i ∈ [Instr.memcpy, Instr.memset, Instr.reload]) (s : State) :
    ∃ f, exec i s = storeRun (addrOf (readArg 0 s)) (addrOf (readArg 2 s)) f s := by
  simp only [List.mem_cons, List.not_mem_nil, or_false] at hi
  rcases hi with rfl | rfl | rfl
  · exact ⟨_, rfl⟩
  · exact ⟨_, rfl⟩
  · exact ⟨_, rfl⟩

/-- Settles O39: each command is one run, of source bytes of the memory before it (MEMCPY), one byte repeated (MEMSET) or
bytes of the ROM port (RELOAD). -/
theorem runStores : Obligations.RunStores := by
  refine ⟨by decide, by decide, by decide, ?_⟩
  rintro s _ _ rfl rfl
  refine ⟨fun _ h => ?_, fun _ h => ?_, fun _ h => ?_, fun i hi _ hn hd => ?_⟩
  · exact storeRun_stores h (fun k => s.mem.readWrapped (addrOf (readArg 1 s) + k)) s
  · exact storeRun_stores h (fun _ => byteValue (readArg 1 s)) s
  · exact storeRun_stores h (fun k => s.rom.readSource (addrOf (readArg 1 s) + k)) s
  · obtain ⟨f, hf⟩ := exec_eq_storeRun hi s
    rw [hf]
    exact storeRun_fault hn hd f s

end Sys2Proof.Machine
end

section
/-! PROOFS. The rendering-state commands (42_draw_state.md rules R180 to R188): what each of them stores, and that it stores
nothing else. -/

namespace Sys2Proof.Machine

/-! ### Palettes and transparency (R183, R184, R185) -/

/-- The entry a palette command sets is the one its operand names modulo 16 (R14); the others keep their values. -/
theorem getElem_set_colOf {α : Type} (xs : Vector α 16) (v : Word) (x : α) (k : Fin 16) :
    (xs.set (colOf v).toNat x (colOf v).isLt)[k] = if (k.val : Int) = intOf v % 16 then x else xs[k] := by
  have hindex : (colOf v).toNat = k.val ↔ (k.val : Int) = intOf v % 16 := by
    rw [← colOf_cast, Int.natCast_inj, eq_comm]
  simp only [Fin.getElem_fin, Vector.getElem_set, hindex]

theorem exec_pal_screen {s : State} (h : intOf (readArg 2 s) = 1) :
    exec .pal s = .next { s with spal := setEntry s.spal (colOf (readArg 0 s)) (colOf (readArg 1 s)) } :=
  if_pos h

theorem exec_pal_draw {s : State} (h : intOf (readArg 2 s) ≠ 1) :
    exec .pal s = .next { s with dpal := setEntry s.dpal (colOf (readArg 0 s)) (colOf (readArg 1 s)) } :=
  if_neg h

theorem boolOf_eq_decide (v : Word) : boolOf v = decide (v ≠ 0) :=
  Bool.eq_iff_iff.2 ((boolOf_eq_true_iff v).trans decide_eq_true_iff.symm)

theorem toNat_getElem_identityPalette (k : Fin 16) : identityPalette[k].toNat = k.val := by
  simp only [identityPalette, Fin.getElem_fin, Vector.getElem_ofFn, BitVec.toNat_ofNat]
  exact Nat.mod_eq_of_lt k.isLt

theorem getElem_defaultTransp (k : Fin 16) : defaultTransp[k] = decide (k.val = 0) :=
  Vector.getElem_ofFn k.isLt

/-- Settles O43: PAL and PALT set the one entry of `getElem_set_colOf`, and PALRST stores the reset tables. -/
theorem paletteCommands : Obligations.PaletteCommands := by
  refine ⟨by decide, by decide, by decide, fun s => ⟨fun _ hscreen => ?_, fun _ hdraw => ?_, fun _ => ?_, ?_⟩⟩
  · exact ⟨_, exec_pal_screen hscreen, rfl, getElem_set_colOf s.spal (readArg 0 s) (colOf (readArg 1 s))⟩
  · exact ⟨_, exec_pal_draw hdraw, rfl, getElem_set_colOf s.dpal (readArg 0 s) (colOf (readArg 1 s))⟩
  · refine ⟨_, rfl, rfl, ?_⟩
    rw [← boolOf_eq_decide]
    exact getElem_set_colOf s.transp (readArg 0 s) (boolOf (readArg 1 s))
  · exact ⟨_, rfl, rfl, fun k =>
      ⟨toNat_getElem_identityPalette k, toNat_getElem_identityPalette k, getElem_defaultTransp k⟩⟩

/-! ### Camera, clip, pen, fill pattern and cursor (R180, R181, R182, R186, R187, R188) -/

/-- An operand's integer value fits in the 16 bits of a camera coordinate (R12, R27). -/
theorem toInt_ofInt_intOf (v : Word) : (BitVec.ofInt 16 (intOf v)).toInt = intOf v := by
  obtain ⟨hlo, hhi⟩ := intOf_bounds v
  exact BitVec.toInt_ofInt_eq_self (by decide) hlo (Int.lt_add_one_of_le hhi)

/-- A clip bound is kept as a natural number, which the clamp to `[0, 128]` always gives. -/
theorem toNat_clamp_cast (n : Int) : ((clamp n 0 128).toNat : Int) = min (max n 0) 128 :=
  Int.toNat_of_nonneg (le_min (le_max_right n 0) (by decide))

/-- Settles O42: each command stores its operands, those of CAMERA and CLIP as integers that fit their registers. -/
theorem renderingRegisterCommands : Obligations.RenderingRegisterCommands := by
  refine ⟨by decide, by decide, by decide, by decide, by decide, by decide, fun s =>
    ⟨fun _ => ?camera, fun _ => ?clip, rfl, fun _ => rfl, fun _ => rfl, fun _ => rfl⟩⟩
  case camera => exact ⟨_, rfl, rfl, toInt_ofInt_intOf (readArg 0 s), toInt_ofInt_intOf (readArg 1 s)⟩
  case clip =>
    exact ⟨_, rfl, rfl, toNat_clamp_cast _, toNat_clamp_cast _, toNat_clamp_cast _, toNat_clamp_cast _⟩

end Sys2Proof.Machine
end

section
/-! PROOFS. The pixel and rasterizer commands (43_primitives.md rules R200 to R215): the color-bits word, the pixel write,
the pixels each command draws, and the frame of every drawing command. -/

namespace Sys2Proof.Machine

/-! ### The color-bits word (R200) -/

theorem colorBits_of_raw {p : Word} (h : p.getLsbD 24 = true) (s : State) : colorBits s p = p &&& 0x00ffffff := if_pos h

theorem colorBits_of_composed {p : Word} (h : p.getLsbD 24 = false) (s : State) :
    colorBits s p = (s.fillp &&& (0x0100ffff : Word)) |||
      ((lookup s.dpal (p.extractLsb' 0 4)).setWidth 32 <<< 16) |||
      ((lookup s.dpal (p.extractLsb' 4 4)).setWidth 32 <<< 20) :=
  if_neg (Bool.eq_false_iff.1 h)

/-- The mask of a raw pen keeps the low 24 bits. -/
theorem getLsbD_rawMask : ∀ i < 32, (0x00ffffff : Word).getLsbD i = decide (i < 24) := by decide

/-- The mask of FILLP keeps the pattern and its transparency bit. -/
theorem getLsbD_patternMask : ∀ i < 32, (0x0100ffff : Word).getLsbD i = (decide (i < 16) || decide (i = 24)) := by
  decide

theorem getLsbD_colorBits_of_raw {p : Word} (h : p.getLsbD 24 = true) (s : State) {i : Nat} (hi : i < 32) :
    (colorBits s p).getLsbD i = (p.getLsbD i && decide (i < 24)) := by
  rw [colorBits_of_raw h, BitVec.getLsbD_and, getLsbD_rawMask i hi]

/-- Bit `i` of nibble `k` of a composed word: the palette entries are the nibbles 4 and 5, the rest comes from FILLP. -/
theorem getLsbD_colorBits_of_composed {p : Word} (h : p.getLsbD 24 = false) (s : State) {k i : Nat} (hk : k < 8)
    (hi : i < 4) :
    (colorBits s p).getLsbD (4 * k + i) =
      (s.fillp.getLsbD (4 * k + i) && (decide (4 * k + i < 16) || decide (4 * k + i = 24)) ||
        decide (4 = k) && (lookup s.dpal (p.extractLsb' 0 4)).getLsbD i ||
        decide (5 = k) && (lookup s.dpal (p.extractLsb' 4 4)).getLsbD i) := by
  rw [colorBits_of_composed h, BitVec.getLsbD_or, BitVec.getLsbD_or, BitVec.getLsbD_and,
    getLsbD_patternMask _ (by omega), getLsbD_shifted_nibble _ 4 hk hi, getLsbD_shifted_nibble _ 5 hk hi]

/-- Bit `j` of a composed word outside its two palette entries. -/
theorem getLsbD_colorBits_of_pattern {p : Word} (h : p.getLsbD 24 = false) (s : State) {j : Nat} (hj : j < 32)
    (hout : j < 16 ∨ 24 ≤ j) :
    (colorBits s p).getLsbD j = (s.fillp.getLsbD j && (decide (j < 16) || decide (j = 24))) := by
  have hbit := getLsbD_colorBits_of_composed h s (k := j / 4) (i := j % 4) (by omega) (by omega)
  rw [Nat.div_add_mod, decide_eq_false (by omega : ¬4 = j / 4), decide_eq_false (by omega : ¬5 = j / 4)] at hbit
  simpa using hbit

theorem extractLsb'_colorBits_primary {p : Word} (h : p.getLsbD 24 = false) (s : State) :
    (colorBits s p).extractLsb' 16 4 = lookup s.dpal (p.extractLsb' 0 4) := by
  refine BitVec.eq_of_getLsbD_eq fun i hi => ?_
  have hbit := getLsbD_colorBits_of_composed h s (k := 4) (by decide) hi
  rw [decide_eq_false (by omega : ¬4 * 4 + i < 16), decide_eq_false (by omega : ¬4 * 4 + i = 24)] at hbit
  simpa [hi] using hbit

theorem extractLsb'_colorBits_secondary {p : Word} (h : p.getLsbD 24 = false) (s : State) :
    (colorBits s p).extractLsb' 20 4 = lookup s.dpal (p.extractLsb' 4 4) := by
  refine BitVec.eq_of_getLsbD_eq fun i hi => ?_
  have hbit := getLsbD_colorBits_of_composed h s (k := 5) (by decide) hi
  rw [decide_eq_false (by omega : ¬4 * 5 + i < 16), decide_eq_false (by omega : ¬4 * 5 + i = 24)] at hbit
  simpa [hi] using hbit

/-- Settles O44: bit by bit, a raw pen's word is a masked pen, and any other word is the fields of FILLP around two
palette entries. -/
theorem colorBitsFields : Obligations.ColorBitsFields := by
  refine fun s p => ⟨fun hraw => ⟨?rawLow, ?rawHigh⟩, fun hcomposed => ⟨?pattern, extractLsb'_colorBits_primary hcomposed s,
    extractLsb'_colorBits_secondary hcomposed s, ?transparency, ?high⟩⟩
  case rawLow =>
    refine BitVec.eq_of_getLsbD_eq fun i hi => ?_
    rw [BitVec.getLsbD_extractLsb', BitVec.getLsbD_extractLsb', getLsbD_colorBits_of_raw hraw s (by omega)]
    simp [hi]
  case rawHigh =>
    refine BitVec.eq_of_getLsbD_eq fun i hi => ?_
    rw [BitVec.getLsbD_extractLsb', getLsbD_colorBits_of_raw hraw s (by omega)]
    simp
  case pattern =>
    refine BitVec.eq_of_getLsbD_eq fun i hi => ?_
    rw [BitVec.getLsbD_extractLsb', BitVec.getLsbD_extractLsb',
      getLsbD_colorBits_of_pattern hcomposed s (by omega) (by omega)]
    simp [hi]
  case transparency =>
    rw [getLsbD_colorBits_of_pattern hcomposed s (by decide) (by decide)]
    simp
  case high =>
    refine BitVec.eq_of_getLsbD_eq fun i hi => ?_
    rw [BitVec.getLsbD_extractLsb', getLsbD_colorBits_of_pattern hcomposed s (by omega) (by omega),
      decide_eq_false (by omega : ¬25 + i < 16), decide_eq_false (by omega : ¬25 + i = 24)]
    simp

/-! ### The pixel write (R201) -/

theorem inSquare_of_contains {c : Clip} (hb : c.bounded) {x y : Int} (h : c.contains x y = true) : inSquare x y := by
  obtain ⟨-, -, hbX, hbY⟩ := hb
  obtain ⟨hx, hx', hy, hy'⟩ := (c.contains_eq_true_iff x y).1 h
  omega

theorem screenRead_outside {x y : Int} (h : ¬inSquare x y) (m : Memory) : screenRead m x y = 0 := if_neg h

theorem pixelWrite_outside {clip : Clip} {x y : Int} (h : clip.contains x y = false) (cb : Word) (m : Memory) :
    pixelWrite clip cb x y m = m :=
  if_neg (Bool.eq_false_iff.1 h)

theorem pixelColor_primary {cb : Word} {x y : Int} (h : cb.getLsbD (patternIndex x y) = false) :
    pixelColor cb x y = some (cb.extractLsb' 16 4) :=
  if_neg (Bool.eq_false_iff.1 h)

theorem pixelColor_secondary {cb : Word} {x y : Int} (h : cb.getLsbD (patternIndex x y) = true)
    (hs : cb.getLsbD 24 = false) : pixelColor cb x y = some (cb.extractLsb' 20 4) :=
  (if_pos h).trans (if_neg (Bool.eq_false_iff.1 hs))

theorem pixelColor_transparent {cb : Word} {x y : Int} (h : cb.getLsbD (patternIndex x y) = true)
    (ht : cb.getLsbD 24 = true) : pixelColor cb x y = none :=
  (if_pos h).trans (if_pos ht)

theorem pixelWrite_transparent {cb : Word} {x y : Int} (h : pixelColor cb x y = none) (clip : Clip) (m : Memory) :
    pixelWrite clip cb x y m = m := by
  rw [pixelWrite, h, ite_self]

/-- A visible pixel reads back the color written to it. -/
theorem screenRead_pixelWrite_same {clip : Clip} (hb : clip.bounded) {cb : Word} {x y : Int}
    (hin : clip.contains x y = true) {c : Nibble} (hc : pixelColor cb x y = some c) (m : Memory) :
    screenRead (pixelWrite clip cb x y m) x y = c := by
  rw [screenRead_pixelWrite (inSquare_of_contains hb hin), if_pos ⟨rfl, rfl, hin⟩, hc, Option.getD_some]

theorem screenRead_pixelWrite_other {x y x' y' : Int} (h : x' ≠ x ∨ y' ≠ y) (clip : Clip) (cb : Word)
    (m : Memory) : screenRead (pixelWrite clip cb x y m) x' y' = screenRead m x' y' := by
  by_cases hs : inSquare x' y'
  · rw [screenRead_pixelWrite hs, if_neg fun hh => h.elim (· hh.1) (· hh.2.1)]
  · rw [screenRead_outside hs, screenRead_outside hs]

/-- Settles O45: inside the clip `pixelColor` says which color is written, if any; nothing else is touched. -/
theorem pixelWriteRule : Obligations.PixelWriteRule := by
  intro clip cb x y m hb
  refine ⟨fun hout => ?_, fun hx hx' hy hy' i hi => ?_, fun x' y' hne => ?_, fun a ha => ?_⟩
  · exact pixelWrite_outside (Bool.eq_false_iff.2 ((clip.contains_eq_true_iff x y).not.2 hout)) cb m
  · have hin : clip.contains x y = true := (clip.contains_eq_true_iff x y).2 ⟨hx, hx', hy, hy'⟩
    obtain rfl : i = patternIndex x y := by unfold patternIndex; omega
    exact ⟨fun h => screenRead_pixelWrite_same hb hin (pixelColor_primary h) m,
      fun h hs => screenRead_pixelWrite_same hb hin (pixelColor_secondary h hs) m,
      fun h ht => pixelWrite_transparent (pixelColor_transparent h ht) clip m⟩
  · exact screenRead_pixelWrite_other hne clip cb m
  · exact pixelWrite_read ha clip cb x y m

/-! ### PGET (R204) -/

theorem u32_setWidth_nibble (c : Nibble) : u32 (c.setWidth 32) = c.toNat := BitVec.toNat_setWidth_of_le (by decide)

theorem toNat_nibbleOf_even {x : Nat} (h : x % 2 = 0) (b : Byte) : (nibbleOf x b).toNat = b.toNat % 16 := by
  rw [nibbleOf_even h, BitVec.extractLsb'_toNat, Nat.shiftRight_zero]

theorem toNat_nibbleOf_odd {x : Nat} (h : x % 2 = 1) (b : Byte) : (nibbleOf x b).toNat = b.toNat / 16 := by
  have hb : b.toNat < 256 := b.isLt
  rw [nibbleOf_odd h, BitVec.extractLsb'_toNat, Nat.shiftRight_eq_div_pow]
  omega

theorem screenRead_inside {x y : Int} (h : inSquare x y) (m : Memory) :
    screenRead m x y = nibbleOf x.toNat (m.read (0x6000 + 64 * y + x / 2).toNat) := by
  rw [screenRead, if_pos h, ← (eq_screenAddr_iff h (0x6000 + 64 * y + x / 2).toNat).2 (by omega)]

/-- Settles O47: inside the clip PGET returns the nibble of `screenRead_inside`. -/
theorem pgetReads : Obligations.PgetReads := by
  refine ⟨by decide, ?_⟩
  rintro s _ hb x y rfl rfl
  refine ⟨_, rfl, fun hout => ?_, fun hx hx' hy hy' => ?_⟩
  · exact if_neg ((s.clip.contains_eq_true_iff _ _).not.2 hout)
  · have hin := (s.clip.contains_eq_true_iff _ _).2 ⟨hx, hx', hy, hy'⟩
    have hsq := inSquare_of_contains hb hin
    rw [argX_eq, argY_eq, if_pos hin, u32_setWidth_nibble, screenRead_inside hsq]
    exact ⟨fun heven => toNat_nibbleOf_even (by omega) _, fun hodd => toNat_nibbleOf_odd (by omega) _⟩

/-! ### The rasterizers (R202 to R214) -/

/-- Settles O46: each command is a draw over its point or its span. -/
theorem pointsAndSpans : Obligations.PointsAndSpans := by
  refine fun c s => ⟨by cases c <;> rfl, by cases c <;> rfl, by cases c <;> rfl, fun _ => ?_, fun _ => ?_, fun _ => ?_⟩
  · exact draws_of_drawWith (i := .pset c) rfl fun x y => by rw [List.mem_singleton, Prod.mk.injEq]; rfl
  · exact draws_of_drawWith (i := .hline c) rfl fun _ _ => mem_hspan
  · exact draws_of_drawWith (i := .vline c) rfl fun _ _ => mem_vspan

/-- Settles O48: LINE is a draw over the points of `mem_linePoints`. -/
theorem lineDraws : Obligations.LineDraws :=
  fun c _ => ⟨by cases c <;> rfl, fun _ => draws_of_drawWith (i := .line c) rfl fun _ _ => mem_linePoints⟩

/-- Settles O49: RECT is a draw over the border of `mem_rectPoints`, RECTFILL over the box of `mem_rectFillPoints`. -/
theorem rectanglesDraw : Obligations.RectanglesDraw := by
  rintro c s _ _ _ _ rfl rfl rfl rfl
  refine ⟨by cases c <;> rfl, by cases c <;> rfl, fun _ => ?_, fun _ => ?_⟩
  · exact draws_of_drawWith (i := .rect c) rfl fun _ _ => mem_rectPoints
  · exact draws_of_drawWith (i := .rectfill c) rfl fun _ _ => mem_rectFillPoints

/-- Settles O50: CIRC is a draw over the points of `mem_circPoints`, CIRCFILL over the spans of `mem_circFillPoints`. -/
theorem circlesDraw : Obligations.CirclesDraw := by
  rintro c s _ _ _ rfl rfl rfl
  refine ⟨by cases c <;> rfl, by cases c <;> rfl, fun _ => ?_, fun _ => ?_⟩
  · exact draws_of_drawWith (i := .circ c) rfl fun _ _ => mem_circPoints
  · exact draws_of_drawWith (i := .circfill c) rfl fun _ _ => mem_circFillPoints

/-! ### CLS (R215) -/

/-- Settles O51: CLS is one fill of SCREEN with the byte that holds the color twice. -/
theorem clsFillsTheScreen : Obligations.ClsFillsTheScreen := by
  refine ⟨by decide, fun s _ => ⟨_, rfl, rfl, fun a hlo hhi => ?_, fun a ha => ?_⟩⟩
  · rw [State.setMem_mem, Memory.read_fill, if_pos (by omega)]
    exact ⟨BitVec.extractLsb'_append_eq_right, BitVec.extractLsb'_append_eq_left⟩
  · rw [State.setMem_mem, Memory.read_fill, if_neg (by omega)]

/-! ### The frame of the drawing commands -/

/-- A draw writes the screen, takes its pen and, for PRINTC, moves the cursor; or it only records a fault. -/
theorem Effect.draws_or_faults {s t : State} {i : Instr} (e : Effect s i t) (h : isDraw i = true) :
    (t = { s with mem := t.mem, pen := t.pen, cursorY := t.cursorY } ∧
      (∀ a, ¬(0x6000 ≤ a ∧ a < 0x8000) → t.mem.read a = s.mem.read a) ∧
      ∀ p : Fin 8, hasPen i = true → p.val = plainOperands i → t.pen = readArg p s) ∨
    ∃ k a, t = s.raiseFault k a := by
  cases e with
  | drew _ _ _ _ _ hpen' _ outside => exact .inl ⟨rfl, outside, hpen'⟩
  | printed c _ _ _ outside =>
    refine .inl ⟨rfl, outside, fun p hpen hp => ?_⟩
    obtain rfl : p = 1 := Fin.ext hp
    exact if_pos hpen
  | faulted k a => exact .inr ⟨k, a, rfl⟩
  | returned hi => simp [not_returnsValue_of_isDraw h] at hi
  | stored hi => simp [not_isStore_of_isDraw h] at hi
  | setClip hi => rcases hi with rfl | rfl <;> cases h
  | _ => cases h

theorem Effect.draw_keeps_pen {s t : State} {i : Instr} (e : Effect s i t) (h : isDraw i = true)
    (hpen : hasPen i = false) : t.pen = s.pen := by
  by_contra hne
  rcases e.pen_writer hne with rfl | hp
  · cases h
  · exact absurd hp (Bool.eq_false_iff.1 hpen)

theorem Effect.draw_keeps_cursorY {s t : State} {i : Instr} (e : Effect s i t) (h : isDraw i = true)
    (hi : ∀ c, i ≠ .printc c) : t.cursorY = s.cursorY := by
  by_contra hne
  rcases e.cursorY_writer hne with rfl | ⟨c, hc⟩
  · cases h
  · exact hi c hc

theorem drawWith_fault {c : Bool} {p : Fin 8} {ps : List Point} {s t : State} (h : drawWith c p ps s = .next t) :
    t.fault = s.fault := by
  rw [drawWith_eq, takePen_eq] at h
  cases h
  rfl

theorem isTextLength_of_operandInRange {s : State} (h : (0 ≤ argInt 0 s && argInt 0 s ≤ 256) = true) :
    isTextLength (argInt 0 s) := by
  obtain ⟨hlo, hhi⟩ := Bool.and_eq_true_iff.1 h
  exact ⟨of_decide_eq_true hlo, of_decide_eq_true hhi⟩

/-- Only the length of a print can make a draw fault. -/
theorem draw_fault_of_operandInRange {i : Instr} {s t : State} (hdraw : isDraw i = true)
    (hr : operandInRange i s = true) (h : exec i s = .next t) : t.fault = s.fault := by
  cases i with
  | pset | hline | vline | line | rect | rectfill | circ | circfill => exact drawWith_fault h
  | print c => exact drawWith_fault ((if_pos (isTextLength_of_operandInRange hr)).symm.trans h)
  | printc c =>
    cases (execPrintc_eq (isTextLength_of_operandInRange hr) c).symm.trans h
    rfl
  | cls | spr | sspr | map =>
    cases h
    rfl
  | _ => cases hdraw

/-- Settles O21: `Effect.draws_or_faults`, and with its operand in range a draw does not fault. -/
theorem drawsWriteOnlyTheScreen : Obligations.DrawsWriteOnlyTheScreen := by
  intro i s t hdraw hs h
  have e := effect_of_exec h
  have hfault (hr : operandInRange i s = true) : t.fault = none :=
    (draw_fault_of_operandInRange hdraw hr h).trans hs
  rcases e.draws_or_faults hdraw with ⟨ht, houtside, htake⟩ | ⟨k, a, rfl⟩
  · have hrecord : t.fault = s.fault ∧ t.faddr = s.faddr := by
      rw [ht]
      exact ⟨rfl, rfl⟩
    refine ⟨houtside, ?_, e.draw_keeps_pen hdraw, fun p hp _ => htake p hp, e.draw_keeps_cursorY hdraw,
      fun hr => ⟨hfault hr, hrecord.2⟩⟩
    rw [hrecord.1, hrecord.2]
    exact ht
  · have hrecorded : (s.raiseFault k a).fault ≠ none := by simp
    exact ⟨fun _ _ => rfl, rfl, fun _ => rfl, fun _ _ hn => absurd hn hrecorded, fun _ => rfl,
      fun hr => absurd (hfault hr) hrecorded⟩

end Sys2Proof.Machine
end

section
/-! PROOFS. The sprite and map commands (44_sprites_map.md rules R240 to R251): every blit is a span of copies or the map's
spans put together, and the sheet, map and flag commands read or replace one pixel, byte or bit. -/

namespace Sys2Proof.Machine

/-! ### Blits of one span (R240, R241, R242) -/

/-- A command whose meaning is the blit of one span: a screen pixel belongs to one place `(i, j)` of the span. -/
theorem blits_of_spanCopies {c : Instr} {s : State} {x0 y0 w h : Int} {su sv : Int → Int}
    (hexec : exec c s = .next (s.setMem (blit s (spanCopies x0 y0 w h su sv) s.mem))) :
    Blits c (fun x y u v => ∃ i j : Int, 0 ≤ i ∧ i < w ∧ 0 ≤ j ∧ j < h ∧
      x = x0 + i ∧ y = y0 + j ∧ u = su i ∧ v = sv j) s := by
  refine blits_of_blit hexec (fun _ _ _ _ => mem_spanCopies) ?_
  rintro x y u v u' v' ⟨i, j, -, -, -, -, hx, hy, rfl, rfl⟩ ⟨i', j', -, -, -, -, hx', hy', rfl, rfl⟩
  obtain rfl : i = i' := by omega
  obtain rfl : j = j' := by omega
  exact ⟨rfl, rfl⟩

/-- The span operand of SPR, from the wrapped word the rule names (R241). -/
theorem eq_spanPixels {v : Word} {w : Int} (h : ∃ d, Wraps d (8 * s32 v) ∧ w = intOf d) : w = spanPixels v := by
  obtain ⟨d, hd, rfl⟩ := h
  rw [hd.eq_wrap32, spanPixels]

/-- Settles O52: SPR is the blit of one span, whose width and height are `eq_spanPixels`. -/
theorem sprBlits : Obligations.SprBlits := by
  rintro fx fy s _ w h rfl hw hh
  obtain rfl := eq_spanPixels hw
  obtain rfl := eq_spanPixels hh
  exact ⟨by cases fx <;> cases fy <;> rfl, fun _ => blits_of_spanCopies rfl⟩

theorem spanCopies_eq_nil {w h : Int} (hn : w ≤ 0 ∨ h ≤ 0) (x0 y0 : Int) (su sv : Int → Int) :
    spanCopies x0 y0 w h su sv = [] := by
  refine List.eq_nil_iff_forall_not_mem.2 fun ⟨x, y, u, v⟩ hc => ?_
  obtain ⟨i, j, hi, hiw, hj, hjh, -⟩ := mem_spanCopies.1 hc
  omega

/-- The copies of a span depend on the sheet positions of its own columns and rows alone. -/
theorem spanCopies_congr {w h : Int} {su su' sv sv' : Int → Int} (hu : ∀ i, 0 ≤ i → i < w → su i = su' i)
    (hv : ∀ j, 0 ≤ j → j < h → sv j = sv' j) (x0 y0 : Int) :
    spanCopies x0 y0 w h su sv = spanCopies x0 y0 w h su' sv' := by
  refine List.flatMap_congr fun j hj => List.map_congr_left fun i hi => ?_
  rw [mem_intRange] at hi hj
  rw [hu i hi.1 (by omega), hv j hj.1 (by omega)]

/-- The floor division of R242: the size scaled by the flipped index, over the destination size as a rational. -/
theorem scaled_eq_floor (flip : Bool) {d i : Int} (hi : 0 ≤ i) (hd : i < d) (n : Int) :
    n * flipped flip d i / d = ⌊(n * (if flip then d - 1 - i else i) : ℚ) / d⌋ := by
  lift d to Nat using by omega
  rw [← Rat.floor_intCast_div_natCast]
  cases flip <;> simp [flipped]

/-- SSPR's copies are one span; with a destination size not above 0 both sides are empty (R242). -/
theorem ssprCopies_eq_spanCopies (fx fy : Bool) (s : State) :
    ssprCopies fx fy s = spanCopies (argX 4 s) (argY 5 s) (argInt 6 s) (argInt 7 s)
      (fun i => argInt 0 s + ⌊(argInt 2 s * (if fx then argInt 6 s - 1 - i else i) : ℚ) / argInt 6 s⌋)
      (fun j => argInt 1 s + ⌊(argInt 3 s * (if fy then argInt 7 s - 1 - j else j) : ℚ) / argInt 7 s⌋) := by
  unfold ssprCopies
  simp only
  split
  case isTrue hn => exact (spanCopies_eq_nil hn _ _ _ _).symm
  case isFalse =>
    exact spanCopies_congr (fun i hi hd => congrArg _ (scaled_eq_floor fx hi hd _))
      (fun j hj hd => congrArg _ (scaled_eq_floor fy hj hd _)) _ _

theorem exec_sspr (fx fy : Bool) (s : State) :
    exec (.sspr fx fy) s = .next (s.setMem (blit s (ssprCopies fx fy s) s.mem)) := rfl

/-- Settles O53: SSPR is the blit of the span of `ssprCopies_eq_spanCopies`. -/
theorem ssprBlits : Obligations.SsprBlits := by
  rintro fx fy s _ _ rfl rfl
  refine ⟨by cases fx <;> cases fy <;> rfl, fun _ => ?_⟩
  have hexec := exec_sspr fx fy s
  rw [ssprCopies_eq_spanCopies] at hexec
  exact blits_of_spanCopies hexec

/-! ### MAP (R243) -/

theorem bitwiseAnd_ne_zero_iff {n : Nat} (a b : BitVec n) :
    a &&& b ≠ 0 ↔ ∃ k < n, b.getLsbD k = true ∧ a.getLsbD k = true := by
  constructor
  · contrapose!
    intro h
    refine BitVec.eq_of_getLsbD_eq fun k hk => ?_
    rw [BitVec.getLsbD_and]
    cases hb : b.getLsbD k with
    | false => simp
    | true => simp [h k hk hb]
  · rintro ⟨k, -, hb, ha⟩ h
    have hk := congrArg (·.getLsbD k) h
    simp [ha, hb] at hk

/-- The layer test of R243, bit by bit. -/
theorem tileDrawn_iff (m : Memory) (l t : Byte) : tileDrawn m l t = true ↔
    l = 0 ∨ ∃ b < 8, l.getLsbD b = true ∧ (m.read (0x3000 + t.toNat)).getLsbD b = true := by
  rw [← bitwiseAnd_ne_zero_iff, tileDrawn, Bool.or_eq_true, beq_iff_eq, bne_iff_ne, flagAddr]

/-- The copies of one cell: its tile's 8 x 8 sheet pixels, if the tile is drawn. -/
theorem mem_tileCopies {m : Memory} {l : Byte} {cx cy x0 y0 x y u v : Int} :
    (⟨x, y, u, v⟩ : Copy) ∈ tileCopies m l cx cy x0 y0 ↔
      tileDrawn m l (mapRead m cx cy) = true ∧ ∃ du dv : Nat, du < 8 ∧ dv < 8 ∧ x = x0 + du ∧ y = y0 + dv ∧
        u = ((mapRead m cx cy).toNat % 16 * 8 + du : Nat) ∧ v = ((mapRead m cx cy).toNat / 16 * 8 + dv : Nat) := by
  unfold tileCopies spriteX spriteY
  split
  case isFalse hdrawn => simp [hdrawn]
  case isTrue hdrawn =>
    rw [mem_spanCopies, and_iff_right hdrawn]
    constructor
    · rintro ⟨i, j, hi, hi8, hj, hj8, rfl, rfl, rfl, rfl⟩
      exact ⟨i.toNat, j.toNat, by omega⟩
    · rintro ⟨du, dv, hdu, hdv, rfl, rfl, rfl, rfl⟩
      exact ⟨du, dv, by omega⟩

/-- Settles O54: MAP is the blit of its cells' copies, and a screen pixel belongs to one pixel of one cell. -/
theorem mapBlits : Obligations.MapBlits := by
  refine ⟨by decide, ?_⟩
  rintro s _ rfl _
  refine blits_of_blit (execMap_eq s) (fun x y u v => ?copies) ?unique
  case copies =>
    simp only [List.mem_flatMap, Prod.exists, mem_mapCells, mem_tileCopies, tileDrawn_iff]
    constructor
    · rintro ⟨ti, tj, ⟨hti, htiw, htj, htjh⟩, hdrawn, du, dv, hdu, hdv, hpixel⟩
      exact ⟨ti, tj, du, dv, _, hti, htiw, htj, htjh, hdu, hdv, rfl, hdrawn, hpixel⟩
    · rintro ⟨ti, tj, du, dv, _, hti, htiw, htj, htjh, hdu, hdv, rfl, hdrawn, hpixel⟩
      exact ⟨ti, tj, ⟨hti, htiw, htj, htjh⟩, hdrawn, du, dv, hdu, hdv, hpixel⟩
  case unique =>
    rintro x y u v u' v' ⟨ti, tj, du, dv, t, -, -, -, -, hdu, hdv, rfl, -, hx, hy, rfl, rfl⟩
      ⟨ti', tj', du', dv', t', -, -, -, -, hdu', hdv', rfl, -, hx', hy', rfl, rfl⟩
    obtain ⟨rfl, rfl⟩ : ti = ti' ∧ du = du' := by omega
    obtain ⟨rfl, rfl⟩ : tj = tj' ∧ dv = dv' := by omega
    exact ⟨rfl, rfl⟩

/-! ### Pixels of the sheet (R244, R245) -/

theorem gfxRead_inside {x y : Int} (h : inSquare x y) (m : Memory) :
    gfxRead m x y = nibbleOf x.toNat (m.read (64 * y + x / 2).toNat) := by
  rw [gfxRead, if_pos h, ← (eq_gfxAddr_iff h (64 * y + x / 2).toNat).2 (by omega)]

theorem gfxRead_outside {x y : Int} (h : ¬inSquare x y) (m : Memory) : gfxRead m x y = 0 := if_neg h

/-- Every sheet pixel after `GfxWrite` anywhere, inside the sheet or not (R65, R66). -/
theorem gfxRead_gfxWrite_everywhere (m : Memory) (x y : Int) (c : Nibble) (x' y' : Int) :
    gfxRead (gfxWrite x y c m) x' y' = if inSquare x y ∧ x' = x ∧ y' = y then c else gfxRead m x' y' := by
  by_cases h : inSquare x y
  · by_cases h' : inSquare x' y'
    · rw [gfxRead_gfxWrite h' h]
      simp only [and_iff_right h]
    · rw [gfxRead_outside h', gfxRead_outside h', if_neg]
      rintro ⟨-, rfl, rfl⟩
      exact h' h
  · rw [gfxWrite, if_neg h, if_neg fun hh => h hh.1]

/-! ### Cells of the map (R246, R247) -/

/-- Every byte after a write that is dropped unless `p`, at the one address where `q` holds. -/
theorem Memory.read_write_if {p q : Prop} [Decidable p] [Decidable q] {a k : Nat} (h : p → (a = k ↔ q)) (m : Memory)
    (b : Byte) : Memory.read (if p then m.write k b else m) a = if p ∧ q then b else m.read a := by
  by_cases hp : p
  · simp only [hp, if_true, true_and, Memory.read_write, h hp]
  · rw [if_neg hp, if_neg fun hh => hp hh.1]

/-- `MapAddr` as the two formulas of R67, over integers. -/
theorem mapAddr_cast {x y : Int} (h : inMap x y) :
    (mapAddr x.toNat y.toNat : Int) = if y < 32 then 0x2000 + 128 * y + x else 0x1000 + 128 * (y - 32) + x := by
  unfold mapAddr
  split_ifs <;> omega

theorem mapRead_low {x y : Int} (h : inMap x y) (hy : y < 32) (m : Memory) :
    mapRead m x y = m.read (0x2000 + 128 * y + x).toNat := by
  have haddr := mapAddr_cast h
  rw [if_pos hy] at haddr
  rw [mapRead, if_pos h, ← haddr, Int.toNat_natCast]

theorem mapRead_high {x y : Int} (h : inMap x y) (hy : 32 ≤ y) (m : Memory) :
    mapRead m x y = m.read (0x1000 + 128 * (y - 32) + x).toNat := by
  have haddr := mapAddr_cast h
  rw [if_neg (not_lt.2 hy)] at haddr
  rw [mapRead, if_pos h, ← haddr, Int.toNat_natCast]

theorem mapRead_outside {x y : Int} (h : ¬inMap x y) (m : Memory) : mapRead m x y = 0 := if_neg h

/-- Every byte after the write of a map cell, inside the map or not. -/
theorem read_mapWrite (m : Memory) (x y : Int) (b : Byte) (a : Nat) :
    (mapWrite x y b m).read a =
      if inMap x y ∧ (a : Int) = (if y < 32 then 0x2000 + 128 * y + x else 0x1000 + 128 * (y - 32) + x)
      then b else m.read a := by
  refine Memory.read_write_if (fun h => ?_) m b
  rw [← mapAddr_cast h, Int.natCast_inj]

/-- Settles O55: the reads are `gfxRead` and `mapRead` case by case, the writes change the one pixel of
`gfxRead_gfxWrite_everywhere` and the one byte of `read_mapWrite`. -/
theorem sheetAndMapCells : Obligations.SheetAndMapCells := by
  refine ⟨by decide, by decide, by decide, by decide, ?_⟩
  rintro s _ _ rfl rfl
  refine ⟨fun _ => ⟨_, rfl, fun hout => ?_, fun hin heven => ?_, fun hin hodd => ?_⟩,
    fun _ => ⟨_, rfl, rfl, gfxRead_gfxWrite_everywhere _ _ _ _, fun a ha => gfxWrite_read ha _ _ _ _⟩,
    fun _ => ⟨_, rfl, fun hx0 hx1 hy0 hy1 => ?_, fun hx0 hx1 hy0 hy1 => ?_, fun hout => ?_⟩,
    fun _ => ⟨_, rfl, rfl, read_mapWrite _ _ _ _⟩⟩
  · rw [argInt_eq, argInt_eq, gfxRead_outside hout]
    rfl
  · rw [argInt_eq, argInt_eq, u32_setWidth_nibble, gfxRead_inside hin, toNat_nibbleOf_even (by omega)]
  · rw [argInt_eq, argInt_eq, u32_setWidth_nibble, gfxRead_inside hin, toNat_nibbleOf_odd (by omega)]
  · rw [argInt_eq, argInt_eq, u32_setWidth_byte, mapRead_low (by omega) hy1]
  · rw [argInt_eq, argInt_eq, u32_setWidth_byte, mapRead_high (by omega) hy0]
  · rw [argInt_eq, argInt_eq, mapRead_outside hout]
    rfl

/-! ### Sprite flags (R248, R249, R250, R251) -/

theorem boolWord_eq_zero_or_one (b : Bool) : boolWord b = 0 ∨ boolWord b = 1 := by
  cases b
  · exact .inl rfl
  · exact .inr rfl

theorem boolWord_eq_one_iff (b : Bool) : boolWord b = 1 ↔ b = true := by
  cases b <;> decide

theorem flagAddr_eq_toNat {n : Int} (h : isSprite n) : flagAddr n.toNat = (0x3000 + n).toNat := by
  unfold flagAddr
  omega

/-- A write that may be dropped, as a memory. -/
theorem setMem_or_self (p : Prop) [Decidable p] (m : Memory) (s : State) :
    (if p then s.setMem m else s) = s.setMem (if p then m else s.mem) := by
  split <;> rfl

theorem eq_flagAddr_iff {n : Int} (h : isSprite n) (a : Nat) : a = flagAddr n.toNat ↔ (a : Int) = 0x3000 + n := by
  unfold flagAddr
  omega

/-- Setting bit `f` leaves the other bits as they are (R251). -/
theorem getLsbD_setBit (b : Byte) (f : Nat) (v : Bool) {k : Nat} (hk : k < 8) :
    (setBit b f v).getLsbD k = if k = f then v else b.getLsbD k := by
  have hone : ((1 : Byte) <<< f).getLsbD k = decide (k = f) := by
    show (BitVec.twoPow 8 f).getLsbD k = _
    rw [BitVec.getLsbD_twoPow, decide_eq_decide.2 (eq_comm (a := f)), Bool.and_eq_right_iff_imp]
    intro h
    rw [← of_decide_eq_true h, decide_eq_true hk]
  cases v with
  | true =>
    show (b ||| (1 : Byte) <<< f).getLsbD k = _
    rw [BitVec.getLsbD_or, hone]
    split <;> simp [*]
  | false =>
    show (b &&& ~~~((1 : Byte) <<< f)).getLsbD k = _
    rw [BitVec.getLsbD_and, BitVec.getLsbD_not, hone]
    split <;> simp [*]

theorem exec_fset (s : State) : exec .fset s = .next (s.setMem
    (if isSprite (argInt 0 s) then s.mem.write (flagAddr (argInt 0 s).toNat) (byteValue (readArg 1 s)) else s.mem)) :=
  congrArg _ (setMem_or_self _ _ s)

theorem exec_fsetb (s : State) : exec .fsetb s = .next (s.setMem
    (if isSprite (argInt 0 s) ∧ isFlagBit (argInt 1 s) then
      s.mem.write (flagAddr (argInt 0 s).toNat)
        (setBit (s.mem.read (flagAddr (argInt 0 s).toNat)) (argInt 1 s).toNat (boolOf (readArg 2 s)))
    else s.mem)) :=
  congrArg _ (setMem_or_self _ _ s)

/-- Settles O56: the reads give the flag byte or 0, the writes are `Memory.read_write_if` at the flag byte's address, and
`getLsbD_setBit` says which bits FSETB keeps. -/
theorem spriteFlags : Obligations.SpriteFlags := by
  refine ⟨by decide, by decide, by decide, by decide, ?_⟩
  rintro s _ _ rfl rfl
  refine ⟨fun _ => ⟨_, rfl, fun hn0 hn1 => ?_, fun hout => if_neg hout⟩,
    fun _ => ⟨_, rfl, boolWord_eq_zero_or_one _, ?_⟩,
    fun _ => ⟨_, exec_fset s, rfl, fun a => ?_⟩, fun _ => ⟨_, exec_fsetb s, rfl, fun a b hb => ?_⟩⟩
  · have hs : isSprite (argInt 0 s) := ⟨hn0, hn1⟩
    rw [if_pos hs, u32_setWidth_byte, flagAddr_eq_toNat hs, argInt_eq]
  · rw [boolWord_eq_one_iff, decide_eq_true_iff, argInt_eq, argInt_eq, and_assoc, and_assoc]
    refine and_congr_right fun hn0 => and_congr_right fun hn1 => ?_
    rw [flagAddr_eq_toNat ⟨hn0, hn1⟩]
  · exact (Memory.read_write_if (eq_flagAddr_iff · a) _ _).trans (if_congr and_assoc rfl rfl)
  · rw [State.setMem_mem, Memory.read_write_if fun h => eq_flagAddr_iff h.1 a, argInt_eq, argInt_eq]
    by_cases ha : (isSprite (intOf (readArg 0 s)) ∧ isFlagBit (intOf (readArg 1 s))) ∧
        (a : Int) = 0x3000 + intOf (readArg 0 s)
    · obtain ⟨⟨hs, hf⟩, haddr⟩ := ha
      rw [if_pos ⟨⟨hs, hf⟩, haddr⟩, getLsbD_setBit _ _ _ hb, ← (eq_flagAddr_iff hs a).2 haddr]
      exact if_congr (by omega) (boolOf_eq_decide _) rfl
    · rw [if_neg ha, if_neg (by omega)]

end Sys2Proof.Machine
end

section
/-! PROOFS. The text commands (45_text.md rules R270 to R277): the advances, the length check, and the draws of PRINT and
PRINTC, the second between the scroll and the move of the cursor. -/

namespace Sys2Proof.Machine

/-! ### The advances (R271) -/

/-- The case of R271 each range of bytes falls under, whatever the two OPEN advances. -/
theorem advance_cases (advCtrl adv9A : Nat) (b : Byte) :
    (0x20 ≤ b.toNat → b.toNat ≤ 0x99 → advance advCtrl adv9A b = 4) ∧
    (0x9a ≤ b.toNat → b.toNat ≤ 0x9f → advance advCtrl adv9A b = adv9A) ∧
    (0xa0 ≤ b.toNat → advance advCtrl adv9A b = 8) ∧ (b.toNat ≤ 0x1f → advance advCtrl adv9A b = advCtrl) := by
  unfold advance
  refine ⟨fun hlo hhi => ?_, fun hlo hhi => ?_, fun hlo => ?_, fun hhi => ?_⟩
  · rw [if_neg (by omega), if_pos (by omega)]
  · rw [if_neg (by omega), if_neg (by omega), if_pos (by omega)]
  · rw [if_neg (by omega), if_neg (by omega), if_neg (by omega)]
  · rw [if_pos (by omega)]

/-- The OPEN advances are among those R8 lists. -/
theorem openAdvances_listed : ∀ (k : Fin 3) (k' : Fin 2), 4 * k.val ∈ [0, 4, 8] ∧ 4 + 4 * k'.val ∈ [4, 8] := by decide

/-! ### The length (R270) -/

theorem exec_print {s : State} (h : isTextLength (argInt 0 s)) (c : Bool) :
    exec (.print c) s = drawWith (hasPen (.print c)) 3
      (textPoints Config.font adv (textBytes (argInt 0 s).toNat s) (argX 1 s) (argY 2 s)) s := if_pos h

theorem exec_print_badLength {s : State} (h : ¬isTextLength (argInt 0 s)) (c : Bool) :
    exec (.print c) s = .next (s.raiseFault .badOperand 0) := if_neg h

theorem exec_printc_badLength {s : State} (h : ¬isTextLength (argInt 0 s)) (c : Bool) :
    exec (.printc c) s = .next (s.raiseFault .badOperand 0) := if_neg h

theorem not_isTextLength {l : Int} (h : l < 0 ∨ 256 < l) : ¬isTextLength l := by
  rintro ⟨hlo, hhi⟩
  have hhi : l ≤ 256 := hhi
  omega

/-! ### PRINT (R275) -/

/-- Settles O57: the advances by their ranges, and with a length in range PRINT is a draw over the points of
`mem_textPoints`. -/
theorem printDraws : Obligations.PrintDraws := by
  obtain ⟨hctrl, h9A⟩ := openAdvances_listed Config.advCtrlUnits Config.adv9AExtraUnits
  refine ⟨⟨_, hctrl, _, h9A, fun b => ?_⟩, ?_⟩
  · obtain ⟨hplain, hnine, hwide, hcontrol⟩ := advance_cases (4 * Config.advCtrlUnits.val)
      (4 + 4 * Config.adv9AExtraUnits.val) b
    exact ⟨hplain, hnine, hwide, fun hb _ => hcontrol hb⟩
  · rintro c s _ rfl
    refine ⟨by cases c <;> rfl, fun _ hlo hhi => ?_, fun _ hout => exec_print_badLength (not_isTextLength hout) c⟩
    exact draws_of_drawWith (exec_print ⟨hlo, hhi⟩ c) fun _ _ => mem_textPoints

/-! ### PRINTC (R276, R277) -/

theorem s32_fixOf_six : s32 (fixOf 6) = 6 * 65536 := by decide

/-- A scroll moves the cursor and the screen up six rows, the rows that come free become 0, and nothing outside SCREEN
changes. -/
theorem scrollIfLow_moves {s : State} (h : 116 * 65536 < s32 s.cursorY) :
    Wraps (scrollIfLow s).cursorY (s32 s.cursorY - 6 * 65536) ∧
    (∀ a, 0x6000 ≤ a → a ≤ 0x7e7f → (scrollIfLow s).mem.read a = s.mem.read (a + 0x180)) ∧
    (∀ a, 0x7e80 ≤ a → a ≤ 0x7fff → (scrollIfLow s).mem.read a = 0) ∧
    ∀ a, ¬(0x6000 ≤ a ∧ a < 0x8000) → (scrollIfLow s).mem.read a = s.mem.read a := by
  refine ⟨?_, fun a hlo hhi => ?_, fun a hlo hhi => ?_, fun a ha => scrollIfLow_read ha s⟩
  · rw [scrollIfLow_of_low h, s32_fixOf_six]
    exact wraps_wrap32 _
  · rw [scrollIfLow_of_low h, read_scroll6, if_pos (by omega)]
  · rw [scrollIfLow_of_low h, read_scroll6, if_neg (by omega), if_pos (by omega)]

/-- Settles O58: with a length in range PRINTC is `execPrintc_eq`, a draw over the points of `mem_textPoints` after the scroll
of `scrollIfLow_moves`. -/
theorem printcDraws : Obligations.PrintcDraws := by
  rintro c s _ _ rfl rfl
  refine ⟨by cases c <;> rfl, fun _ hlo hhi => ?_, fun _ hout => exec_printc_badLength (not_isTextLength hout) c⟩
  refine ⟨_, (scrollIfLow s).mem, (scrollIfLow s).cursorY, execPrintc_eq ⟨hlo, hhi⟩ c, rfl, rfl, fun hhigh => ?_,
    scrollIfLow_moves, (drawPoints_drawn _ _ _ _).congr fun _ _ => mem_textPoints, ?_⟩
  · rw [scrollIfLow_of_high hhigh]
    exact ⟨rfl, rfl⟩
  · rw [s32_fixOf_six]
    exact wraps_wrap32 _

end Sys2Proof.Machine
end

section
/-! PROOFS. The audio commands (46_audio.md rules R290 to R292): the amplitudes of the waveform catalog, what WAVE returns in
terms of its two operands, and the one record CHSET writes. -/

namespace Sys2Proof.Machine

/-- An operand in range names an entry of its table. -/
theorem exists_fin_of_range {n : Nat} {x : Int} (hlo : 0 ≤ x) (hhi : x < n) : ∃ i : Fin n, x = i.val :=
  ⟨⟨x.toNat, by omega⟩, (Int.toNat_of_nonneg hlo).symm⟩

/-! ### The waveform catalog (R290) -/

theorem s32_openWave_bounds (f : Config.OpenWave) (p : BitVec 16) :
    -65536 ≤ s32 (openWave f p) ∧ s32 (openWave f p) ≤ 65536 := by
  have hlevel := (Config.openWaveLevel f p).isLt
  rw [openWave, s32_wrap32 (by omega) (by omega)]
  omega

theorem s32_wave_saw (p : BitVec 16) : s32 (wave 2 p) = 2 * p.toNat - 65536 := by
  have hp := p.isLt
  exact s32_wrap32 (by omega) (by omega)

/-- The square is high on the first half of the phase exactly when `SQUARE_HIGH_FIRST` says so. -/
theorem s32_wave_square (p : BitVec 16) :
    s32 (wave 3 p) = if (p.toNat < 0x8000 ↔ Config.squareHighFirst = true) then 65536 else -65536 := by
  have hwave : wave 3 p = if (p.toNat < 0x8000 ↔ Config.squareHighFirst = true) then fixOf 1 else fixOf (-1) :=
    if_congr (by rw [beq_iff_eq, Bool.eq_iff_iff, decide_eq_true_iff]) rfl rfl
  rw [hwave, apply_ite s32]
  exact if_congr Iff.rfl (by decide) (by decide)

theorem s32_wave_bounds (id : Fin 8) (p : BitVec 16) : -65536 ≤ s32 (wave id p) ∧ s32 (wave id p) ≤ 65536 := by
  match id with
  | 0 | 1 | 4 | 5 | 6 | 7 => exact s32_openWave_bounds _ p
  | 2 =>
    have hp := p.isLt
    rw [s32_wave_saw]
    omega
  | 3 =>
    rw [s32_wave_square]
    split <;> decide

/-! ### WAVE (R291) -/

theorem toNat_phase (v : Word) : (v.extractLsb' 0 16).toNat = u32 v % 65536 := BitVec.extractLsb'_toNat 0 16 v

/-- WAVE with the operands' values named: an id of the catalog and a 16-bit phase. -/
theorem exec_wave {s : State} {id : Fin 8} {p : BitVec 16} (hid : intOf (readArg 0 s) = id.val)
    (hp : u32 (readArg 1 s) % 65536 = p.toNat) : exec .wave s = .next (s.setResult (wave id p)) := by
  have hid : argInt 0 s = id.val := hid
  have hrange : 0 ≤ argInt 0 s ∧ argInt 0 s ≤ 7 := by omega
  have hidx : (⟨(argInt 0 s).toNat, by omega⟩ : Fin 8) = id := Fin.ext (by simp only [hid, Int.toNat_natCast])
  have hphase : (readArg 1 s).extractLsb' 0 16 = p := BitVec.eq_of_toNat_eq ((toNat_phase _).trans hp)
  rw [← hidx, ← hphase]
  exact dif_pos hrange

theorem exec_wave_badId {s : State} (h : intOf (readArg 0 s) < 0 ∨ 7 < intOf (readArg 0 s)) :
    exec .wave s = .next (s.raiseFault .badOperand 0) :=
  dif_neg (by rw [argInt_eq]; omega)

/-- Settles O59: with an id of the catalog WAVE is `exec_wave`, whose amplitude names no state, and the catalog gives its
bounds and its two closed formulas. -/
theorem waveReturns : Obligations.WaveReturns := by
  refine ⟨by decide, ?_⟩
  rintro s _ _ _ rfl rfl
  refine ⟨fun hlo hhi => ?_, exec_wave_badId⟩
  obtain ⟨id, hid⟩ := exists_fin_of_range (n := 8) hlo (by omega)
  have hp := (toNat_phase (readArg 1 s)).symm
  obtain ⟨hmin, hmax⟩ := s32_wave_bounds id ((readArg 1 s).extractLsb' 0 16)
  refine ⟨_, exec_wave hid hp, hmin, hmax, fun hsaw => ?_, fun hsquare => ?_,
    fun s' _ hid' hp' => exec_wave (hid'.trans hid) (hp'.trans hp)⟩
  · obtain rfl : id = 2 := Fin.ext (by omega)
    rw [hp]
    exact s32_wave_saw _
  · obtain rfl : id = 3 := Fin.ext (by omega)
    rw [hp]
    exact s32_wave_square _

/-! ### CHSET (R292) -/

theorem exec_chset {s : State} {k : Fin 4} (hk : intOf (readArg 0 s) = k.val) :
    exec .chset s =
      .next { s with channels := s.channels.set k (channelOf (intOf (readArg 1 s)) (intOf (readArg 2 s))) } := by
  have hk : argInt 0 s = k.val := hk
  have hrange : 0 ≤ argInt 0 s ∧ argInt 0 s ≤ 3 := by omega
  have hidx : (⟨(argInt 0 s).toNat, by omega⟩ : Fin 4) = k := Fin.ext (by simp only [hk, Int.toNat_natCast])
  rw [← hidx]
  exact dif_pos hrange

theorem exec_chset_badChannel {s : State} (h : intOf (readArg 0 s) < 0 ∨ 3 < intOf (readArg 0 s)) :
    exec .chset s = .next (s.raiseFault .badOperand 0) :=
  dif_neg (by rw [argInt_eq]; omega)

/-- Settles O60: with a channel in range CHSET is `exec_chset`, the write of one element of the channel vector, and the two
fields of a `channelOf` are the operand's integer value and its residue. -/
theorem chsetWrites : Obligations.ChsetWrites := by
  refine ⟨by decide, ?_⟩
  rintro s _ _ rfl
  refine ⟨fun hlo hhi => ?_, exec_chset_badChannel⟩
  obtain ⟨k, hk⟩ := exists_fin_of_range (n := 4) hlo (by omega)
  refine ⟨_, exec_chset hk, rfl, fun j => ⟨fun hother => ?_, fun hnamed => ?_⟩⟩
  · exact Vector.getElem_set_ne k.isLt j.isLt (by omega)
  · obtain rfl : j = k := Fin.ext (by omega)
    rw [Fin.getElem_fin, Vector.getElem_set_self]
    exact ⟨toInt_ofInt_intOf (readArg 1 s), toNat_ofInt_cast 16 (intOf (readArg 2 s))⟩

end Sys2Proof.Machine
end

section
/-! PROOFS. Faults (60_exceptions.md rules R300 to R306) and reset (70_reset_and_hazards.md rule R330): what a command does to
the fault record, which command raises which fault and when, and how long a record stays. -/

namespace Sys2Proof.Machine

/-! ### What a command does to the record (R301, R302) -/

/-- A command leaves the fault record alone or makes one and does nothing else. -/
theorem Effect.keeps_record_or_faults {s t : State} {i : Instr} (e : Effect s i t) :
    (t.fault = s.fault ∧ t.faddr = s.faddr) ∨ ∃ k a, t = s.raiseFault k a := by
  cases e with
  | faulted k a => exact .inr ⟨k, a, rfl⟩
  | _ => exact .inl ⟨rfl, rfl⟩

/-- Settles O15: with no fault before it, a command that ends with one has only made the record. -/
theorem faultedCommandOnlyRecords : Obligations.FaultedCommandOnlyRecords := by
  intro i s t hs h hfault
  rcases (effect_of_exec h).keeps_record_or_faults with ⟨hkept, -⟩ | ⟨k, a, rfl⟩
  · exact absurd (hkept.trans hs) hfault
  · rfl

/-- Settles O17: `exec_effect` gives the next state. -/
theorem everyCommandCompletes : Obligations.EveryCommandCompletes := by
  intro i s _
  obtain ⟨t, h, -⟩ := exec_effect i s
  exact ⟨t, h⟩

/-! ### How long a record stays (R301, R33) -/

/-- With a fault recorded, only a reset and a STATUS write with bit 0 set touch the record. -/
theorem StepEffect.keeps_record {s t : State} (e : StepEffect s t) (hs : s.fault ≠ none) (hr : ¬ResetNext s)
    (hstatus : ∀ w rest, s.inbox = .write 32 0x028 w :: rest → w.getLsbD 0 = false) :
    t.fault = s.fault ∧ t.faddr = s.faddr := by
  by_contra hc
  rcases e.fault_writer hr (not_and_or.1 hc) with ⟨hnone, -⟩ | ⟨w, rest, hin, hset⟩
  · exact hs hnone
  · exact Bool.eq_false_iff.1 (hstatus w rest hin) hset

theorem stepWrite_status_clears {w : Word} (hw : w.getLsbD 0 = true) (s : State) :
    stepWrite 0x028 w s = .next s.clearFault := by
  rw [stepWrite_eq, hostWrite_status, writeStatus_of_set hw]

/-- Settles O14: a record outlives every step that is no reset and no clearing STATUS write (`StepEffect.keeps_record`), and
every command. -/
theorem faultRecordIsSticky : Obligations.FaultRecordIsSticky := by
  refine ⟨fun k a s => ⟨_, rfl, rfl⟩, fun s t f hstep hf hr hstatus => ?_,
    fun s w hw => ⟨stepWrite_status_clears hw s, rfl⟩, fun i s t h hs => ?_⟩
  · have hkept := (step_effect hstep).keeps_record (by simp [hf]) hr hstatus
    rwa [hf] at hkept
  · rcases (effect_of_exec h).keeps_record_or_faults with ⟨hkept, -⟩ | ⟨k, a, rfl⟩
    · rwa [hkept]
    · simp

/-! ### Which command faults, and when (R300, R34) -/

theorem range_of_check_false {lo hi x : Int} (h : (decide (lo ≤ x) && decide (x ≤ hi)) = false) : x < lo ∨ hi < x := by
  simpa only [Bool.and_eq_false_iff, decide_eq_false_iff_not, not_le] using h

theorem range_of_check_true {lo hi x : Int} (h : (decide (lo ≤ x) && decide (x ≤ hi)) = true) : lo ≤ x ∧ x ≤ hi := by
  simpa only [Bool.and_eq_true, decide_eq_true_eq] using h

/-- An operand outside its range makes BAD_OPERAND the command's only effect. -/
theorem exec_of_operand_outOfRange {i : Instr} {s : State} (hr : operandInRange i s = false) :
    exec i s = .next (s.raiseFault .badOperand 0) := by
  cases i with
  | wave => exact exec_wave_badId (range_of_check_false hr)
  | chset => exact exec_chset_badChannel (range_of_check_false hr)
  | print c => exact exec_print_badLength (not_isTextLength (range_of_check_false hr)) c
  | printc c => exact exec_printc_badLength (not_isTextLength (range_of_check_false hr)) c
  | _ => cases hr

/-- The commands that store a run of bytes. -/
def runCommands : List Instr := [.poke, .poke4, .memcpy, .memset, .reload]

theorem exec_eq_storeRun_destination {i : Instr} (hi : i ∈ runCommands) (s : State) :
    ∃ f, exec i s = storeRun (destination i s).1 (destination i s).2 f s := by
  simp only [runCommands, List.mem_cons, List.not_mem_nil, or_false] at hi
  rcases hi with rfl | rfl | rfl | rfl | rfl
  · exact ⟨_, rfl⟩
  · exact ⟨_, rfl⟩
  · exact ⟨_, rfl⟩
  · exact ⟨_, rfl⟩
  · exact ⟨_, rfl⟩

theorem destination_of_not_run {i : Instr} (hi : i ∉ runCommands) (s : State) : destination i s = (0, 0) := by
  cases i with
  | poke | poke4 | memcpy | memset | reload => simp [runCommands] at hi
  | _ => rfl

theorem destination_lt (i : Instr) (s : State) : (destination i s).1 < 0x10000 := by
  cases i with
  | poke | poke4 | memcpy | memset | reload => exact addrOf_lt _
  | _ => exact Nat.zero_lt_succ _

/-- A command that stores no run, with its operand in range, does not fault. -/
theorem fault_of_operandInRange {i : Instr} {s t : State} (hi : i ∉ runCommands) (hr : operandInRange i s = true)
    (h : exec i s = .next t) : t.fault = s.fault := by
  cases i with
  | poke | poke4 | memcpy | memset | reload => simp [runCommands] at hi
  | pset | hline | vline | line | rect | rectfill | circ | circfill | cls | spr | sspr | map | print | printc =>
    exact draw_fault_of_operandInRange rfl hr h
  | wave =>
    obtain ⟨hlo, hhi⟩ := range_of_check_true hr
    obtain ⟨id, hid⟩ := exists_fin_of_range (n := 8) hlo (by omega)
    cases (exec_wave hid (toNat_phase _).symm).symm.trans h
    rfl
  | chset =>
    obtain ⟨hlo, hhi⟩ := range_of_check_true hr
    obtain ⟨k, hk⟩ := exists_fin_of_range (n := 4) hlo (by omega)
    cases (exec_chset hk).symm.trans h
    rfl
  | pal =>
    by_cases hp : intOf (readArg 2 s) = 1
    · cases (exec_pal_screen hp).symm.trans h
      rfl
    · cases (exec_pal_draw hp).symm.trans h
      rfl
  | fset =>
    cases (exec_fset s).symm.trans h
    rfl
  | fsetb =>
    cases (exec_fsetb s).symm.trans h
    rfl
  | _ =>
    cases h
    rfl

/-- From `s` to `t` the record is made exactly if one of the `n` bytes from `d` on is at or above 0x8000, and then names the
lowest such byte. -/
def RecordsOverrun (d n : Nat) (s t : State) : Prop :=
  ((∀ a, d ≤ a → a < d + n → a < 0x8000) → t.fault = s.fault ∧ t.faddr = s.faddr) ∧
    ∀ a, d ≤ a → a < d + n → 0x8000 ≤ a → (∀ b, d ≤ b → b < a → b < 0x8000) →
      t.fault = some .badMemoryAccess ∧ t.faddr.toNat = a

theorem storeRun_recordsOverrun {d n : Nat} (hd : d < 0x10000) (f : Nat → Byte) (s : State) :
    ∃ t, storeRun d n f s = .next t ∧ RecordsOverrun d n s t := by
  by_cases hfits : n = 0 ∨ d + n ≤ 0x8000
  · exact ⟨_, storeRun_ok hfits f s, fun _ => ⟨rfl, rfl⟩, fun a _ _ _ _ => by omega⟩
  · refine ⟨_, storeRun_fault (by omega) (by omega) f s, fun hall => ?_, fun a hlo hhi hout hlowest => ⟨rfl, ?_⟩⟩
    · have := hall (max d 0x8000) (by omega) (by omega)
      omega
    · have hmin : max d 0x8000 = a := by
        by_contra hne
        have := hlowest (max d 0x8000) (by omega) (by omega)
        omega
      rw [State.raiseFault_faddr, BitVec.toNat_ofNat, hmin]
      omega

/-- With its operand in range a command faults exactly for its destination. -/
theorem exec_recordsOverrun {i : Instr} {s : State} (hs : s.fault = none) (hr : operandInRange i s = true) :
    ∃ t, exec i s = .next t ∧ RecordsOverrun (destination i s).1 (destination i s).2 s t := by
  by_cases hi : i ∈ runCommands
  · obtain ⟨f, hf⟩ := exec_eq_storeRun_destination hi s
    rw [hf]
    exact storeRun_recordsOverrun (destination_lt i s) f s
  · obtain ⟨t, h, e⟩ := exec_effect i s
    refine ⟨t, h, fun _ => ?_, fun a hlo hhi => ?_⟩
    · rcases e.keeps_record_or_faults with hkept | ⟨k, a, rfl⟩
      · exact hkept
      · have hfault := (fault_of_operandInRange hi hr h).trans hs
        simp at hfault
    · rw [destination_of_not_run hi] at hlo hhi
      omega

/-- Settles O16: out of range is `exec_of_operand_outOfRange`, in range `exec_recordsOverrun`, a word that does not decode
`issue_illegal`, and the codes are in `statusWord_fields`. -/
theorem faultCauses : Obligations.FaultCauses := by
  refine ⟨fun i s hs _ => ?_, fun w s hs hw => ?_, fun s => ?_⟩
  · cases hr : operandInRange i s with
    | false => exact ⟨_, exec_of_operand_outOfRange hr, fun _ => ⟨rfl, rfl⟩, nofun, nofun⟩
    | true =>
      obtain ⟨t, h, hfits, hoverrun⟩ := exec_recordsOverrun hs hr
      rw [hs] at hfits
      exact ⟨t, h, nofun, fun _ => hfits, fun a _ => hoverrun a⟩
  · rw [stepWrite_eq, hostWrite_cmd, issue_illegal hs hw]
    exact ⟨_, rfl, rfl, rfl⟩
  · obtain ⟨-, -, -, hmemory, hillegal, hoperand⟩ := statusWord_fields s
    exact ⟨fun h => (hmemory h).2, fun h => (hillegal h).2, fun h => (hoperand h).2⟩

/-! ### Reset (R330) -/

/-- Settles O13: serving the host's reset is `State.afterReset`. -/
theorem resetFromEveryState : Obligations.ResetFromEveryState := fun s =>
  step_withAccesses .reset s

end Sys2Proof.Machine
end

section
/-! PROOFS. The register map (10_state.md rules R22, R23, R35, R39 and R47), accesses while a fault is recorded
(60_exceptions.md rule R303) and the reset table (10_state.md rule R50). -/

namespace Sys2Proof.Machine

/-! ### ARG and TBUF after a write (R22, R47) -/

theorem readArg_writeArg_same (i : Fin 8) (w : Word) (s : State) : readArg i (writeArg i w s) = w :=
  Vector.getElem_set_self i.isLt

theorem argWritten_writeArg_same (i : Fin 8) (w : Word) (s : State) : (writeArg i w s).argWritten[i] = true :=
  Vector.getElem_set_self i.isLt

theorem readArg_writeArg (i k : Fin 8) (w : Word) (s : State) :
    readArg k (writeArg i w s) = if k = i then w else readArg k s := by
  split
  · rename_i h
    rw [h, readArg_writeArg_same]
  · rename_i h
    exact readArg_writeArg_other h w s

theorem argWritten_writeArg (i k : Fin 8) (w : Word) (s : State) :
    (writeArg i w s).argWritten[k] = if k = i then true else s.argWritten[k] := by
  split
  · rename_i h
    rw [h, argWritten_writeArg_same]
  · rename_i h
    exact argWritten_writeArg_other h w s

/-- Element `k` of four written at `4j` to `4j + 3` is the one its place in the word names. -/
theorem getElem_setWord_same {α : Type} (v : Vector α 256) (f : Nat → α) {j : Fin 64} {k : Fin 256}
    (h : k.val / 4 = j.val) :
    ((((v.set (4 * j.val) (f 0) (by omega)).set (4 * j.val + 1) (f 1) (by omega)).set (4 * j.val + 2) (f 2) (by omega)).set
      (4 * j.val + 3) (f 3) (by omega))[k] = f (k.val % 4) := by
  simp only [Fin.getElem_fin, Vector.getElem_set]
  have hplace : k.val = 4 * j.val + k.val % 4 := by omega
  have hlt : k.val % 4 < 4 := by omega
  generalize k.val % 4 = r at hplace hlt
  match r, hlt with
  | 0, _ => simp [hplace]
  | 1, _ => simp [hplace]
  | 2, _ => simp [hplace]
  | 3, _ => simp [hplace]

theorem tbuf_writeTbuf (j : Fin 64) (k : Fin 256) (w : Word) (s : State) :
    (writeTbuf j w s).tbuf[k] = if k.val / 4 = j.val then byteOf w (k.val % 4) else s.tbuf[k] := by
  split
  · rename_i h
    exact getElem_setWord_same s.tbuf (byteOf w) h
  · rename_i h
    exact tbuf_writeTbuf_other h w s

theorem tbufWritten_writeTbuf (j : Fin 64) (k : Fin 256) (w : Word) (s : State) :
    (writeTbuf j w s).tbufWritten[k] = if k.val / 4 = j.val then true else s.tbufWritten[k] := by
  split
  · rename_i h
    exact getElem_setWord_same s.tbufWritten (fun _ => true) h
  · rename_i h
    exact tbufWritten_writeTbuf_other h w s

/-- The bytes of word `j` are `4j` to `4j + 3`. -/
theorem forall_byte_of_word {j : Fin 64} {P : Fin 256 → Prop} : (∀ k : Fin 256, k.val / 4 = j.val → P k) ↔
    P ⟨4 * j.val, by omega⟩ ∧ P ⟨4 * j.val + 1, by omega⟩ ∧ P ⟨4 * j.val + 2, by omega⟩ ∧ P ⟨4 * j.val + 3, by omega⟩ := by
  constructor
  · intro h
    refine ⟨h _ ?_, h _ ?_, h _ ?_, h _ ?_⟩ <;> simp only <;> omega
  · rintro ⟨h0, h1, h2, h3⟩ ⟨k, hk⟩ hj
    simp only at hj
    obtain rfl | rfl | rfl | rfl : k = 4 * j.val ∨ k = 4 * j.val + 1 ∨ k = 4 * j.val + 2 ∨ k = 4 * j.val + 3 := by omega
    · exact h0
    · exact h1
    · exact h2
    · exact h3

/-- A word is its four bytes (R61). -/
theorem wordOf_byteOf (w : Word) : wordOf (byteOf w 0) (byteOf w 1) (byteOf w 2) (byteOf w 3) = w := by
  unfold wordOf byteOf
  rw [BitVec.extractLsb'_append_extractLsb'_eq_extractLsb' (by rfl),
    BitVec.extractLsb'_append_extractLsb'_eq_extractLsb' (by rfl),
    BitVec.extractLsb'_append_extractLsb'_eq_extractLsb' (by rfl)]
  exact BitVec.extractLsb'_eq_self

/-- Byte `k` of TBUF stands in its word little-endian (R47). -/
theorem extractLsb'_tbufWord (t : Vector Byte 256) {j : Fin 64} {k : Fin 256} (h : k.val / 4 = j.val) :
    (tbufWord t j).extractLsb' (8 * (k.val % 4)) 8 = t[k] := by
  have hk : 4 * j.val + k.val % 4 = k.val := by omega
  have hbyte := extractLsb'_wordOf (fun r => t[4 * j.val + r]?.getD 0) (k := k.val % 4) (by omega)
  simp only [hk, Nat.add_zero, Vector.getElem?_eq_getElem (show 4 * j.val < 256 by omega),
    Vector.getElem?_eq_getElem (show 4 * j.val + 1 < 256 by omega),
    Vector.getElem?_eq_getElem (show 4 * j.val + 2 < 256 by omega),
    Vector.getElem?_eq_getElem (show 4 * j.val + 3 < 256 by omega), Vector.getElem?_eq_getElem k.isLt,
    Option.getD_some] at hbyte
  exact hbyte

theorem tbufWord_congr {t t' : Vector Byte 256} {j : Fin 64} (h : ∀ k : Fin 256, k.val / 4 = j.val → t[k] = t'[k]) :
    tbufWord t j = tbufWord t' j := by
  obtain ⟨h0, h1, h2, h3⟩ := forall_byte_of_word.1 h
  simp only [Fin.getElem_fin] at h0 h1 h2 h3
  unfold tbufWord
  rw [h0, h1, h2, h3]

theorem tbufWord_writeTbuf (j : Fin 64) (w : Word) (s : State) : tbufWord (writeTbuf j w s).tbuf j = w := by
  obtain ⟨h0, h1, h2, h3⟩ := forall_byte_of_word.1 fun k (h : k.val / 4 = j.val) =>
    (tbuf_writeTbuf j k w s).trans (if_pos h)
  simp only [Fin.getElem_fin] at h0 h1 h2 h3
  unfold tbufWord
  rw [h0, h1, h2, h3]
  simp only [Nat.mul_mod_right, Nat.mul_add_mod]
  exact wordOf_byteOf w

/-! ### Reads of registers not written since reset (R22, R23, R47) -/

theorem readsUnwritten_offset_iff {r : Register} (hr : r ≠ .cmd) (s : State) :
    readsUnwritten (.read 32 r.offset) s = true ↔ r.holdsValue s = false := by
  rw [readsUnwritten_read hr, Bool.not_eq_true']

/-- A TBUF word holds a value when all its bytes do. -/
theorem holdsValue_tbuf_iff (j : Fin 64) (s : State) :
    (Register.tbuf j).holdsValue s = true ↔ ∀ k : Fin 256, k.val / 4 = j.val → s.tbufWritten[k] = true := by
  rw [forall_byte_of_word]
  simp only [Register.holdsValue, Bool.and_eq_true, and_assoc, Fin.getElem_fin]

theorem readsUnwritten_tbuf_iff (j : Fin 64) (s : State) : readsUnwritten (.read 32 (0x100 + 4 * j.val)) s = true ↔
    ∃ k : Fin 256, k.val / 4 = j.val ∧ s.tbufWritten[k] = false := by
  refine (readsUnwritten_offset_iff (r := .tbuf j) (by simp) s).trans ?_
  rw [← Bool.not_eq_true, holdsValue_tbuf_iff]
  simp only [not_forall, Bool.not_eq_true, exists_prop]

/-! ### The offsets (R39) -/

theorem offset_injective : Function.Injective Register.offset := by
  intro r r' h
  have hat := registerAt_offset r
  rw [h, registerAt_offset] at hat
  exact (Option.some.inj hat).symm

/-- Every listed offset is a register's: its range of the map names the register. -/
theorem exists_offset_of_listed {o : Nat} (ho : o % 4 = 0) (h : listedOffset o = true) : ∃ r : Register, r.offset = o := by
  simp only [listedOffset, Bool.or_eq_true, Bool.and_eq_true, decide_eq_true_eq] at h
  rcases h with (((hlow | hdraw) | hpalette) | hchannel) | htext
  · by_cases harg : o < 0x020
    · exact ⟨.arg ⟨o / 4, by omega⟩, by simp only [Register.offset]; omega⟩
    · obtain rfl | rfl | rfl | rfl : o = 0x020 ∨ o = 0x024 ∨ o = 0x028 ∨ o = 0x02c := by omega
      · exact ⟨.cmd, rfl⟩
      · exact ⟨.result, rfl⟩
      · exact ⟨.status, rfl⟩
      · exact ⟨.faddr, rfl⟩
  · obtain rfl | rfl | rfl | rfl | rfl | rfl | rfl :
        o = 0x040 ∨ o = 0x044 ∨ o = 0x048 ∨ o = 0x04c ∨ o = 0x050 ∨ o = 0x054 ∨ o = 0x058 := by omega
    · exact ⟨.pen, rfl⟩
    · exact ⟨.fillp, rfl⟩
    · exact ⟨.clip, rfl⟩
    · exact ⟨.camera, rfl⟩
    · exact ⟨.cursorX, rfl⟩
    · exact ⟨.cursorY, rfl⟩
    · exact ⟨.transp, rfl⟩
  · obtain rfl | rfl | rfl | rfl : o = 0x060 ∨ o = 0x064 ∨ o = 0x068 ∨ o = 0x06c := by omega
    · exact ⟨.dpalLo, rfl⟩
    · exact ⟨.dpalHi, rfl⟩
    · exact ⟨.spalLo, rfl⟩
    · exact ⟨.spalHi, rfl⟩
  · exact ⟨.channel ⟨(o - 0x080) / 4, by omega⟩, by simp only [Register.offset]; omega⟩
  · exact ⟨.tbuf ⟨(o - 0x100) / 4, by omega⟩, by simp only [Register.offset]; omega⟩

/-! ### The statements -/

/-- Settles O6: a write is `writeTbuf`, byte by byte; a read returns the word whose bytes `extractLsb'_tbufWord` gives. -/
theorem tbufWords : Obligations.TbufWords := by
  intro j w s
  refine ⟨⟨_, hostWrite_tbuf j w s, rfl, fun k => ⟨tbuf_writeTbuf j k w s, tbufWritten_writeTbuf j k w s⟩⟩,
    ⟨_, readsAs_offset (r := .tbuf j) (by simp) s, fun k hk => extractLsb'_tbufWord s.tbuf hk⟩,
    readsUnwritten_tbuf_iff j s⟩

/-- Settles O10: the offsets are those of the registers, each of which reads as its word, and a write of ARG is `writeArg`. -/
theorem registerMap : Obligations.RegisterMap := by
  refine ⟨fun o ho => ⟨exists_offset_of_listed ho, ?_⟩, fun _ _ h => offset_injective h,
    fun r s hr => readsAs_offset hr s, fun s => ?_, fun i w s => ?_⟩
  · rintro ⟨r, rfl⟩
    exact listedOffset_offset r
  · exact ⟨readsAs_offset (r := .result) (by simp) s, readsAs_offset (r := .faddr) (by simp) s,
      readsAs_offset (r := .pen) (by simp) s, readsAs_offset (r := .fillp) (by simp) s,
      readsAs_offset (r := .cursorX) (by simp) s, readsAs_offset (r := .cursorY) (by simp) s,
      readsUnwritten_offset_iff (r := .result) (by simp) s,
      fun i => ⟨readsAs_offset (r := .arg i) (by simp) s, readsUnwritten_offset_iff (r := .arg i) (by simp) s⟩⟩
  · exact ⟨_, hostWrite_arg i w s, rfl, fun k => ⟨readArg_writeArg i k w s, argWritten_writeArg i k w s⟩⟩

/-- Settles O5: `issue_faulted` drops the command; the other accesses do not look at the record. -/
theorem commandsDroppedWhileFaulted : Obligations.CommandsDroppedWhileFaulted := by
  intro s f w hf
  have hfaulted : s.fault ≠ none := by simp [hf]
  refine ⟨issue_faulted hfaulted, fun i => ?_, fun j => ?_, fun r hr => readsAs_offset hr s⟩
  · exact ⟨_, hostWrite_arg i w s, readArg_writeArg_same i w s, hf, rfl, hostWrite_arg i w _⟩
  · exact ⟨_, hostWrite_tbuf j w s, tbufWord_writeTbuf j w s, hf, rfl, hostWrite_tbuf j w _⟩

theorem holdsValue_reset_arg (i : Fin 8) : (Register.arg i).holdsValue State.reset = false :=
  Vector.getElem_replicate i.isLt

theorem holdsValue_reset_tbuf (j : Fin 64) : (Register.tbuf j).holdsValue State.reset = false := by
  simp [Register.holdsValue, State.reset]

/-- Settles O12: the fields of `State.reset`, and the reads of registers it marks not written. -/
theorem resetTable : Obligations.ResetTable := by
  refine ⟨Memory.read_nil, fun i => ⟨holdsValue_reset_arg i, ?_, Vector.getElem_replicate i.isLt⟩, ⟨rfl, rfl, rfl⟩,
    fun k => ⟨Vector.getElem_replicate k.isLt, Vector.getElem_replicate k.isLt⟩, fun j => ?_, rfl, rfl, rfl, rfl, rfl,
    rfl, rfl,
    fun i => ⟨toNat_getElem_identityPalette i, toNat_getElem_identityPalette i, getElem_defaultTransp i⟩, fun k => ?_,
    rfl, rfl⟩
  · exact (readsUnwritten_offset_iff (r := .arg i) (by simp) _).2 (holdsValue_reset_arg i)
  · exact (readsUnwritten_offset_iff (r := .tbuf j) (by simp) _).2 (holdsValue_reset_tbuf j)
  · simp [State.reset]

end Sys2Proof.Machine
end

section
/-! PROOFS. What the values not written since reset can do (70_reset_and_hazards.md rule R332, log 1): a command looks only at
the operands it reads, so two runs that differ elsewhere differ in no more. -/

namespace Sys2Proof.Machine

/-! ### States that differ in the host's registers -/

/-- What ARG, RESULT, TBUF and their marks hold. -/
structure HostValues where
  args : Vector Word 8
  argWritten : Vector Bool 8
  result : Word
  resultWritten : Bool
  tbuf : Vector Byte 256
  tbufWritten : Vector Bool 256

/-- The state with other values in ARG, RESULT, TBUF and their marks. -/
def State.withHost (v : HostValues) (s : State) : State :=
  { s with args := v.args, argWritten := v.argWritten, result := v.result, resultWritten := v.resultWritten, tbuf := v.tbuf,
           tbufWritten := v.tbufWritten }

/-- Two outcomes of the command `i`, from `s` and from `s.withHost v`, are next states that differ in the values of `v` alone,
of which RESULT and its mark are either both kept or both overwritten. -/
def ActsAlike (i : Instr) (v : HostValues) (s : State) (R R' : Result) : Prop :=
  ∃ t t', R = .next t ∧ R' = .next t' ∧
    t' = { t.withHost v with result := t'.result, resultWritten := t'.resultWritten } ∧
    ((t.result = s.result ∧ t.resultWritten = s.resultWritten ∧ t'.result = v.result ∧
        t'.resultWritten = v.resultWritten) ∨
      (returnsValue i = true ∧ t.result = t'.result ∧ t.resultWritten = true ∧ t'.resultWritten = true))

/-- The registers the command reads hold in `v` what they hold in `s`. -/
structure SameOperands (i : Instr) (v : HostValues) (s : State) : Prop where
  args : ∀ k ∈ argsRead i, readArg k (s.withHost v) = readArg k s
  tbuf : ∀ k : Fin 256, k.val < tbufRead i s → v.tbuf[k] = s.tbuf[k]

section Alike

variable {i : Instr} {v : HostValues} {s : State}

theorem actsAlike_returnWord (h : returnsValue i = true) (w : Word) :
    ActsAlike i v s (returnWord w s) (returnWord w (s.withHost v)) :=
  ⟨_, _, rfl, rfl, rfl, .inr ⟨h, rfl, rfl, rfl⟩⟩

/-- A next state that keeps RESULT, whatever else the command has changed. -/
theorem actsAlike_next {t : State} (h : t.result = s.result) (h' : t.resultWritten = s.resultWritten) :
    ActsAlike i v s (.next t) (.next (t.withHost v)) :=
  ⟨_, _, rfl, rfl, rfl, .inl ⟨h, h', rfl, rfl⟩⟩

/-- A run faults for its place and length alone. -/
theorem actsAlike_storeRun (d n : Nat) (f : Nat → Byte) :
    ActsAlike i v s (storeRun d n f s) (storeRun d n f (s.withHost v)) := by
  unfold storeRun
  split
  · exact actsAlike_next rfl rfl
  · exact actsAlike_next rfl rfl

theorem scrollIfLow_withHost (v : HostValues) (s : State) : scrollIfLow (s.withHost v) = (scrollIfLow s).withHost v := by
  by_cases h : 116 * 65536 < s32 s.cursorY
  · rw [scrollIfLow_of_low h, scrollIfLow_of_low (s := s.withHost v) h]
    rfl
  · rw [scrollIfLow_of_high (not_lt.1 h), scrollIfLow_of_high (s := s.withHost v) (not_lt.1 h)]

theorem takePen_withHost {p : Fin 8} (hpen : hasPen i = true → readArg p (s.withHost v) = readArg p s) :
    takePen (hasPen i) p (s.withHost v) = (takePen (hasPen i) p s).withHost v := by
  cases hc : hasPen i with
  | false => rfl
  | true =>
    rw [takePen_eq, hpen hc]
    rfl

theorem actsAlike_drawWith {p : Fin 8} (hpen : hasPen i = true → readArg p (s.withHost v) = readArg p s)
    (ps : List Point) : ActsAlike i v s (drawWith (hasPen i) p ps s) (drawWith (hasPen i) p ps (s.withHost v)) := by
  rw [drawWith_eq, drawWith_eq, takePen_withHost hpen]
  exact actsAlike_next (t := (takePen (hasPen i) p s).setMem _) (by simp) (by simp)

end Alike

/-! ### The operands of a command -/

section Operands

variable {i : Instr} {v : HostValues} {s : State}

theorem mem_argsRead_iff (k : Fin 8) : k ∈ argsRead i ↔ k.val < plainOperands i + (if hasPen i then 1 else 0) := by
  simp [argsRead]

theorem SameOperands.readArg_eq (h : SameOperands i v s) {k : Fin 8} (hk : k.val < plainOperands i) :
    readArg k (s.withHost v) = readArg k s :=
  h.args k ((mem_argsRead_iff k).2 (by omega))

theorem SameOperands.readArg_pen_eq (h : SameOperands i v s) {k : Fin 8} (hk : k.val = plainOperands i)
    (hp : hasPen i = true) : readArg k (s.withHost v) = readArg k s :=
  h.args k ((mem_argsRead_iff k).2 (by rw [hp, if_pos rfl]; omega))

theorem SameOperands.argInt_eq (h : SameOperands i v s) {k : Fin 8} (hk : k.val < plainOperands i) :
    argInt k (s.withHost v) = argInt k s := congrArg intOf (h.readArg_eq hk)

theorem SameOperands.argX_eq (h : SameOperands i v s) {k : Fin 8} (hk : k.val < plainOperands i) :
    argX k (s.withHost v) = argX k s := congrArg (camX s) (h.readArg_eq hk)

theorem SameOperands.argY_eq (h : SameOperands i v s) {k : Fin 8} (hk : k.val < plainOperands i) :
    argY k (s.withHost v) = argY k s := congrArg (camY s) (h.readArg_eq hk)

theorem SameOperands.textBytes_eq (h : SameOperands i v s) {n : Nat} (hn : tbufRead i s = n) :
    textBytes n (s.withHost v) = textBytes n s := by
  refine List.ext_getElem (by simp [textBytes]) fun k hk _ => ?_
  obtain ⟨hlt, hbound⟩ : k < n ∧ k < 256 := by simpa [textBytes] using hk
  simp only [textBytes, List.getElem_take, Vector.getElem_toList]
  exact h.tbuf ⟨k, hbound⟩ (by simp only; omega)

theorem SameOperands.operandInRange_eq (h : SameOperands i v s) : operandInRange i (s.withHost v) = operandInRange i s := by
  cases i with
  | wave | chset | print | printc => rw [operandInRange, h.argInt_eq (by simp [plainOperands])]; rfl
  | _ => rfl

end Operands

/-! ### Every command -/

section Commands

variable {i : Instr} {v : HostValues} {s : State}

theorem actsAlike_of_isAlu (hi : isAlu i = true) (h : SameOperands i v s) :
    ActsAlike i v s (exec i s) (exec i (s.withHost v)) := by
  obtain ⟨w, hw, hsame⟩ := returnsFromOperands_of_isAlu hi s
  rw [hw, hsame (s.withHost v) h.args]
  exact actsAlike_returnWord (by simp [returnsValue, hi]) w

theorem actsAlike_of_operand_outOfRange (hr : operandInRange i s = false) (h : SameOperands i v s) :
    ActsAlike i v s (exec i s) (exec i (s.withHost v)) := by
  rw [exec_of_operand_outOfRange hr, exec_of_operand_outOfRange (h.operandInRange_eq.trans hr)]
  exact actsAlike_next rfl rfl

theorem actsAlike_print {c : Bool} (hr : isTextLength (argInt 0 s)) (h : SameOperands (.print c) v s) :
    ActsAlike (.print c) v s (exec (.print c) s) (exec (.print c) (s.withHost v)) := by
  have hlen : argInt 0 (s.withHost v) = argInt 0 s := h.argInt_eq (by simp [plainOperands])
  rw [exec_print hr, exec_print (by rwa [hlen]), hlen, h.textBytes_eq (if_pos hr), h.argX_eq (by simp [plainOperands]),
    h.argY_eq (by simp [plainOperands])]
  exact actsAlike_drawWith (h.readArg_pen_eq rfl) _

theorem actsAlike_printc {c : Bool} (hr : isTextLength (argInt 0 s)) (h : SameOperands (.printc c) v s) :
    ActsAlike (.printc c) v s (exec (.printc c) s) (exec (.printc c) (s.withHost v)) := by
  have hlen : argInt 0 (s.withHost v) = argInt 0 s := h.argInt_eq (by simp [plainOperands])
  have hpen : (if c then readArg 1 (s.withHost v) else (s.withHost v).pen) = if c then readArg 1 s else s.pen := by
    cases c with
    | false => rfl
    | true => exact h.readArg_pen_eq rfl rfl
  have hrun : exec (.printc c) s = _ := execPrintc_eq hr c
  have hrun' : exec (.printc c) (s.withHost v) = _ := execPrintc_eq (by rwa [hlen]) c
  rw [hrun, hrun', hlen, hpen, h.textBytes_eq (if_pos hr), scrollIfLow_withHost]
  exact actsAlike_next rfl rfl

theorem actsAlike_wave (hr : operandInRange .wave s = true) (h : SameOperands .wave v s) :
    ActsAlike .wave v s (exec .wave s) (exec .wave (s.withHost v)) := by
  obtain ⟨hlo, hhi⟩ := range_of_check_true hr
  obtain ⟨id, hid⟩ := exists_fin_of_range (n := 8) hlo (by omega)
  have hid' : argInt 0 (s.withHost v) = id := (h.argInt_eq (by decide)).trans hid
  rw [exec_wave hid (toNat_phase _).symm, exec_wave hid' (toNat_phase _).symm, h.readArg_eq (k := 1) (by decide)]
  exact actsAlike_returnWord rfl _

theorem actsAlike_chset (hr : operandInRange .chset s = true) (h : SameOperands .chset v s) :
    ActsAlike .chset v s (exec .chset s) (exec .chset (s.withHost v)) := by
  obtain ⟨hlo, hhi⟩ := range_of_check_true hr
  obtain ⟨k, hk⟩ := exists_fin_of_range (n := 4) hlo (by omega)
  have hk' : argInt 0 (s.withHost v) = k := (h.argInt_eq (by decide)).trans hk
  rw [exec_chset hk, exec_chset hk', h.readArg_eq (k := 1) (by decide), h.readArg_eq (k := 2) (by decide)]
  exact actsAlike_next rfl rfl

/-- A command acts alike on two states that agree in the operands it reads: each operand it names is the same in both, and
what it then does names none of the registers that differ. -/
theorem exec_actsAlike (h : SameOperands i v s) : ActsAlike i v s (exec i s) (exec i (s.withHost v)) := by
  cases hr : operandInRange i s with
  | false => exact actsAlike_of_operand_outOfRange hr h
  | true =>
    cases i with
    | peek | peek4 | pget | sget | mget | fget | fgetb =>
      simp (disch := decide) only [exec, execPeek, execPeek4, execPget, execSget, execMget, execFget, execFgetb,
        h.readArg_eq, h.argInt_eq, h.argX_eq, h.argY_eq]
      exact actsAlike_returnWord rfl _
    | poke | poke4 | memcpy | memset | reload =>
      simp (disch := decide) only [exec, execPoke, execPoke4, execMemcpy, execMemset, execReload, h.readArg_eq]
      exact actsAlike_storeRun _ _ _
    | pset | hline | vline | line | rect | rectfill | circ | circfill =>
      simp (disch := exact of_decide_eq_true rfl) only [exec, execPset, execHline, execVline, execLine, execRect,
        execRectfill, execCirc, execCircfill, h.argInt_eq, h.argX_eq, h.argY_eq]
      refine actsAlike_drawWith ?_ _
      exact h.readArg_pen_eq rfl
    | cls | spr | sspr | map | sset | mset =>
      simp (disch := exact of_decide_eq_true rfl) only [exec, execCls, execSpr, execSspr, execMap, execSset, execMset,
        sprCopies, ssprCopies, h.readArg_eq, h.argInt_eq, h.argX_eq, h.argY_eq]
      exact actsAlike_next rfl rfl
    | fset | fsetb =>
      simp (disch := decide) only [exec_fset, exec_fsetb, h.readArg_eq, h.argInt_eq]
      exact actsAlike_next rfl rfl
    | camera | clip | palt | color | fillp | cursor =>
      simp (disch := decide) only [exec, execCamera, execClip, execPalt, execColor, execFillp, execCursor,
        h.readArg_eq, h.argInt_eq]
      exact actsAlike_next rfl rfl
    | cliprst | palrst => exact actsAlike_next rfl rfl
    | pal =>
      simp (disch := decide) only [exec, execPal, h.readArg_eq, h.argInt_eq]
      split
      · exact actsAlike_next rfl rfl
      · exact actsAlike_next rfl rfl
    | print c => exact actsAlike_print (range_of_check_true hr) h
    | printc c => exact actsAlike_printc (range_of_check_true hr) h
    | wave => exact actsAlike_wave hr h
    | chset => exact actsAlike_chset hr h
    | _ => exact actsAlike_of_isAlu rfl h

end Commands

/-! ### States that differ in unwritten values -/

/-- Two outcomes are next states that differ at most in values not written since reset, or the same refusal. -/
def SameOutcomes (R R' : Result) : Prop :=
  (∀ t, R = .next t → ∃ t', R' = .next t' ∧ SameButUnwritten t t') ∧ ∀ r, R = .refused r → R' = .refused r

theorem sameOutcomes_next {t t' : State} (h : SameButUnwritten t t') : SameOutcomes (.next t) (.next t') :=
  ⟨fun _ ht => ⟨t', rfl, by cases ht; exact h⟩, nofun⟩

theorem sameOutcomes_refused (r : Refusal) : SameOutcomes (.refused r) (.refused r) :=
  ⟨nofun, fun _ h => h⟩

section Steps

variable {s s' : State}

/-- What the second of two states that differ in unwritten values holds in the host's registers: its own values, under the
marks of both. -/
def State.unmarkedValues (s s' : State) : HostValues :=
  ⟨s'.args, s.argWritten, s'.result, s.resultWritten, s'.tbuf, s.tbufWritten⟩

theorem SameButUnwritten.eq_withHost (h : SameButUnwritten s s') : s' = s.withHost (s.unmarkedValues s') := h.rest

theorem SameButUnwritten.sameOperands (h : SameButUnwritten s s') {i : Instr} (ho : operandsWritten i s = true) :
    SameOperands i (s.unmarkedValues s') s :=
  ⟨fun _ hk => h.readArg_eq ho hk, fun _ hk => h.tbuf_eq ho hk⟩

/-- A command whose operands are written does not see the values that differ: `exec_actsAlike`, whose two next states again
hold the same marks. -/
theorem SameButUnwritten.exec_sameOutcomes (h : SameButUnwritten s s') {i : Instr} (ho : operandsWritten i s = true) :
    SameOutcomes (exec i s) (exec i s') := by
  obtain ⟨t, t', ht, ht', hrest, hresult⟩ := exec_actsAlike (h.sameOperands ho)
  rw [← h.eq_withHost] at ht'
  rw [ht, ht']
  apply sameOutcomes_next
  obtain ⟨hargs, hargWritten, htbuf, htbufWritten, -⟩ := (effect_of_exec ht).keeps_host_registers
  obtain ⟨hargs', -, htbuf', -⟩ := (effect_of_exec ht').keeps_host_registers
  have hmark : t'.resultWritten = t.resultWritten := by
    rcases hresult with ⟨-, hkept, -, hkept'⟩ | ⟨-, -, hset, hset'⟩
    · exact hkept'.trans hkept.symm
    · exact hset'.trans hset.symm
  refine ⟨?_, fun k hk => ?_, fun hk => ?_, fun k hk => ?_⟩
  · rw [hmark] at hrest
    rw [hargs', htbuf']
    simpa only [State.withHost, State.unmarkedValues, hargWritten, htbufWritten] using hrest
  · rw [hargWritten] at hk
    rw [readArg, readArg, hargs, hargs']
    exact h.args k hk
  · rcases hresult with ⟨hkept, hkeptMark, hkept', -⟩ | ⟨-, hsame, -, -⟩
    · rw [hkept, hkept']
      exact h.result (hkeptMark.symm.trans hk)
    · exact hsame.symm
  · rw [htbufWritten] at hk
    rw [htbuf, htbuf']
    exact h.tbuf k hk

theorem SameButUnwritten.withInbox (h : SameButUnwritten s s') (as : List HostAccess) :
    SameButUnwritten { s with inbox := as } { s' with inbox := as } :=
  { h with rest := by rw [h.rest] }

theorem SameButUnwritten.reply (h : SameButUnwritten s s') (r : Reply) : SameButUnwritten (s.reply r) (s'.reply r) :=
  { h with rest := by rw [h.rest]; rfl }

theorem SameButUnwritten.raiseFault (h : SameButUnwritten s s') (k : Fault) (a : Word) :
    SameButUnwritten (s.raiseFault k a) (s'.raiseFault k a) :=
  { h with rest := by rw [h.rest]; rfl }

theorem SameButUnwritten.clearFault (h : SameButUnwritten s s') : SameButUnwritten s.clearFault s'.clearFault :=
  { h with rest := by rw [h.rest]; rfl }

theorem SameButUnwritten.withRom (h : SameButUnwritten s s') (r : RomImage) :
    SameButUnwritten { s with rom := r } { s' with rom := r } :=
  { h with rest := by rw [h.rest] }

theorem SameButUnwritten.writeStatus (h : SameButUnwritten s s') (w : Word) :
    SameButUnwritten (writeStatus w s) (writeStatus w s') := by
  unfold Machine.writeStatus
  split
  · exact h.clearFault
  · exact h

theorem SameButUnwritten.writeArg (h : SameButUnwritten s s') (i : Fin 8) (w : Word) :
    SameButUnwritten (writeArg i w s) (writeArg i w s') where
  rest := by rw [h.rest]; rfl
  args k hk := by
    rw [argWritten_writeArg] at hk
    rw [readArg_writeArg, readArg_writeArg]
    split
    · rfl
    · rename_i hki
      exact h.args k (by rwa [if_neg hki] at hk)
  result := h.result
  tbuf := h.tbuf

theorem SameButUnwritten.writeTbuf (h : SameButUnwritten s s') (j : Fin 64) (w : Word) :
    SameButUnwritten (writeTbuf j w s) (writeTbuf j w s') where
  rest := by rw [h.rest]; rfl
  args := h.args
  result := h.result
  tbuf k hk := by
    rw [tbufWritten_writeTbuf] at hk
    rw [tbuf_writeTbuf, tbuf_writeTbuf]
    split
    · rfl
    · rename_i hkj
      exact h.tbuf k (by rwa [if_neg hkj] at hk)

theorem SameButUnwritten.fault_eq (h : SameButUnwritten s s') : s'.fault = s.fault := by rw [h.rest]

/-- A register that holds a value reads the same in both. -/
theorem SameButUnwritten.word_eq (h : SameButUnwritten s s') {r : Register} (hr : r.holdsValue s = true) :
    r.word s' = r.word s := by
  cases r with
  | arg i => exact h.args i hr
  | result => exact h.result hr
  | tbuf j => exact tbufWord_congr fun k hk => h.tbuf k ((holdsValue_tbuf_iff j s).1 hr k hk)
  | _ =>
    rw [h.rest]
    rfl

/-- The issue of a command, if R332 does not have a model refuse it. -/
theorem SameButUnwritten.issue_sameOutcomes (h : SameButUnwritten s s') {w : Word}
    (hread : readsUnwritten (.write 32 0x020 w) s = false) : SameOutcomes (issue w s) (issue w s') := by
  rcases issue_cases w s with ⟨hf, hw⟩ | ⟨hf, hd, hw⟩ | ⟨i, hf, hd, hw⟩
  · rw [hw, issue_faulted (h.fault_eq ▸ hf)]
    exact sameOutcomes_next h
  · rw [hw, issue_illegal (h.fault_eq.trans hf) hd]
    exact sameOutcomes_next (h.raiseFault _ _)
  · rw [hw, issue_legal (h.fault_eq.trans hf) hd]
    rw [readsUnwritten_issue w s hd, hf] at hread
    exact h.exec_sameOutcomes (by simpa using hread)

theorem SameButUnwritten.hostWrite_sameOutcomes (h : SameButUnwritten s s') {width o : Nat} {w : Word}
    (hread : readsUnwritten (.write width o w) s = false) :
    SameOutcomes (hostWrite width o w s) (hostWrite width o w s') := by
  cases ha : addressed width o with
  | error e =>
    rw [hostWrite_of_error ha, hostWrite_of_error ha]
    exact sameOutcomes_refused e
  | ok r =>
    obtain ⟨rfl, rfl⟩ := addressed_ok ha
    unfold hostWrite
    rw [ha]
    cases r with
    | arg i => exact sameOutcomes_next (h.writeArg i w)
    | cmd => exact h.issue_sameOutcomes hread
    | status => exact sameOutcomes_next (h.writeStatus w)
    | tbuf j => exact sameOutcomes_next (h.writeTbuf j w)
    | _ => exact sameOutcomes_refused _

theorem SameButUnwritten.hostRead_sameOutcomes (h : SameButUnwritten s s') {width o : Nat}
    (hread : readsUnwritten (.read width o) s = false) : SameOutcomes (hostRead width o s) (hostRead width o s') := by
  cases ha : addressed width o with
  | error e =>
    rw [hostRead_of_error ha, hostRead_of_error ha]
    exact sameOutcomes_refused e
  | ok r =>
    obtain ⟨rfl, rfl⟩ := addressed_ok ha
    by_cases hr : r = .cmd
    · subst hr
      exact sameOutcomes_refused _
    · rw [readsUnwritten_read hr, Bool.not_eq_false'] at hread
      rw [hostRead_offset hr, hostRead_offset hr, h.word_eq hread]
      exact sameOutcomes_next (h.reply _)

theorem SameButUnwritten.serve_sameOutcomes (h : SameButUnwritten s s') {a : HostAccess}
    (hread : readsUnwritten a s = false) : SameOutcomes (serve a s) (serve a s') := by
  cases a with
  | write width o w => exact h.hostWrite_sameOutcomes hread
  | read width o => exact h.hostRead_sameOutcomes hread
  | overlapping => exact sameOutcomes_refused _
  | loadRom image =>
    show SameOutcomes (loadRom image s) (loadRom image s')
    unfold loadRom
    split
    · exact sameOutcomes_next (h.withRom _)
    · exact sameOutcomes_refused _
  | reset =>
    have hreset : s'.afterReset = s.afterReset := by
      rw [h.rest]
      rfl
    show SameOutcomes (.next s.afterReset) (.next s'.afterReset)
    rw [hreset]
    exact sameOutcomes_next (.refl _)
  | displayByte addr =>
    have hmem : s'.mem = s.mem := by rw [h.rest]
    show SameOutcomes (displayByte addr s) (displayByte addr s')
    unfold displayByte
    rw [hmem]
    split
    · exact sameOutcomes_next (h.reply _)
    · exact sameOutcomes_refused _
  | displayPalette i =>
    have hspal : s'.spal = s.spal := by rw [h.rest]
    show SameOutcomes (.next (s.reply (.paletteEntry s.spal[i]))) (.next (s'.reply (.paletteEntry s'.spal[i])))
    rw [hspal]
    exact sameOutcomes_next (h.reply _)

theorem readsUnwritten_withInbox (a : HostAccess) (s : State) (as : List HostAccess) :
    readsUnwritten a { s with inbox := as } = readsUnwritten a s := rfl

theorem SameButUnwritten.step_sameOutcomes (h : SameButUnwritten s s') (hread : s.readsWritten) :
    SameOutcomes (step s) (step s') := by
  have hinbox : s'.inbox = s.inbox := by rw [h.rest]
  cases hin : s.inbox with
  | nil =>
    rw [step_idle hin, step_idle (hinbox.trans hin)]
    exact sameOutcomes_next h
  | cons a rest =>
    rw [step_serve hin, step_serve (hinbox.trans hin)]
    exact (h.withInbox rest).serve_sameOutcomes ((readsUnwritten_withInbox a s rest).trans (hread a rest hin))

end Steps

/-- Settles O26: a command acts alike whatever it does not read (`exec_actsAlike`), one whose operands are not written is
issued like any other, and a step that reads nothing unwritten keeps two states alike
(`SameButUnwritten.step_sameOutcomes`). -/
theorem writtenMarksDoNotAct : Obligations.WrittenMarksDoNotAct := by
  refine ⟨fun i s a m r mr x mx hargs htbuf => ?_, fun s w i hf hd ho => ⟨?_, issue_legal hf hd⟩,
    fun s s' h hread => h.step_sameOutcomes hread⟩
  · exact exec_actsAlike (v := ⟨a, m, r, mr, x, mx⟩) ⟨hargs, htbuf⟩
  · rw [readsUnwritten_issue w s hd, hf, ho]
    rfl

end Sys2Proof.Machine
end
